-- ==== Sys2Proof/Word.lean ====
section
/-! DEFINITION. The words of CORE: bus words, bytes, big registers, register indices (00 R6, R7, R14). -/

namespace Sys2Proof

/-- A byte of the window, of a message or of a key. -/
abbrev Byte := BitVec 8

/-- A 32-bit bus word or command word (BUS_BITS, 00 R7). -/
abbrev Word := BitVec 32

/-- The contents of a big register: OPW = 576 bits, unsigned (00 R6, R9). -/
abbrev Big := BitVec 576

/-- The index of a big register, 0 to 31 (NREG, 00 R7; 30 R95). -/
abbrev Reg := Fin 32

end Sys2Proof
end

