-- ==== Sys2Proof/Syntax.lean ====
section
/-! DEFINITION. The instructions of CORE: one constructor per row of the opcode table (30 R97), 27 commands and
4 bus operations. Also the host's accesses and the algorithms the hash commands name. -/

namespace Sys2Proof

/-- The 14 hash algorithms (47 R210). -/
inductive Alg where
  | sha224 | sha256 | sha384 | sha512
  | sha3_224 | sha3_256 | sha3_384 | sha3_512
  | shake128 | shake256
  | ripemd128 | ripemd160 | ripemd256 | ripemd320
  deriving DecidableEq, Repr

/-- An instruction of CORE. Register fields are indices (30 R95); a field a command does not use has no argument. -/
inductive Instr where
  -- support commands (40)
  | nop
  | mov (rd ra : Reg)
  | ldi (rd : Reg) (imm : BitVec 16)
  | cmp (ra rb : Reg)
  -- modular adder/subtractor (42)
  | modadd (rd ra rb rm : Reg)
  | modsub (rd ra rb rm : Reg)
  | modred (rd ra rm : Reg)
  -- modular multiplier (41)
  | modmul (rd ra rb rm : Reg)
  | montmul (rd ra rb rm : Reg)
  | montrr (rd rm : Reg)
  -- modular inverse engine (43)
  | modinv (rd ra rm : Reg)
  -- Jacobian point unit (44)
  | tojac (rd ra : Reg)
  | fromjac (rd ra : Reg)
  | pdbl (rd ra : Reg)
  | padd (rd ra rb : Reg)
  -- scalar multiplier (45): neg is the modifier bit x[0]
  | smul (neg : Bool) (rd ra rb : Reg)
  | oncurve (ra : Reg)
  | isinf (ra : Reg)
  -- ECDSA datapath (46)
  | keygen
  | qcheck
  | sign
  | verify
  -- streaming hash engine (47): the raw algorithm code and output length
  | hinit (alg : BitVec 5) (olen : BitVec 7)
  | hfinal
  -- HMAC (49)
  | hmkey (alg : BitVec 5)
  | hmstart
  | hmfinal
  -- bus operations: HASH_DIN, HASH_DINB, CTRL.CLOCKC, CTRL.SRST
  | hashDin (data : Word)
  | hashDinb (data : Byte)
  | ctrlClockc
  | ctrlSrst
  deriving DecidableEq, Repr

/-- What carries an instruction to CORE: a command word in PENDING, or an aligned 32-bit host write. -/
inductive Carrier where
  | cmd (w : Word)
  | write (offset : Nat) (data : Word)
  deriving DecidableEq, Repr

/-- One host access: its byte offset from CORE_BASE (00 R8), its width in bytes, and the word written.
The data of a write that is not 32 bits wide reaches nothing (20 R65). -/
inductive Access where
  | read (offset bytes : Nat)
  | write (offset bytes : Nat) (data : Word)
  deriving DecidableEq, Repr

/-- One event of a run (00 R16): a host access, the engine's turn, or the reset input (70 R310). -/
inductive Event where
  | host (a : Access)
  | engine
  | reset
  deriving DecidableEq, Repr

end Sys2Proof
end

