-- ==== Sys2Proof/Machine/Algorithms.lean ====
section
/-! DEFINITION. The table of the hash algorithms: codes, families, block and digest sizes (47 R210). -/

namespace Sys2Proof

/-- The algorithm code, in the alg field and in HSTAT.ALG and HSTAT.HALG (47 R210). -/
def Alg.code : Alg → BitVec 5
  | .sha224 => 0x01
  | .sha256 => 0x02
  | .sha384 => 0x03
  | .sha512 => 0x04
  | .sha3_224 => 0x08
  | .sha3_256 => 0x09
  | .sha3_384 => 0x0A
  | .sha3_512 => 0x0B
  | .shake128 => 0x0C
  | .shake256 => 0x0D
  | .ripemd128 => 0x10
  | .ripemd160 => 0x11
  | .ripemd256 => 0x12
  | .ripemd320 => 0x13

/-- Every algorithm, in the order of the table. -/
def Alg.all : List Alg :=
  [.sha224, .sha256, .sha384, .sha512, .sha3_224, .sha3_256, .sha3_384, .sha3_512,
    .shake128, .shake256, .ripemd128, .ripemd160, .ripemd256, .ripemd320]

/-- The algorithm of a code; every code not in the table is unknown (47 R210). -/
def Alg.ofCode (c : BitVec 5) : Option Alg := Alg.all.find? fun a => a.code == c

/-- The code of an optional algorithm, 0 for none (10 R34). -/
def Alg.codeOf : Option Alg → BitVec 5
  | none => 0
  | some a => a.code

/-- SHAKE128 and SHAKE256, the algorithms with a chosen output length. -/
def Alg.isShake : Alg → Bool
  | .shake128 | .shake256 => true
  | .sha224 | .sha256 | .sha384 | .sha512 | .sha3_224 | .sha3_256 | .sha3_384 | .sha3_512 => false
  | .ripemd128 | .ripemd160 | .ripemd256 | .ripemd320 => false

/-- blockSize: the bytes one compression or permutation absorbs (47 R210). -/
def Alg.block : Alg → Nat
  | .sha224 | .sha256 => 64
  | .sha384 | .sha512 => 128
  | .sha3_224 => 144
  | .sha3_256 => 136
  | .sha3_384 => 104
  | .sha3_512 => 72
  | .shake128 => 168
  | .shake256 => 136
  | .ripemd128 | .ripemd160 | .ripemd256 | .ripemd320 => 64

/-- digestSize in bytes; for SHAKE the default output length (47 R210). -/
def Alg.digestSize : Alg → BitVec 7
  | .sha224 => 28
  | .sha256 => 32
  | .sha384 => 48
  | .sha512 => 64
  | .sha3_224 => 28
  | .sha3_256 => 32
  | .sha3_384 => 48
  | .sha3_512 => 64
  | .shake128 => 32
  | .shake256 => 64
  | .ripemd128 => 16
  | .ripemd160 => 20
  | .ripemd256 => 32
  | .ripemd320 => 40

/-- OUTLEN of a session HINIT starts: olen for SHAKE when it is not 0, else the table's size (47 R211). -/
def Alg.outlen (a : Alg) (olen : BitVec 7) : BitVec 7 :=
  if a.isShake && olen != 0 then olen else a.digestSize

end Sys2Proof
end

