-- ==== Sys2Proof/Machine/Keccak.lean ====
section
/-! DEFINITION. Keccak-f[1600] and its absorption of a block (48 R246 to R249). -/

namespace Sys2Proof.Machine

/-- The index of lane A[x, y], i = x + 5y, coordinates taken mod 5 (48 R246). -/
def laneIndex (x y : Nat) : Nat := x % 5 + 5 * (y % 5)

/-- Lane A[x, y]. -/
def lane (a : List (BitVec 64)) (x y : Nat) : BitVec 64 := a.getD (laneIndex x y) 0

/-- The state whose lane A[x, y] is f x y. -/
def lanes (f : Nat → Nat → BitVec 64) : List (BitVec 64) := (List.range 25).map fun i => f (i % 5) (i / 5)

/-- θ (48 R247). -/
def keccakTheta (a : List (BitVec 64)) : List (BitVec 64) :=
  let c := (List.range 5).map fun x => lane a x 0 ^^^ lane a x 1 ^^^ lane a x 2 ^^^ lane a x 3 ^^^ lane a x 4
  let d := (List.range 5).map fun x => c.getD ((x + 4) % 5) 0 ^^^ (c.getD ((x + 1) % 5) 0).rotateLeft 1
  lanes fun x y => lane a x y ^^^ d.getD x 0

/-- The rotation offsets r[x, y] (48 R248): lane x + 5y in place x + 5y, from the rows of the rule's table. -/
def keccakOffsets : List Nat :=
  [0, 1, 62, 28, 27] ++ [36, 44, 6, 55, 20] ++ [3, 10, 43, 25, 39] ++ [41, 45, 15, 21, 8] ++ [18, 2, 61, 56, 14]

/-- ρ and π (48 R247): Bq[y, 2x + 3y] is A[x, y] rotated left by r[x, y]. -/
def keccakRhoPi (a : List (BitVec 64)) : List (BitVec 64) :=
  (List.range 25).foldl
    (fun bq i =>
      bq.set (laneIndex (i / 5) (2 * (i % 5) + 3 * (i / 5)))
        ((a.getD i 0).rotateLeft (keccakOffsets.getD i 0)))
    (List.replicate 25 0)

/-- χ (48 R247). -/
def keccakChi (bq : List (BitVec 64)) : List (BitVec 64) :=
  lanes fun x y => lane bq x y ^^^ (~~~(lane bq (x + 1) y) &&& lane bq (x + 2) y)

/-- ι (48 R247). -/
def keccakIota (rc : BitVec 64) (a : List (BitVec 64)) : List (BitVec 64) := a.set 0 (lane a 0 0 ^^^ rc)

/-- One round: θ, ρ and π, χ, ι (48 R247). -/
def keccakRound (a : List (BitVec 64)) (rc : BitVec 64) : List (BitVec 64) :=
  keccakIota rc (keccakChi (keccakRhoPi (keccakTheta a)))

/-- One step of the LFSR x^8 + x^6 + x^5 + x^4 + 1 (48 R249): the register is a residue modulo that polynomial, bit i
the coefficient of x^i, and a step multiplies it by x. -/
def lfsrNext (r : BitVec 8) : BitVec 8 := r <<< 1 ^^^ (if r.msb then 0x71 else 0)

/-- The round constant read from register r, and the register after it (48 R249): bit 2^j - 1 is the j-th output, the
constant coefficient, for j = 0..6. -/
def keccakRcStep (r : BitVec 8) : BitVec 64 × BitVec 8 :=
  (List.range 7).foldl
    (fun (rc, r) j => (rc ||| (r &&& 1).setWidth 64 <<< (2 ^ j - 1), lfsrNext r)) (0, r)

/-- The constants of n rounds from register r on: round ir + 1 goes on seven outputs after round ir (48 R249). -/
def keccakRcFrom : Nat → BitVec 8 → List (BitVec 64)
  | 0, _ => []
  | n + 1, r => (keccakRcStep r).1 :: keccakRcFrom n (keccakRcStep r).2

/-- The round constants RC[0..23] (48 R249); the LFSR starts at x^0, so that rc(t) is the constant coefficient of x^t. -/
def keccakRc : List (BitVec 64) := keccakRcFrom 24 1

/-- Keccak-f[1600]: 24 rounds (48 R247). -/
def keccakF (a : List (BitVec 64)) : List (BitVec 64) := keccakRc.foldl keccakRound a

/-- Absorbing a block of n bytes (48 R246): lane i for i < n/8 takes the XOR of the block's i-th little-endian word. -/
def keccakCompress (n : Nat) (a : List (BitVec 64)) (block : List Byte) : List (BitVec 64) :=
  keccakF ((List.range 25).map fun i =>
    if i < n / 8 then a.getD i 0 ^^^ leWord 64 (byteGroup 8 block i) else a.getD i 0)

end Sys2Proof.Machine
end

