-- ==== Sys2Proof/Machine/Ripemd.lean ====
section
/-! DEFINITION. The RIPEMD-128, -160, -256 and -320 compression functions (48 R250 to R253). -/

namespace Sys2Proof.Machine

/-- The functions f1 to f5 by number (48 R252). -/
def ripemdF (n : Nat) (x y z : BitVec 32) : BitVec 32 :=
  if n = 1 then x ^^^ y ^^^ z
  else if n = 2 then (x &&& y) ||| (~~~x &&& z)
  else if n = 3 then (x ||| ~~~y) ^^^ z
  else if n = 4 then (x &&& z) ||| (y &&& ~~~z)
  else x ^^^ (y ||| ~~~z)

/-- One round of one line: its function's number, its constant, and the word index and rotation of each step. -/
structure RipemdRound where
  f : Nat
  k : BitVec 32
  steps : List (Nat × Nat)

/-- The word index of each step, left line, rounds 1 to 5 (48 R252). -/
def ripemdIdxLeft : List (List Nat) :=
  [[0, 1, 2, 3, 4, 5, 6, 7, 8, 9, 10, 11, 12, 13, 14, 15],
    [7, 4, 13, 1, 10, 6, 15, 3, 12, 0, 9, 5, 2, 14, 11, 8],
    [3, 10, 14, 4, 9, 15, 8, 1, 2, 7, 0, 6, 13, 11, 5, 12],
    [1, 9, 11, 10, 0, 8, 12, 4, 13, 3, 7, 15, 14, 5, 6, 2],
    [4, 0, 5, 9, 7, 12, 2, 10, 14, 1, 3, 8, 11, 6, 15, 13]]

/-- The word index of each step, right line (48 R252). -/
def ripemdIdxRight : List (List Nat) :=
  [[5, 14, 7, 0, 9, 2, 11, 4, 13, 6, 15, 8, 1, 10, 3, 12],
    [6, 11, 3, 7, 0, 13, 5, 10, 14, 15, 8, 12, 4, 9, 1, 2],
    [15, 5, 1, 3, 7, 14, 6, 9, 11, 8, 12, 2, 10, 0, 4, 13],
    [8, 6, 4, 1, 3, 11, 15, 0, 5, 12, 2, 13, 9, 7, 10, 14],
    [12, 15, 10, 4, 1, 5, 8, 7, 6, 2, 13, 14, 0, 3, 9, 11]]

/-- The rotation of each step, left line (48 R252). -/
def ripemdRotLeft : List (List Nat) :=
  [[11, 14, 15, 12, 5, 8, 7, 9, 11, 13, 14, 15, 6, 7, 9, 8],
    [7, 6, 8, 13, 11, 9, 7, 15, 7, 12, 15, 9, 11, 7, 13, 12],
    [11, 13, 6, 7, 14, 9, 13, 15, 14, 8, 13, 6, 5, 12, 7, 5],
    [11, 12, 14, 15, 14, 15, 9, 8, 9, 14, 5, 6, 8, 6, 5, 12],
    [9, 15, 5, 11, 6, 8, 13, 12, 5, 12, 13, 14, 11, 8, 5, 6]]

/-- The rotation of each step, right line (48 R252). -/
def ripemdRotRight : List (List Nat) :=
  [[8, 9, 9, 11, 13, 15, 15, 5, 7, 7, 8, 11, 14, 14, 12, 6],
    [9, 13, 15, 7, 12, 8, 9, 11, 7, 7, 12, 7, 6, 15, 13, 11],
    [9, 7, 15, 11, 8, 6, 6, 14, 12, 13, 5, 14, 13, 13, 7, 5],
    [15, 5, 8, 11, 14, 14, 6, 14, 6, 9, 12, 9, 12, 5, 15, 8],
    [8, 5, 12, 9, 12, 5, 14, 6, 8, 13, 6, 5, 15, 13, 11, 11]]

/-- The constants per round, left line, all four functions (48 R252). -/
def ripemdKLeft : List (BitVec 32) := [0x00000000, 0x5A827999, 0x6ED9EBA1, 0x8F1BBCDC, 0xA953FD4E]

/-- The constants per round, right line, RIPEMD-128 and -256 (48 R252). -/
def ripemdKRight4 : List (BitVec 32) := [0x50A28BE6, 0x5C4DD124, 0x6D703EF3, 0x00000000]

/-- The constants per round, right line, RIPEMD-160 and -320 (48 R252). -/
def ripemdKRight5 : List (BitVec 32) := [0x50A28BE6, 0x5C4DD124, 0x6D703EF3, 0x7A6D76E9, 0x00000000]

/-- Round r (from 1) of the left line, which uses f_r (48 R252). -/
def ripemdLeft (r : Nat) : RipemdRound :=
  { f := r, k := ripemdKLeft.getD (r - 1) 0,
    steps := (ripemdIdxLeft.getD (r - 1) []).zip (ripemdRotLeft.getD (r - 1) []) }

/-- Round r (from 1) of the right line of a function with n rounds, which uses f_(n + 1 - r) (48 R252). -/
def ripemdRight (n : Nat) (ks : List (BitVec 32)) (r : Nat) : RipemdRound :=
  { f := n + 1 - r, k := ks.getD (r - 1) 0,
    steps := (ripemdIdxRight.getD (r - 1) []).zip (ripemdRotRight.getD (r - 1) []) }

/-- The block's 16 little-endian words (48 R250). -/
def ripemdWords (block : List Byte) : List (BitVec 32) :=
  (List.range 16).map fun i => leWord 32 (byteGroup 4 block i)

/-! Four-register lines: RIPEMD-128 and RIPEMD-256. -/

/-- A line of RIPEMD-128. -/
structure Line4 where
  a : BitVec 32
  b : BitVec 32
  c : BitVec 32
  d : BitVec 32

/-- A step of RIPEMD-128 (48 R250). -/
def step4 (xs : List (BitVec 32)) (r : RipemdRound) (l : Line4) (st : Nat × Nat) : Line4 :=
  { a := l.d, b := (l.a + ripemdF r.f l.b l.c l.d + xs.getD st.1 0 + r.k).rotateLeft st.2, c := l.b, d := l.c }

/-- A round of 16 steps. -/
def round4 (xs : List (BitVec 32)) (r : RipemdRound) (l : Line4) : Line4 := r.steps.foldl (step4 xs r) l

/-- Round r of both lines. -/
def both4 (xs : List (BitVec 32)) (r : Nat) (l : Line4 × Line4) : Line4 × Line4 :=
  (round4 xs (ripemdLeft r) l.1, round4 xs (ripemdRight 4 ripemdKRight4 r) l.2)

/-- The register RIPEMD-256 exchanges after round r: A, B, C, D in turn (48 R251). -/
def exchange4 (r : Nat) (l : Line4 × Line4) : Line4 × Line4 :=
  if r = 1 then ({ l.1 with a := l.2.a }, { l.2 with a := l.1.a })
  else if r = 2 then ({ l.1 with b := l.2.b }, { l.2 with b := l.1.b })
  else if r = 3 then ({ l.1 with c := l.2.c }, { l.2 with c := l.1.c })
  else ({ l.1 with d := l.2.d }, { l.2 with d := l.1.d })

/-- The four words of a line from place i on. -/
def line4At (h : List (BitVec 32)) (i : Nat) : Line4 :=
  ⟨h.getD i 0, h.getD (i + 1) 0, h.getD (i + 2) 0, h.getD (i + 3) 0⟩

/-- RIPEMD-128 (48 R250). -/
def ripemd128 (h : List (BitVec 32)) (block : List Byte) : List (BitVec 32) :=
  let v := line4At h 0
  let xs := ripemdWords block
  let (l, r) := [1, 2, 3, 4].foldl (fun p i => both4 xs i p) (v, v)
  [v.b + l.c + r.d, v.c + l.d + r.a, v.d + l.a + r.b, v.a + l.b + r.c]

/-- RIPEMD-256 (48 R251). -/
def ripemd256 (h : List (BitVec 32)) (block : List Byte) : List (BitVec 32) :=
  let v := line4At h 0
  let u := line4At h 4
  let xs := ripemdWords block
  let (l, r) := [1, 2, 3, 4].foldl (fun p i => exchange4 i (both4 xs i p)) (v, u)
  [v.a + l.a, v.b + l.b, v.c + l.c, v.d + l.d, u.a + r.a, u.b + r.b, u.c + r.c, u.d + r.d]

/-! Five-register lines: RIPEMD-160 and RIPEMD-320. -/

/-- A line of RIPEMD-160. -/
structure Line5 where
  a : BitVec 32
  b : BitVec 32
  c : BitVec 32
  d : BitVec 32
  e : BitVec 32

/-- A step of RIPEMD-160 (48 R250). -/
def step5 (xs : List (BitVec 32)) (r : RipemdRound) (l : Line5) (st : Nat × Nat) : Line5 :=
  { a := l.e
    b := (l.a + ripemdF r.f l.b l.c l.d + xs.getD st.1 0 + r.k).rotateLeft st.2 + l.e
    c := l.b
    d := l.c.rotateLeft 10
    e := l.d }

/-- A round of 16 steps. -/
def round5 (xs : List (BitVec 32)) (r : RipemdRound) (l : Line5) : Line5 := r.steps.foldl (step5 xs r) l

/-- Round r of both lines. -/
def both5 (xs : List (BitVec 32)) (r : Nat) (l : Line5 × Line5) : Line5 × Line5 :=
  (round5 xs (ripemdLeft r) l.1, round5 xs (ripemdRight 5 ripemdKRight5 r) l.2)

/-- The register RIPEMD-320 exchanges after round r: B, D, A, C, E in turn (48 R251). -/
def exchange5 (r : Nat) (l : Line5 × Line5) : Line5 × Line5 :=
  if r = 1 then ({ l.1 with b := l.2.b }, { l.2 with b := l.1.b })
  else if r = 2 then ({ l.1 with d := l.2.d }, { l.2 with d := l.1.d })
  else if r = 3 then ({ l.1 with a := l.2.a }, { l.2 with a := l.1.a })
  else if r = 4 then ({ l.1 with c := l.2.c }, { l.2 with c := l.1.c })
  else ({ l.1 with e := l.2.e }, { l.2 with e := l.1.e })

/-- The five words of a line from place i on. -/
def line5At (h : List (BitVec 32)) (i : Nat) : Line5 :=
  ⟨h.getD i 0, h.getD (i + 1) 0, h.getD (i + 2) 0, h.getD (i + 3) 0, h.getD (i + 4) 0⟩

/-- RIPEMD-160 (48 R250). -/
def ripemd160 (h : List (BitVec 32)) (block : List Byte) : List (BitVec 32) :=
  let v := line5At h 0
  let xs := ripemdWords block
  let (l, r) := [1, 2, 3, 4, 5].foldl (fun p i => both5 xs i p) (v, v)
  [v.b + l.c + r.d, v.c + l.d + r.e, v.d + l.e + r.a, v.e + l.a + r.b, v.a + l.b + r.c]

/-- RIPEMD-320 (48 R251). -/
def ripemd320 (h : List (BitVec 32)) (block : List Byte) : List (BitVec 32) :=
  let v := line5At h 0
  let u := line5At h 5
  let xs := ripemdWords block
  let (l, r) := [1, 2, 3, 4, 5].foldl (fun p i => exchange5 i (both5 xs i p)) (v, u)
  [v.a + l.a, v.b + l.b, v.c + l.c, v.d + l.d, v.e + l.e,
    u.a + r.a, u.b + r.b, u.c + r.c, u.d + r.d, u.e + r.e]

/-- IV(RIPEMD-128) (48 R253). -/
def ivRipemd128 : List (BitVec 32) :=
  [0x67452301, 0xEFCDAB89, 0x98BADCFE, 0x10325476]

/-- IV(RIPEMD-160) (48 R253). -/
def ivRipemd160 : List (BitVec 32) :=
  [0x67452301, 0xEFCDAB89, 0x98BADCFE, 0x10325476, 0xC3D2E1F0]

/-- IV(RIPEMD-256) (48 R253). -/
def ivRipemd256 : List (BitVec 32) :=
  [0x67452301, 0xEFCDAB89, 0x98BADCFE, 0x10325476, 0x76543210,
    0xFEDCBA98, 0x89ABCDEF, 0x01234567]

/-- IV(RIPEMD-320) (48 R253). -/
def ivRipemd320 : List (BitVec 32) :=
  [0x67452301, 0xEFCDAB89, 0x98BADCFE, 0x10325476, 0xC3D2E1F0,
    0x76543210, 0xFEDCBA98, 0x89ABCDEF, 0x01234567, 0x3C2D1E0F]

end Sys2Proof.Machine
end

