-- ==== Sys2Proof/Config.lean ====
section
/-! DEFINITION. The fixed parameters of CORE (00 R2, R7) and the one free value of the model (20 R72). -/

namespace Sys2Proof

/-- NWORDS: 32-bit words of a big register. -/
def Config.nwords : Nat := 18

/-- MONT_R = 2^576, the Montgomery radix. -/
def Config.montR : Nat := 2 ^ 576

/-- WINDOW: the size in bytes of the register window. -/
def Config.window : Nat := 0x2000

/-- KEYBUF_BYTES, the largest key length HMKEY accepts (49 R270). -/
def Config.keybufBytes : Nat := 256

/-- DIGEST_BYTES, the largest SHAKE output length HINIT accepts (47 R211, R213). -/
def Config.digestBytes : Nat := 64

/-- The read-only register ID: "CORE" in ASCII, most significant byte first (00 R2). -/
def Config.idWord : Word := 0x434F5245#32

/-- The read-only register VERSION (00 R2). -/
def Config.versionWord : Word := 0x00010000#32

/-- FREE VALUE (20 R72, 93 U1; log entry 3): what the n-th unspecified host read returns. It has no body:
nothing constrains it, and two reads draw at two different arguments. -/
opaque Config.unspecifiedRead : Nat → Word

end Sys2Proof
end

