-- ==== Sys2Proof/Machine/State.lean ====
section
/-! DEFINITION. The state of CORE (10_state.md), the reasons a step can stop, and the state after reset (10 R43). -/

namespace Sys2Proof.Machine

/-- FLAGS (10 R30), one Bool per defined bit. Bits [31:9] read 0 and are not held. -/
structure Flags where
  eq : Bool
  lt : Bool
  gt : Bool
  zero : Bool
  inf : Bool
  onc : Bool
  valid : Bool
  degen : Bool
  noninv : Bool
  deriving DecidableEq, Repr

/-- HSTATE (10 R34): no session, accepting message bytes, digest valid. The value 3 never occurs. -/
inductive HState where
  | idle
  | absorb
  | done
  deriving DecidableEq, Repr

/-- DKIND (10 R34): the kind of the digest in DIGEST. -/
inductive DKind where
  | hash
  | mac
  deriving DecidableEq, Repr

/-- A chaining value (10 R41): 32-bit words (SHA-224/256, RIPEMD) or 64-bit words (SHA-384/512, Keccak lanes). -/
inductive Chain where
  | words32 (ws : List (BitVec 32))
  | words64 (ws : List (BitVec 64))
  deriving DecidableEq, Repr

/-- The streaming part of the hash engine: CV, BUF and HCOUNT (10 R36, R41). -/
structure HashRun where
  cv : Chain
  buf : List Byte
  count : BitVec 64
  deriving DecidableEq, Repr

/-- Everything the spec gives CORE (10 R20), and three fields of the model's own: rdata, drawn, inputs. -/
structure State where
  -- big registers BR0 to BR31 (10 R22)
  br : Vector Big 32
  -- CURVE_LOCK (10 R27)
  curveLock : Bool
  -- STATUS.DONE and STATUS.ERR (10 R28); BUSY is pending.isSome
  done : Bool
  err : Bool
  -- ERRCODE (10 R29) and FLAGS (10 R30)
  errcode : Word
  flags : Flags
  -- IE.DONE_IE and IE.ERR_IE (10 R31)
  doneIe : Bool
  errIe : Bool
  -- the tags (10 R33)
  curveId : Byte
  dtag : Byte
  qtag : Byte
  -- the hash engine, HSTAT (10 R34); the code 0 of ALG and HALG is none
  hstate : HState
  hmact : Bool
  hkv : Bool
  dkind : DKind
  alg : Option Alg
  halg : Option Alg
  outlen : BitVec 7
  -- DLEN (10 R35)
  dlen : BitVec 7
  -- CV, BUF, HCOUNT (10 R36, R41)
  run : HashRun
  -- KLEN (10 R38), DIGEST (10 R39), KEYBUF (10 R40)
  klen : BitVec 9
  digest : Vector Byte 64
  keybuf : Vector Byte 256
  -- IPK and OPK (10 R41)
  ipk : List Byte
  opk : List Byte
  -- PENDING (10 R41): the latched command word while BUSY = 1
  pending : Option Word
  -- the model's own: the word the last host read returned (log entry 2)
  rdata : Word
  -- the model's own: how many unspecified reads have been drawn (log entry 3)
  drawn : Nat
  -- the model's own: the events still to come, in order (log entry 1)
  inputs : List Event
  deriving DecidableEq, Repr

/-- Why a step stops with a fault. -/
inductive Fault where
  /-- Raised by a host access whose offset lies outside the 0x2000-byte window (20 R60): it is no access to CORE,
  and the spec says nothing of it. Safe: the machine stops (log entry 6). -/
  | outsideWindow (offset : Nat)
  deriving DecidableEq, Repr

/-- Why a step is refused. -/
inductive Refusal where
  /-- Raised by an arm of exec that gives its instruction no meaning; no arm does. Safe. -/
  | notModelled (mnemonic : String)
  deriving DecidableEq, Repr

/-- FLAGS after reset: all bits 0 (10 R30). -/
def Flags.none : Flags :=
  { eq := false, lt := false, gt := false, zero := false, inf := false, onc := false,
    valid := false, degen := false, noninv := false }

/-- The hash engine's CV, BUF and HCOUNT after reset (10 R43); the shape of the zero CV is log entry 8. -/
def HashRun.zero : HashRun := { cv := .words64 (List.replicate 25 0), buf := [], count := 0 }

/-- The machine right after a reset (10 R43, 70 R310), with no event to come. -/
def State.reset : State where
  br := Vector.replicate 32 0
  curveLock := false
  done := false
  err := false
  errcode := 0
  flags := Flags.none
  doneIe := false
  errIe := false
  curveId := 0
  dtag := 0
  qtag := 0
  hstate := .idle
  hmact := false
  hkv := false
  dkind := .hash
  alg := .none
  halg := .none
  outlen := 0
  dlen := 0
  run := HashRun.zero
  klen := 0
  digest := Vector.replicate 64 0
  keybuf := Vector.replicate 256 0
  ipk := []
  opk := []
  pending := .none
  rdata := 0
  drawn := 0
  inputs := []

/-- What a step answers. -/
abbrev Result := Host.Outcome State Fault Refusal

end Sys2Proof.Machine
end

