-- ==== Sys2Proof/Machine/HashCore.lean ====
section
/-! DEFINITION. The streaming hash: absorbing bytes (47 R214), padding, finalisation and serialisation (47 R217), over
the compression functions of 48. -/

namespace Sys2Proof.Machine

/-- The 32-bit words of a chaining value; none if it holds 64-bit words, which no session of a 32-bit family does. -/
def chainWords32 : Chain → List (BitVec 32)
  | .words32 ws => ws
  | .words64 _ => []

/-- The 64-bit words of a chaining value; none if it holds 32-bit words. -/
def chainWords64 : Chain → List (BitVec 64)
  | .words32 _ => []
  | .words64 ws => ws

/-- IV(alg) (48 R245, R246, R253). -/
def hashIv : Alg → Chain
  | .sha224 => .words32 ivSha224
  | .sha256 => .words32 ivSha256
  | .sha384 => .words64 ivSha384
  | .sha512 => .words64 ivSha512
  | .sha3_224 | .sha3_256 | .sha3_384 | .sha3_512 | .shake128 | .shake256 => .words64 (List.replicate 25 0)
  | .ripemd128 => .words32 ivRipemd128
  | .ripemd160 => .words32 ivRipemd160
  | .ripemd256 => .words32 ivRipemd256
  | .ripemd320 => .words32 ivRipemd320

/-- compress(ALG, CV, X) for one block X (47 R210, 48). -/
def compress (a : Alg) (cv : Chain) (block : List Byte) : Chain :=
  match a with
  | .sha224 | .sha256 => .words32 (sha2Compress sha256Amounts k256 (chainWords32 cv) block)
  | .sha384 | .sha512 => .words64 (sha2Compress sha512Amounts k512 (chainWords64 cv) block)
  | .sha3_224 | .sha3_256 | .sha3_384 | .sha3_512 | .shake128 | .shake256 =>
    .words64 (keccakCompress a.block (chainWords64 cv) block)
  | .ripemd128 => .words32 (ripemd128 (chainWords32 cv) block)
  | .ripemd160 => .words32 (ripemd160 (chainWords32 cv) block)
  | .ripemd256 => .words32 (ripemd256 (chainWords32 cv) block)
  | .ripemd320 => .words32 (ripemd320 (chainWords32 cv) block)

/-- CV, BUF and HCOUNT at the start of a session: IV, empty, 0 (47 R213). -/
def hashStart (a : Alg) : HashRun := { cv := hashIv a, buf := [], count := 0 }

/-- absorb_byte (47 R214). -/
def absorbByte (a : Alg) (r : HashRun) (b : Byte) : HashRun :=
  if r.buf.length + 1 = a.block then
    { cv := compress a r.cv (r.buf ++ [b]), buf := [], count := r.count + 1 }
  else { r with buf := r.buf ++ [b], count := r.count + 1 }

/-- absorb_byte for each byte of a string, in order. -/
def absorbBytes (a : Alg) (r : HashRun) (bs : List Byte) : HashRun := bs.foldl (absorbByte a) r

/-- Padding of SHA-2 and RIPEMD (47 R217): 0x80, then zero bytes until the length is m modulo the block, for a buffer
of n bytes. -/
def padZeros (block m n : Nat) : List Byte := 0x80#8 :: List.replicate ((block + m - (n + 1) % block) % block) 0

/-- Padding of SHA3 and SHAKE (47 R217) with the domain byte d, filling the block. -/
def padSponge (block : Nat) (d : Byte) (n : Nat) : List Byte :=
  let q := block - n
  if q = 1 then [d ||| 0x80#8] else d :: (List.replicate (q - 2) 0 ++ [0x80#8])

/-- L = 8 * HCOUNT, the message length in bits (47 R217), as an exact integer. -/
def lengthBits (count : BitVec 64) : Nat := 8 * count.toNat

/-- pad(ALG, |BUF|, HCOUNT) (47 R217). -/
def hashPad (a : Alg) (n : Nat) (count : BitVec 64) : List Byte :=
  match a with
  | .sha224 | .sha256 => padZeros 64 56 n ++ beBytes 8 (BitVec.ofNat 64 (lengthBits count))
  | .sha384 | .sha512 => padZeros 128 112 n ++ beBytes 16 (BitVec.ofNat 128 (lengthBits count))
  | .ripemd128 | .ripemd160 | .ripemd256 | .ripemd320 =>
    padZeros 64 56 n ++ leBytes 8 (BitVec.ofNat 64 (lengthBits count))
  | .sha3_224 | .sha3_256 | .sha3_384 | .sha3_512 => padSponge a.block 0x06#8 n
  | .shake128 | .shake256 => padSponge a.block 0x1F#8 n

/-- serialise(ALG, CV): every byte of it (47 R217). -/
def serialise (a : Alg) (cv : Chain) : List Byte :=
  match a with
  | .sha224 | .sha256 => (chainWords32 cv).flatMap (beBytes 4)
  | .sha384 | .sha512 => (chainWords64 cv).flatMap (beBytes 8)
  | .sha3_224 | .sha3_256 | .sha3_384 | .sha3_512 | .shake128 | .shake256 =>
    (chainWords64 cv).flatMap (leBytes 8)
  | .ripemd128 | .ripemd160 | .ripemd256 | .ripemd320 => (chainWords32 cv).flatMap (leBytes 4)

/-- Compressing each whole block of a string in order (47 R217); n bounds the number of blocks. -/
def compressBlocks (a : Alg) : Nat → Chain → List Byte → Chain
  | 0, cv, _ => cv
  | n + 1, cv, data =>
    if data.length < a.block then cv
    else compressBlocks a n (compress a cv (data.take a.block)) (data.drop a.block)

/-- final(ALG, CV, BUF, HCOUNT, OUTLEN) (47 R217): the padded data is one or two blocks. -/
def hashFinal (a : Alg) (r : HashRun) (outlen : Nat) : List Byte :=
  (serialise a (compressBlocks a 2 r.cv (r.buf ++ hashPad a r.buf.length r.count))).take outlen

/-- H(m), the digest of a whole message with its table's length (49 R270). -/
def hashAll (a : Alg) (m : List Byte) : List Byte :=
  hashFinal a (absorbBytes a (hashStart a) m) a.digestSize.toNat

end Sys2Proof.Machine
end

