-- ==== Sys2Proof/Decode.lean ====
section
/-! DEFINITION. Decoding a command word or a bus write (30 R90 to R100), total, rejecting by name, and the encoder
written from the same tables. -/

namespace Sys2Proof

/-- Bits hi down to lo of a word, as an unsigned value (00 R14). -/
def bits (w : Word) (hi lo : Nat) : Nat := w.toNat / 2 ^ lo % 2 ^ (hi + 1 - lo)

/-- A 5-bit register field whose lowest bit is lo (30 R95). -/
def regField (w : Word) (lo : Nat) : Reg := Fin.ofNat 32 (w.toNat / 2 ^ lo)

/-- rd: bits [12:8]. -/
def fieldRd (w : Word) : Reg := regField w 8

/-- ra: bits [17:13]. -/
def fieldRa (w : Word) : Reg := regField w 13

/-- rb: bits [22:18]. -/
def fieldRb (w : Word) : Reg := regField w 18

/-- rm: bits [27:23]. -/
def fieldRm (w : Word) : Reg := regField w 23

/-- imm16: bits [31:16]. -/
def fieldImm (w : Word) : BitVec 16 := BitVec.ofNat 16 (bits w 31 16)

/-- alg: bits [12:8]. -/
def fieldAlg (w : Word) : BitVec 5 := BitVec.ofNat 5 (bits w 12 8)

/-- olen: bits [19:13]. -/
def fieldOlen (w : Word) : BitVec 7 := BitVec.ofNat 7 (bits w 19 13)

/-- NEG, the modifier x[0] of SMUL: bit 28. -/
def fieldNeg (w : Word) : Bool := bits w 28 28 == 1

/-- Why a word or a write is no instruction. -/
inductive DecodeError where
  /-- bits [7:0] are no opcode of 30 R97 (30 R99). -/
  | undefinedOpcode
  /-- a field the command does not use is not 0 (30 R98). -/
  | reservedField
  /-- a host write that is no row of the opcode table: it only stores, latches or does nothing (20 R67). -/
  | plainWrite
  deriving DecidableEq, Repr

/-! The opcodes of 30 R97. -/

def Opcode.nop : Nat := 0x01
def Opcode.mov : Nat := 0x02
def Opcode.ldi : Nat := 0x03
def Opcode.cmp : Nat := 0x04
def Opcode.modadd : Nat := 0x10
def Opcode.modsub : Nat := 0x11
def Opcode.modred : Nat := 0x12
def Opcode.modmul : Nat := 0x18
def Opcode.montmul : Nat := 0x19
def Opcode.montrr : Nat := 0x1A
def Opcode.modinv : Nat := 0x1C
def Opcode.tojac : Nat := 0x20
def Opcode.fromjac : Nat := 0x21
def Opcode.pdbl : Nat := 0x22
def Opcode.padd : Nat := 0x23
def Opcode.smul : Nat := 0x24
def Opcode.oncurve : Nat := 0x25
def Opcode.isinf : Nat := 0x26
def Opcode.keygen : Nat := 0x30
def Opcode.qcheck : Nat := 0x31
def Opcode.sign : Nat := 0x32
def Opcode.verify : Nat := 0x33
def Opcode.hinit : Nat := 0x40
def Opcode.hfinal : Nat := 0x41
def Opcode.hmkey : Nat := 0x48
def Opcode.hmstart : Nat := 0x49
def Opcode.hmfinal : Nat := 0x4A

/-- The reserved fields of a command, as bit ranges that must read 0 (30 R98); then the command. -/
def checkReserved (w : Word) (ranges : List (Nat × Nat)) (i : Instr) : Except DecodeError Instr :=
  if ranges.all (fun r => bits w r.1 r.2 == 0) then .ok i else .error .reservedField

/-- Decoding a command word (30 R100). -/
def decodeCmd (w : Word) : Except DecodeError Instr :=
  let op := bits w 7 0
  let rd := fieldRd w
  let ra := fieldRa w
  let rb := fieldRb w
  let rm := fieldRm w
  if op = Opcode.nop then checkReserved w [(31, 8)] .nop
  else if op = Opcode.mov then checkReserved w [(22, 18), (27, 23), (31, 28)] (.mov rd ra)
  else if op = Opcode.ldi then checkReserved w [(15, 13)] (.ldi rd (fieldImm w))
  else if op = Opcode.cmp then checkReserved w [(12, 8), (27, 23), (31, 28)] (.cmp ra rb)
  else if op = Opcode.modadd then checkReserved w [(31, 28)] (.modadd rd ra rb rm)
  else if op = Opcode.modsub then checkReserved w [(31, 28)] (.modsub rd ra rb rm)
  else if op = Opcode.modred then checkReserved w [(22, 18), (31, 28)] (.modred rd ra rm)
  else if op = Opcode.modmul then checkReserved w [(31, 28)] (.modmul rd ra rb rm)
  else if op = Opcode.montmul then checkReserved w [(31, 28)] (.montmul rd ra rb rm)
  else if op = Opcode.montrr then checkReserved w [(17, 13), (22, 18), (31, 28)] (.montrr rd rm)
  else if op = Opcode.modinv then checkReserved w [(22, 18), (31, 28)] (.modinv rd ra rm)
  else if op = Opcode.tojac then checkReserved w [(22, 18), (27, 23), (31, 28)] (.tojac rd ra)
  else if op = Opcode.fromjac then checkReserved w [(22, 18), (27, 23), (31, 28)] (.fromjac rd ra)
  else if op = Opcode.pdbl then checkReserved w [(22, 18), (27, 23), (31, 28)] (.pdbl rd ra)
  else if op = Opcode.padd then checkReserved w [(27, 23), (31, 28)] (.padd rd ra rb)
  else if op = Opcode.smul then checkReserved w [(27, 23), (31, 29)] (.smul (fieldNeg w) rd ra rb)
  else if op = Opcode.oncurve then
    checkReserved w [(12, 8), (22, 18), (27, 23), (31, 28)] (.oncurve ra)
  else if op = Opcode.isinf then
    checkReserved w [(12, 8), (22, 18), (27, 23), (31, 28)] (.isinf ra)
  else if op = Opcode.keygen then checkReserved w [(31, 8)] .keygen
  else if op = Opcode.qcheck then checkReserved w [(31, 8)] .qcheck
  else if op = Opcode.sign then checkReserved w [(31, 8)] .sign
  else if op = Opcode.verify then checkReserved w [(31, 8)] .verify
  else if op = Opcode.hinit then checkReserved w [(31, 20)] (.hinit (fieldAlg w) (fieldOlen w))
  else if op = Opcode.hfinal then checkReserved w [(31, 8)] .hfinal
  else if op = Opcode.hmkey then checkReserved w [(31, 20), (19, 13)] (.hmkey (fieldAlg w))
  else if op = Opcode.hmstart then checkReserved w [(31, 8)] .hmstart
  else if op = Opcode.hmfinal then checkReserved w [(31, 8)] .hmfinal
  else .error .undefinedOpcode

/-- The offset of CTRL (10 R27). -/
def ctrlOffset : Nat := 0x008

/-- The offset of HASH_DIN (10 R37). -/
def hashDinOffset : Nat := 0x040

/-- The offset of HASH_DINB (10 R37). -/
def hashDinbOffset : Nat := 0x044

/-- Decoding an aligned 32-bit host write: the four bus rows of the opcode table (47 R214, R215; 70 R311; 20 R73). -/
def decodeWrite (off : Nat) (v : Word) : Except DecodeError Instr :=
  if off = hashDinOffset then .ok (.hashDin v)
  else if off = hashDinbOffset then .ok (.hashDinb (BitVec.ofNat 8 (bits v 7 0)))
  else if off = ctrlOffset then
    if bits v 0 0 = 1 then .ok .ctrlSrst
    else if bits v 1 1 = 1 then .ok .ctrlClockc
    else .error .plainWrite
  else .error .plainWrite

/-- Decoding, total on every carrier. -/
def decode : Carrier → Except DecodeError Instr
  | .cmd w => decodeCmd w
  | .write off v => decodeWrite off v

/-! ## The encoder -/

/-- A format R word (30 R91). -/
def formatR (op : Nat) (rd ra rb rm : Nat) (x : Nat) : Word :=
  BitVec.ofNat 32 (op + rd * 2 ^ 8 + ra * 2 ^ 13 + rb * 2 ^ 18 + rm * 2 ^ 23 + x * 2 ^ 28)

/-- A format L word (30 R92). -/
def formatL (op : Nat) (rd imm : Nat) : Word := BitVec.ofNat 32 (op + rd * 2 ^ 8 + imm * 2 ^ 16)

/-- A format H word (30 R93). -/
def formatH (op : Nat) (alg olen : Nat) : Word := BitVec.ofNat 32 (op + alg * 2 ^ 8 + olen * 2 ^ 13)

/-- A format N word (30 R94). -/
def formatN (op : Nat) : Word := BitVec.ofNat 32 op

/-- The encoding of an instruction: a command word, or a write at the row's offset. -/
def encode : Instr → Carrier
  | .nop => .cmd (formatN Opcode.nop)
  | .mov rd ra => .cmd (formatR Opcode.mov rd ra 0 0 0)
  | .ldi rd imm => .cmd (formatL Opcode.ldi rd imm.toNat)
  | .cmp ra rb => .cmd (formatR Opcode.cmp 0 ra rb 0 0)
  | .modadd rd ra rb rm => .cmd (formatR Opcode.modadd rd ra rb rm 0)
  | .modsub rd ra rb rm => .cmd (formatR Opcode.modsub rd ra rb rm 0)
  | .modred rd ra rm => .cmd (formatR Opcode.modred rd ra 0 rm 0)
  | .modmul rd ra rb rm => .cmd (formatR Opcode.modmul rd ra rb rm 0)
  | .montmul rd ra rb rm => .cmd (formatR Opcode.montmul rd ra rb rm 0)
  | .montrr rd rm => .cmd (formatR Opcode.montrr rd 0 0 rm 0)
  | .modinv rd ra rm => .cmd (formatR Opcode.modinv rd ra 0 rm 0)
  | .tojac rd ra => .cmd (formatR Opcode.tojac rd ra 0 0 0)
  | .fromjac rd ra => .cmd (formatR Opcode.fromjac rd ra 0 0 0)
  | .pdbl rd ra => .cmd (formatR Opcode.pdbl rd ra 0 0 0)
  | .padd rd ra rb => .cmd (formatR Opcode.padd rd ra rb 0 0)
  | .smul neg rd ra rb => .cmd (formatR Opcode.smul rd ra rb 0 neg.toNat)
  | .oncurve ra => .cmd (formatR Opcode.oncurve 0 ra 0 0 0)
  | .isinf ra => .cmd (formatR Opcode.isinf 0 ra 0 0 0)
  | .keygen => .cmd (formatN Opcode.keygen)
  | .qcheck => .cmd (formatN Opcode.qcheck)
  | .sign => .cmd (formatN Opcode.sign)
  | .verify => .cmd (formatN Opcode.verify)
  | .hinit alg olen => .cmd (formatH Opcode.hinit alg.toNat olen.toNat)
  | .hfinal => .cmd (formatN Opcode.hfinal)
  | .hmkey alg => .cmd (formatH Opcode.hmkey alg.toNat 0)
  | .hmstart => .cmd (formatN Opcode.hmstart)
  | .hmfinal => .cmd (formatN Opcode.hmfinal)
  | .hashDin v => .write hashDinOffset v
  | .hashDinb b => .write hashDinbOffset (b.setWidth 32)
  | .ctrlClockc => .write ctrlOffset 0x00000002#32
  | .ctrlSrst => .write ctrlOffset 0x00000001#32

/-- The opcode of a command, what ERRCODE.EOP records of it (60 R280); none for a bus row. -/
def Instr.opcode : Instr → Option Nat
  | .nop => some Opcode.nop
  | .mov _ _ => some Opcode.mov
  | .ldi _ _ => some Opcode.ldi
  | .cmp _ _ => some Opcode.cmp
  | .modadd _ _ _ _ => some Opcode.modadd
  | .modsub _ _ _ _ => some Opcode.modsub
  | .modred _ _ _ => some Opcode.modred
  | .modmul _ _ _ _ => some Opcode.modmul
  | .montmul _ _ _ _ => some Opcode.montmul
  | .montrr _ _ => some Opcode.montrr
  | .modinv _ _ _ => some Opcode.modinv
  | .tojac _ _ => some Opcode.tojac
  | .fromjac _ _ => some Opcode.fromjac
  | .pdbl _ _ => some Opcode.pdbl
  | .padd _ _ _ => some Opcode.padd
  | .smul _ _ _ _ => some Opcode.smul
  | .oncurve _ => some Opcode.oncurve
  | .isinf _ => some Opcode.isinf
  | .keygen => some Opcode.keygen
  | .qcheck => some Opcode.qcheck
  | .sign => some Opcode.sign
  | .verify => some Opcode.verify
  | .hinit _ _ => some Opcode.hinit
  | .hfinal => some Opcode.hfinal
  | .hmkey _ => some Opcode.hmkey
  | .hmstart => some Opcode.hmstart
  | .hmfinal => some Opcode.hmfinal
  | .hashDin _ | .hashDinb _ | .ctrlClockc | .ctrlSrst => none

/-! ## Words numbered as the opcode table numbers them -/

/-- The carrier of a table row's bits (log entry 11). A row of 32 bits is a command word (30 R90), but for HASH_DIN,
whose mask is 0: it takes the words that encode no command. A row the table gives fewer bits is a bus row: bits that
match CTRL.SRST or CTRL.CLOCKC are a CTRL write, any others a HASH_DINB write. -/
def tableCarrier (nbits w : Nat) : Carrier :=
  let v : Word := BitVec.ofNat 32 w
  if 32 ≤ nbits then
    match decodeCmd v with
    | .ok _ => .cmd v
    | .error _ => .write hashDinOffset v
  else if w % 2 = 1 ∨ w % 4 = 2 then .write ctrlOffset v
  else .write hashDinbOffset v

/-- The instruction the decoder reads from a table row's bits. -/
def decodeTableWord (nbits w : Nat) : Option Instr :=
  match decode (tableCarrier nbits w) with
  | .ok i => some i
  | .error _ => none

end Sys2Proof
end

