-- ==== Sys2Proof/Machine/Operands.lean ====
section
/-! DEFINITION. The operand forms: single registers, pairs, triples, and the words of a big register
(00 R12; 30 R95, R96; 20 R62). Each register has one home, the field br, read and written here alone. -/

namespace Sys2Proof.Machine

/-- BR[i]. -/
def State.big (s : State) (i : Reg) : Big := s.br.get i

/-- BR[i] as an unsigned integer. -/
def State.val (s : State) (i : Reg) : Nat := (s.big i).toNat

/-- BR[i] <- v. -/
def State.setBig (s : State) (i : Reg) (v : Big) : State := { s with br := s.br.set i.val v i.isLt }

/-- BR[i] <- v for an integer v in [0, 2^576) (00 R10). -/
def State.setVal (s : State) (i : Reg) (v : Nat) : State := s.setBig i (BitVec.ofNat 576 v)

/-- The k-th register of the group with base r. The range checks of 30 R96 come before any use, so the index never
wraps from BR31 to BR0. -/
def groupReg (r : Reg) (k : Nat) : Reg := Fin.ofNat 32 (r.val + k)

/-- A Jacobian triple (x, y, z) of unsigned integers (44_point.md). -/
structure Jac where
  x : Nat
  y : Nat
  z : Nat
  deriving DecidableEq, Repr

/-- INF, the triple (0, 0, 0) (00 R12). -/
def Jac.inf : Jac := ⟨0, 0, 0⟩

/-- pt(r), the triple (BR[r], BR[r+1], BR[r+2]) (00 R12, 30 R96). -/
def State.pt (s : State) (r : Reg) : Jac :=
  ⟨s.val r, s.val (groupReg r 1), s.val (groupReg r 2)⟩

/-- aff(r), the pair (BR[r], BR[r+1]) (00 R12, 30 R96). -/
def State.aff (s : State) (r : Reg) : Nat × Nat := (s.val r, s.val (groupReg r 1))

/-- (BR[r], BR[r+1], BR[r+2]) <- q. -/
def State.setPt (s : State) (r : Reg) (q : Jac) : State :=
  ((s.setVal r q.x).setVal (groupReg r 1) q.y).setVal (groupReg r 2) q.z

/-- (BR[r], BR[r+1]) <- q. -/
def State.setAff (s : State) (r : Reg) (q : Nat × Nat) : State :=
  (s.setVal r q.1).setVal (groupReg r 1) q.2

/-- The registers of a pair group. -/
def pairRegs (r : Reg) : List Reg := [r, groupReg r 1]

/-- The registers of a triple group. -/
def tripleRegs (r : Reg) : List Reg := [r, groupReg r 1, groupReg r 2]

/-! The fixed registers (10 R24, R25). -/

/-- BR0, the field modulus. -/
def regP : Reg := 0
/-- BR1, the coefficient a. -/
def regA : Reg := 1
/-- BR2, the coefficient b. -/
def regB : Reg := 2
/-- BR3, affine x of the base point G. -/
def regGX : Reg := 3
/-- BR4, affine y of G. -/
def regGY : Reg := 4
/-- BR5, the order of G. -/
def regN : Reg := 5
/-- BR6, the cofactor, which no command reads. -/
def regH : Reg := 6
/-- BR7, the private scalar. -/
def regD : Reg := 7
/-- BR8, affine x of the public point. -/
def regQX : Reg := 8
/-- BR9, affine y of the public point. -/
def regQY : Reg := 9
/-- BR10, the signing nonce. -/
def regK : Reg := 10
/-- BR11, the hash integer e of the last SIGN or VERIFY. -/
def regE : Reg := 11
/-- BR12, the signature component r. -/
def regSR : Reg := 12
/-- BR13, the signature component s. -/
def regSS : Reg := 13

/-- The curve domain parameters BR0 to BR6, the registers CURVE_LOCK protects (10 R24, 20 R74). -/
def isCurveReg (r : Reg) : Bool := r.val ≤ 6

/-! Words of a big register on the bus (20 R62). -/

/-- Bits [32j+31:32j] of v. -/
def bigWord (v : Big) (j : Fin 18) : Word := v.extractLsb' (32 * j.val) 32

/-- v with bits [32j+31:32j] replaced by w. -/
def setBigWord (v : Big) (j : Fin 18) (w : Word) : Big :=
  (v &&& ~~~((0xFFFFFFFF#576) <<< (32 * j.val))) ||| ((w.setWidth 576) <<< (32 * j.val))

/-! Bytes of a bus word (20 R61): byte b is bits [8b+7:8b]. -/

/-- Byte b of a bus word. -/
def wordByte (w : Word) (b : Nat) : Byte := w.extractLsb' (8 * b) 8

/-- The four bytes of a bus word, in address order. -/
def wordBytes (w : Word) : List Byte := [wordByte w 0, wordByte w 1, wordByte w 2, wordByte w 3]

/-- The bus word of four bytes, the first at the lowest offset. -/
def busWord (b0 b1 b2 b3 : Byte) : Word := b3 ++ b2 ++ b1 ++ b0

/-- be_int (00 R12): the unsigned integer of a big-endian byte string, 0 for the empty one. -/
def beInt (s : List Byte) : Nat := s.foldl (fun n b => n * 256 + b.toNat) 0

/-- bitlen (00 R12), with bitlen(0) = 0. -/
def bitlen (v : Nat) : Nat := if v = 0 then 0 else Nat.log2 v + 1

/-- bytelen (00 R12). -/
def bytelen (v : Nat) : Nat := (bitlen v + 7) / 8

end Sys2Proof.Machine
end

