-- ==== Sys2Proof/Machine/Flags.lean ====
section
/-! DEFINITION. Every flag computation (10 R30), and the words software reads of FLAGS and the status registers. -/

namespace Sys2Proof.Machine

/-- The value of one bit of a register word. -/
def bitAt (b : Bool) (n : Nat) : Word := BitVec.ofNat 32 (b.toNat * 2 ^ n)

/-- FLAGS as software reads it; bits [31:9] read 0 (10 R30). -/
def Flags.word (f : Flags) : Word :=
  bitAt f.eq 0 ||| bitAt f.lt 1 ||| bitAt f.gt 2 ||| bitAt f.zero 3 ||| bitAt f.inf 4 |||
    bitAt f.onc 5 ||| bitAt f.valid 6 ||| bitAt f.degen 7 ||| bitAt f.noninv 8

/-- FLAGS <- f. -/
def State.setFlags (s : State) (f : Flags) : State := { s with flags := f }

/-- EQ, LT and GT of a three-way unsigned compare, written by CMP (40 R124). -/
def State.setCompare (s : State) (a b : Nat) : State :=
  s.setFlags { s.flags with eq := decide (a = b), lt := decide (a < b), gt := decide (b < a) }

/-- ZERO <- (v = 0). -/
def State.setZero (s : State) (v : Nat) : State := s.setFlags { s.flags with zero := decide (v = 0) }

/-- INF <- (y = 0), the infinity test of 44 R160. -/
def State.setInf (s : State) (y : Nat) : State := s.setFlags { s.flags with inf := decide (y = 0) }

/-- ONC <- b. -/
def State.setOnc (s : State) (b : Bool) : State := s.setFlags { s.flags with onc := b }

/-- VALID <- b. -/
def State.setValid (s : State) (b : Bool) : State := s.setFlags { s.flags with valid := b }

/-- DEGEN <- b. -/
def State.setDegen (s : State) (b : Bool) : State := s.setFlags { s.flags with degen := b }

/-- NONINV <- b. -/
def State.setNoninv (s : State) (b : Bool) : State := s.setFlags { s.flags with noninv := b }

/-- STATUS.BUSY: 1 exactly while PENDING is full (10 R28, R41; log entry 7). -/
def State.busy (s : State) : Bool := s.pending.isSome

/-- STATUS as software reads it (10 R28). -/
def State.statusWord (s : State) : Word := bitAt s.busy 0 ||| bitAt s.done 1 ||| bitAt s.err 2

/-- CTRL as software reads it: CURVE_LOCK in bit 1, SRST reads 0 (10 R27). -/
def State.ctrlWord (s : State) : Word := bitAt s.curveLock 1

/-- IE as software reads it (10 R31). -/
def State.ieWord (s : State) : Word := bitAt s.doneIe 0 ||| bitAt s.errIe 1

/-- The interrupt line (10 R42, 60 R284). -/
def State.irq (s : State) : Bool := (s.done && s.doneIe) || (s.err && s.errIe)

end Sys2Proof.Machine
end

