-- ==== Sys2Proof/Machine/Ops.lean ====
section
/-! DEFINITION. The shared operations: raising an error (60 R283, CORE's one exception entry), the reset that leaves
the error state (70 R310, R311), latching and completing a command (20 R69, R70), and the checks every command makes
in their order (60 R285). -/

namespace Sys2Proof.Machine

/-- The error codes (60 R280). -/
inductive Err where
  | illegal
  | operand
  | locked
  | noCurve
  | divZero
  | evenMod
  | busy
  | access
  | curveMismatch
  | badKey
  | badPub
  | badNonce
  | hseq
  | badAlg
  | badLen
  deriving DecidableEq, Repr

/-- CODE, bits [7:0] of ERRCODE (60 R280). -/
def errNum : Err → BitVec 8
  | .illegal => 0x01
  | .operand => 0x02
  | .locked => 0x03
  | .noCurve => 0x04
  | .divZero => 0x05
  | .evenMod => 0x06
  | .busy => 0x07
  | .access => 0x08
  | .curveMismatch => 0x10
  | .badKey => 0x11
  | .badPub => 0x12
  | .badNonce => 0x13
  | .hseq => 0x20
  | .badAlg => 0x21
  | .badLen => 0x22

/-- ERRCODE = CODE | EOP << 8 | EOFF << 16 (10 R29, 60 R283). -/
def errWord (e : Err) (eop : BitVec 8) (eoff : BitVec 16) : Word := eoff ++ eop ++ errNum e

/-- raise (60 R283): the first error is recorded, ERR set, a pending command abandoned; nothing else changes. -/
def raise (e : Err) (eop : BitVec 8) (eoff : BitVec 16) (s : State) : State :=
  { s with
    errcode := if s.err then s.errcode else errWord e eop eoff
    err := true
    pending := none }

/-- An error of a command: EOP is its opcode, EOFF 0 (60 R280, R285). -/
def raiseCmd (op : Nat) (e : Err) (s : State) : State := raise e (BitVec.ofNat 8 op) 0 s

/-- An error of a bus access: EOP is 0xFF, EOFF bits [15:0] of the offset (60 R280). -/
def raiseBus (off : Nat) (e : Err) (s : State) : State := raise e 0xFF (BitVec.ofNat 16 off) s

/-- Every state as 10 R43: the only way out of ERR (60 R286). What is the host's or the model's own stays: the events
to come, the data of the last read, the count of free draws. -/
def coreReset (s : State) : State :=
  { State.reset with rdata := s.rdata, drawn := s.drawn, inputs := s.inputs }

/-- An accepted CMD write (20 R69): the word is latched, BUSY becomes 1, DONE 0. -/
def latch (w : Word) (s : State) : State := { s with pending := some w, done := false }

/-- The end of a command that raised no error (20 R70): BUSY 0, DONE 1, PENDING empty. -/
def complete (s : State) : State := { s with pending := none, done := true }

/-- What the common checks of 60 R285 (steps 3 to 6) have to know of a command. -/
structure Checks where
  /-- bases of pair operands (step 3) -/
  pairs : List Reg := []
  /-- bases of triple operands (step 3) -/
  triples : List Reg := []
  /-- destination registers (step 4) -/
  dests : List Reg := []
  /-- is it a curve command (steps 5 and 6) -/
  curve : Bool := false
  /-- does it also need N (step 6) -/
  order : Bool := false
  deriving DecidableEq, Repr

/-- Step 3 of 60 R285: every pair base is at most 30 and every triple base at most 29. -/
def groupsOk (c : Checks) : Bool :=
  c.pairs.all (fun r => r.val ≤ 30) && c.triples.all (fun r => r.val ≤ 29)

/-- Step 4 of 60 R285: a destination in BR0 to BR6 while the curve is locked. -/
def destLocked (c : Checks) (s : State) : Bool := s.curveLock && c.dests.any isCurveReg

/-- Steps 3 to 6 of 60 R285, in that order: the first check that fails, if any does. -/
def commonChecks (c : Checks) (s : State) : Option Err :=
  if !groupsOk c then some .operand
  else if destLocked c s then some .locked
  else if c.curve && !s.curveLock then some .noCurve
  else if c.curve && s.val regP == 0 then some .divZero
  else if c.order && s.val regN == 0 then some .divZero
  else none

/-- Performing a command after its decoding (60 R285 steps 3 to 7, 20 R70): the common checks, then the command's own
rule, whose results are written only if it raises nothing. The rule is computed from the state before the command, so
every operand is read before any result is written (00 R13). -/
def perform (op : Nat) (c : Checks) (s : State) (rule : Except Err State) : Result :=
  match commonChecks c s with
  | some e => .next (raiseCmd op e s)
  | none =>
    match rule with
    | .error e => .next (raiseCmd op e s)
    | .ok t => .next (complete t)

end Sys2Proof.Machine
end

