-- ==== Sys2Proof/Machine/Hash.lean ====
section
/-! DEFINITION. The streaming hash engine (47_hash.md): HINIT, HFINAL and the two data ports. -/

namespace Sys2Proof.Machine

/-- DIGEST <- 64 zero bytes; DLEN <- 0; DKIND <- 0 (47 R213). -/
def clearDigest (s : State) : State :=
  { s with digest := Vector.replicate 64 0, dlen := 0, dkind := .hash }

/-- DIGEST[0 .. OUTLEN-1] <- out, the rest 0; DLEN <- OUTLEN; DKIND; HSTATE <- DONE (47 R216, 49 R272). -/
def writeDigest (out : List Byte) (kind : DKind) (s : State) : State :=
  { s with
    digest := Vector.ofFn fun i => if i.val < s.outlen.toNat then out.getD i.val 0 else 0
    dlen := s.outlen
    dkind := kind
    hstate := .done }

/-- The finalisation of the session in progress (47 R217); no session, no bytes. -/
def sessionFinal (s : State) : List Byte :=
  match s.alg with
  | some a => hashFinal a s.run s.outlen.toNat
  | none => []

/-- Absorbing message bytes in the session in progress (47 R214). -/
def sessionAbsorb (bs : List Byte) (s : State) : State :=
  match s.alg with
  | some a => { s with run := absorbBytes a s.run bs }
  | none => s

/-- The state HINIT leaves for a known algorithm (47 R213); the HMAC key survives. -/
def startSession (a : Alg) (olen : BitVec 7) (s : State) : State :=
  clearDigest { s with
    run := hashStart a, alg := some a, outlen := a.outlen olen, hstate := .absorb, hmact := false }

/-- HINIT (47 R213). -/
def execHinit (alg : BitVec 5) (olen : BitVec 7) (s : State) : Result :=
  perform Opcode.hinit {} s
    (match Alg.ofCode alg with
      | none => .error .badAlg
      | some a =>
        if !a.isShake && olen != 0 then .error .illegal
        else if a.isShake && decide (Config.digestBytes < olen.toNat) then .error .badLen
        else .ok (startSession a olen s))

/-- HFINAL (47 R216). -/
def execHfinal (s : State) : Result :=
  perform Opcode.hfinal {} s
    (if s.hstate ≠ .absorb ∨ s.hmact = true then .error .hseq
      else .ok (writeDigest (sessionFinal s) .hash s))

/-- A host write to a data port (47 R214, R215), carrying the bytes bs to the port at offset off. -/
def dataPort (off : Nat) (bs : List Byte) (s : State) : State :=
  if s.busy then raiseBus off .busy s
  else if s.err then s
  else if s.hstate ≠ .absorb then raiseBus off .hseq s
  else sessionAbsorb bs s

/-- A HASH_DIN write (47 R214): four bytes, the least significant first. -/
def execHashDin (data : Word) (s : State) : Result := .next (dataPort hashDinOffset (wordBytes data) s)

/-- A HASH_DINB write (47 R215): one byte. -/
def execHashDinb (data : Byte) (s : State) : Result := .next (dataPort hashDinbOffset [data] s)

end Sys2Proof.Machine
end

