-- ==== Sys2Proof/Machine/Bus.lean ====
section
/-! DEFINITION. The register window (20_memory.md): its map, what a host read returns, what a host write does, and the
two CTRL writes the opcode table lists. -/

namespace Sys2Proof.Machine

/-- What stands at a word-aligned offset of the window (20 R60). -/
inductive Region where
  | id
  | version
  | ctrl
  | status
  | errcode
  | flags
  | ie
  | cmd
  | curveId
  | dtag
  | qtag
  | hstat
  | dlen
  | hcountLo
  | hcountHi
  | hashDin
  | hashDinb
  | klen
  /-- word k of DIGEST -/
  | digest (k : Fin 16)
  /-- word k of KEYBUF -/
  | keybuf (k : Fin 64)
  /-- word j of BR[i] -/
  | big (i : Reg) (j : Fin 18)
  | reserved
  deriving DecidableEq, Repr

/-- The BR window (20 R62, R63): word j of stride i, words 18 to 31 reserved. -/
def bigRegion (off : Nat) : Region :=
  let j := off % 0x80 / 4
  if h : j < 18 then .big (Fin.ofNat 32 ((off - 0x1000) / 0x80)) ⟨j, h⟩ else .reserved

/-- The address map (20 R60). -/
def regionOf (off : Nat) : Region :=
  if off = 0x000 then .id
  else if off = 0x004 then .version
  else if off = 0x008 then .ctrl
  else if off = 0x00C then .status
  else if off = 0x010 then .errcode
  else if off = 0x014 then .flags
  else if off = 0x018 then .ie
  else if off = 0x01C then .cmd
  else if off = 0x020 then .curveId
  else if off = 0x024 then .dtag
  else if off = 0x028 then .qtag
  else if off = 0x030 then .hstat
  else if off = 0x034 then .dlen
  else if off = 0x038 then .hcountLo
  else if off = 0x03C then .hcountHi
  else if off = 0x040 then .hashDin
  else if off = 0x044 then .hashDinb
  else if off = 0x048 then .klen
  else if 0x100 ≤ off ∧ off < 0x140 then .digest (Fin.ofNat 16 ((off - 0x100) / 4))
  else if 0x200 ≤ off ∧ off < 0x300 then .keybuf (Fin.ofNat 64 ((off - 0x200) / 4))
  else if 0x1000 ≤ off ∧ off < 0x2000 then bigRegion off
  else .reserved

/-- The two bits of HSTATE (10 R34). -/
def hstateNum : HState → Nat
  | .idle => 0
  | .absorb => 1
  | .done => 2

/-- DKIND as a bit (10 R34). -/
def dkindBit : DKind → Bool
  | .hash => false
  | .mac => true

/-- HSTAT as software reads it (10 R34). -/
def State.hstatWord (s : State) : Word :=
  BitVec.ofNat 32 (hstateNum s.hstate) ||| bitAt s.hmact 2 ||| bitAt s.hkv 3 ||| bitAt (dkindBit s.dkind) 4 |||
    ((Alg.codeOf s.alg).setWidth 32 <<< 8) ||| ((Alg.codeOf s.halg).setWidth 32 <<< 16) |||
    (s.outlen.setWidth 32 <<< 24)

/-- Byte i of DIGEST, 0 past its end. -/
def State.digestByte (s : State) (i : Nat) : Byte := s.digest.toList.getD i 0

/-- Byte i of KEYBUF, 0 past its end. -/
def State.keybufByte (s : State) (i : Nat) : Byte := s.keybuf.toList.getD i 0

/-- Word k of DIGEST, little-endian (10 R39, 20 R61). -/
def State.digestWord (s : State) (k : Nat) : Word :=
  busWord (s.digestByte (4 * k)) (s.digestByte (4 * k + 1)) (s.digestByte (4 * k + 2)) (s.digestByte (4 * k + 3))

/-- Word k of KEYBUF, little-endian (10 R40, 20 R61). -/
def State.keybufWord (s : State) (k : Nat) : Word :=
  busWord (s.keybufByte (4 * k)) (s.keybufByte (4 * k + 1)) (s.keybufByte (4 * k + 2)) (s.keybufByte (4 * k + 3))

/-- KEYBUF with word k replaced by v. -/
def State.setKeybufWord (s : State) (k : Nat) (v : Word) : State :=
  { s with keybuf := Vector.ofFn fun i => if i.val / 4 = k then wordByte v (i.val % 4) else s.keybuf.get i }

/-- The value of a region while BUSY = 0 (10 R27 to R40, 20 R62, R63, R66): write-only and reserved offsets read 0. -/
def regionValue (r : Region) (s : State) : Word :=
  match r with
  | .id => Config.idWord
  | .version => Config.versionWord
  | .ctrl => s.ctrlWord
  | .status => s.statusWord
  | .errcode => s.errcode
  | .flags => s.flags.word
  | .ie => s.ieWord
  | .cmd | .hashDin | .hashDinb | .reserved => 0
  | .curveId => s.curveId.setWidth 32
  | .dtag => s.dtag.setWidth 32
  | .qtag => s.qtag.setWidth 32
  | .hstat => s.hstatWord
  | .dlen => s.dlen.setWidth 32
  | .hcountLo => s.run.count.extractLsb' 0 32
  | .hcountHi => s.run.count.extractLsb' 32 32
  | .klen => s.klen.setWidth 32
  | .digest k => s.digestWord k.val
  | .keybuf k => s.keybufWord k.val
  | .big i j => bigWord (s.big i) j

/-- While BUSY = 1, does a read of the region return its defined value (20 R72)? -/
def readableWhileBusy : Region → Bool
  | .id | .version | .ctrl | .status | .ie | .cmd => true
  | .errcode | .flags | .curveId | .dtag | .qtag | .hstat | .dlen | .hcountLo | .hcountHi => false
  | .hashDin | .hashDinb | .klen | .digest _ | .keybuf _ | .big _ _ | .reserved => false

/-- An aligned 32-bit host read (20 R67, R72): the word goes to rdata, and nothing else of CORE changes. While BUSY = 1
most offsets return the free value of log entry 3. -/
def hostRead (off : Nat) (s : State) : State :=
  let r := regionOf off
  if !s.busy || readableWhileBusy r then { s with rdata := regionValue r s }
  else if r = .errcode then { s with rdata := 0 }
  else { s with rdata := Config.unspecifiedRead s.drawn, drawn := s.drawn + 1 }

/-- A write refused while CURVE_LOCK = 1 (20 R74). -/
def ifUnlocked (off : Nat) (t : State) (s : State) : State :=
  if s.curveLock then raiseBus off .locked s else t

/-- A write to a region that stores while BUSY = 0 and ERR = 0: CMD latches (20 R69), the others store their defined
bits (10 R33, R38, R40; 20 R62), the curve registers only while unlocked (20 R74). -/
def storeRegion (off : Nat) (r : Region) (v : Word) (s : State) : State :=
  match r with
  | .cmd => latch v s
  | .curveId => ifUnlocked off { s with curveId := v.setWidth 8 } s
  | .dtag => { s with dtag := v.setWidth 8 }
  | .qtag => { s with qtag := v.setWidth 8 }
  | .klen => { s with klen := v.setWidth 9 }
  | .keybuf k => s.setKeybufWord k.val v
  | .big i j =>
    let t := s.setBig i (setBigWord (s.big i) j v)
    if isCurveReg i then ifUnlocked off t s else t
  | .id | .version | .ctrl | .status | .errcode | .flags | .ie => s
  | .hstat | .dlen | .hcountLo | .hcountHi | .hashDin | .hashDinb | .digest _ | .reserved => s

/-- Is the region one whose writes store, so that a write while BUSY = 1 raises E_BUSY (20 R71)? -/
def storesOnWrite : Region → Bool
  | .cmd | .curveId | .dtag | .qtag | .klen | .keybuf _ | .big _ _ => true
  | .id | .version | .ctrl | .status | .errcode | .flags | .ie | .hstat | .dlen | .hcountLo | .hcountHi => false
  | .hashDin | .hashDinb | .digest _ | .reserved => false

/-- An aligned 32-bit host write that is no row of the opcode table (20 R66 to R75). STATUS and IE act at every time;
a CTRL write with SRST = CLOCKC = 0 and a write to a read-only or reserved offset have no effect. -/
def hostStore (off : Nat) (v : Word) (s : State) : State :=
  let r := regionOf off
  if r = .status then (if v.getLsbD 1 then { s with done := false } else s)
  else if r = .ie then { s with doneIe := v.getLsbD 0, errIe := v.getLsbD 1 }
  else if storesOnWrite r then
    if s.busy then raiseBus off .busy s
    else if s.err then s
    else storeRegion off r v s
  else s

/-- A host access that is not a 32-bit access at a multiple of 4 (20 R65); while ERR = 1 it changes nothing (60 R283). -/
def accessError (off : Nat) (s : State) : State := if s.err then s else raiseBus off .access s

/-- Is the access a 32-bit access at a multiple of 4 (20 R65)? -/
def wellShaped (off bytes : Nat) : Bool := bytes == 4 && off % 4 == 0

/-- A CTRL write with CLOCKC = 1 and SRST = 0: the curve lock (20 R73, R71, R75; 70 R311). -/
def execCtrlClockc (s : State) : Result :=
  if s.err then .next s
  else if s.busy then .next (raiseBus ctrlOffset .busy s)
  else .next { s with curveLock := true }

/-- A CTRL write with SRST = 1: the soft reset, accepted in every state (70 R311). -/
def execCtrlSrst (s : State) : Result := .next (coreReset s)

end Sys2Proof.Machine
end

