-- ==== Sys2Proof/Machine/Arith.lean ====
section
/-! DEFINITION. Exact integer arithmetic and its reductions: the floored remainder (00 R11), the modular inverse
(43 R150, R152), the Montgomery product (41 R131). -/

namespace Sys2Proof.Machine

/-- x mod m, the floored remainder of an integer that may be negative (00 R11); the callers have m > 0. -/
def imod (x : Int) (m : Nat) : Nat := (x % (m : Int)).toNat

/-- The extended Euclidean loop (43 R152), which keeps lm * x ≡ low (mod n); none when a remainder reaches 0 first.
The fuel bounds the passes. -/
def euclidLoop : Nat → Int → Int → Nat → Nat → Option Int
  | 0, _, _, _, _ => none
  | fuel + 1, lm, hm, low, high =>
    if 1 < low then euclidLoop fuel (hm - lm * ((high / low : Nat) : Int)) lm (high % low) low
    else if low = 0 then none
    else some lm

/-- Passes enough for the loop on a modulus n: each pass halves low * high. -/
def euclidFuel (n : Nat) : Nat := 2 * Nat.log2 n + 4

/-- inv (43 R150): the inverse of x modulo n > 0 and whether it is missing. It is 0 for x ≡ 0, the defined degenerate
case, and 0 with noninv = true when gcd(x, n) ≠ 1. -/
def inv (x n : Nat) : Nat × Bool :=
  let x0 := x % n
  if x0 = 0 then (0, false)
  else if Nat.gcd x0 n ≠ 1 then (0, true)
  else
    match euclidLoop (euclidFuel n) 1 0 x0 n with
    | some lm => (imod lm n, false)
    | none => (0, true)

/-- The Montgomery product with radix r (41 R131): the v in [0, m) with v * r ≡ a * b (mod m), for odd m and r a power
of two. -/
def montgomery (r a b m : Nat) : Nat := a * b * (inv r m).1 % m

end Sys2Proof.Machine
end

