-- ==== Sys2Proof/Machine/Curve.lean ====
section
/-! DEFINITION. Point arithmetic on y² = x³ + a·x + b mod p: the functions of 44_point.md and 45_scalar.md. Inputs are
raw register values; every arithmetic result is reduced mod p (44 R161). -/

namespace Sys2Proof.Machine

/-- tojac (44 R162): (x, y) lifted to (x, y, 1), unreduced. -/
def tojac (q : Nat × Nat) : Jac := ⟨q.1, q.2, 1⟩

/-- fromjac (44 R163), with zi = inv(Z, P). -/
def fromjac (p : Nat) (q : Jac) : Nat × Nat :=
  let zi : Nat := (inv q.z p).1
  (q.x * zi * zi % p, q.y * zi * zi * zi % p)

/-- jdbl (44 R164). -/
def jdbl (p a : Nat) (q : Jac) : Jac :=
  if q.y = 0 then Jac.inf
  else
    let ysq : Nat := q.y * q.y % p
    let s : Nat := 4 * q.x * ysq % p
    let m : Nat := (3 * q.x * q.x + a * q.z ^ 4) % p
    let x3 : Nat := imod ((m : Int) * m - 2 * s) p
    let y3 : Nat := imod ((m : Int) * ((s : Int) - x3) - 8 * ysq * ysq) p
    let z3 : Nat := 2 * q.y * q.z % p
    ⟨x3, y3, z3⟩

/-- jadd (44 R165). -/
def jadd (p a : Nat) (q1 q2 : Jac) : Jac :=
  if q1.y = 0 then q2
  else if q2.y = 0 then q1
  else
    let u1 : Nat := q1.x * q2.z * q2.z % p
    let u2 : Nat := q2.x * q1.z * q1.z % p
    let s1 : Nat := q1.y * q2.z * q2.z * q2.z % p
    let s2 : Nat := q2.y * q1.z * q1.z * q1.z % p
    if u1 = u2 then
      if s1 = s2 then jdbl p a q1 else Jac.inf
    else
      let hh : Int := (u2 : Int) - u1
      let rr : Int := (s2 : Int) - s1
      let h2 : Nat := imod (hh * hh) p
      let h3 : Nat := imod (hh * h2) p
      let u1h2 : Nat := u1 * h2 % p
      let x3 : Nat := imod (rr * rr - h3 - 2 * u1h2) p
      let y3 : Nat := imod (rr * ((u1h2 : Int) - x3) - s1 * h3) p
      let z3 : Nat := imod (hh * q1.z * q2.z) p
      ⟨x3, y3, z3⟩

/-- oncurve (44 R166): the range check, then the curve equation. -/
def oncurve (p a b : Nat) (x y : Nat) : Bool :=
  if p ≤ x || p ≤ y then false
  else imod ((y : Int) * y - (x * x * x + a * x + b)) p == 0

/-- The halving steps of mul (45 R180) on a scalar k in [0, N), one level of recursion for each of its bits. -/
def ladder (p a : Nat) (q : Jac) : Nat → Nat → Jac
  | 0, _ => Jac.inf
  | fuel + 1, k =>
    if k = 0 then Jac.inf
    else if k = 1 then q
    else
      let h := jdbl p a (ladder p a q fuel (k / 2))
      if k % 2 = 0 then h else jadd p a h q

/-- mul (45 R180): scalar multiplication of the triple q by an integer k, which may be negative. -/
def mul (p a n : Nat) (q : Jac) (k : Int) : Jac :=
  if k = 0 ∨ q.y = 0 then Jac.inf
  else if k = 1 then q
  else
    let r := if k < 0 ∨ (n : Int) ≤ k then imod k n else k.toNat
    ladder p a q (bitlen r + 1) r

end Sys2Proof.Machine
end

