-- ==== Sys2Proof/Machine/Ecdsa.lean ====
section
/-! DEFINITION. The ECDSA datapath KEYGEN, QCHECK, SIGN, VERIFY (46_ecdsa.md), over the fixed registers of 10 R24
and R25. -/

namespace Sys2Proof.Machine

/-- inrange(v) for the order n (46 R190). -/
def inRange (n v : Nat) : Bool := 1 ≤ v && v ≤ n - 1

/-- The base point G as an affine pair. -/
def State.basePt (s : State) : Nat × Nat := (s.val regGX, s.val regGY)

/-- The public point Q as an affine pair. -/
def State.pubPt (s : State) : Nat × Nat := (s.val regQX, s.val regQY)

/-- k times an affine point of the configured curve, as a Jacobian triple. -/
def State.mulPt (s : State) (q : Nat × Nat) (k : Nat) : Jac :=
  mul (s.val regP) (s.val regA) (s.val regN) (tojac q) k

/-- mulG(k) (46 R190), affine. -/
def State.mulG (s : State) (k : Nat) : Nat × Nat := fromjac (s.val regP) (s.mulPt s.basePt k)

/-- oncurve of the configured curve. -/
def State.pubOnCurve (s : State) : Bool :=
  oncurve (s.val regP) (s.val regA) (s.val regB) s.pubPt.1 s.pubPt.2

/-- The hash integer e, once a finished hash digest is there (46 R192). -/
def State.hashInt (s : State) : Nat :=
  beInt (s.digest.toList.take (min s.dlen.toNat (bytelen (s.val regN))))

/-- digest_e()'s check (46 R192): a finished hash digest, not an HMAC tag. -/
def State.digestReady (s : State) : Bool := s.hstate == .done && s.dkind == .hash

/-- QX, QY <- q; QTAG <- tag; INF <- (y of q = 0) (46 R193). -/
def setPublic (q : Nat × Nat) (tag : Byte) (s : State) : State :=
  let t := ((s.setVal regQX q.1).setVal regQY q.2).setInf q.2
  { t with qtag := tag }

/-- KEYGEN (46 R193). -/
def execKeygen (s : State) : Result :=
  perform Opcode.keygen { dests := [regQX, regQY], curve := true, order := true } s
    (if s.dtag ≠ s.curveId then .error .curveMismatch
      else if !inRange (s.val regN) (s.val regD) then .error .badKey
      else
        let q := s.mulG (s.val regD)
        .ok (setPublic q s.curveId s))

/-- QCHECK (46 R194): it reads no N. -/
def execQcheck (s : State) : Result :=
  perform Opcode.qcheck { curve := true } s
    (if s.qtag ≠ s.curveId then .error .curveMismatch
      else if s.val regQY == 0 || !s.pubOnCurve then .error .badPub
      else .ok s)

/-- The signature (r, s) of 46 R195 for the private scalar d, the nonce k and the hash integer e. -/
def State.signature (s : State) (d k e : Nat) : Nat × Nat :=
  let n := s.val regN
  let r := (s.mulG k).1 % n
  (r, (inv k n).1 * (e + r * d) % n)

/-- SIGN (46 R195). -/
def execSign (s : State) : Result :=
  perform Opcode.sign { dests := [regE, regSR, regSS], curve := true, order := true } s
    (if s.dtag ≠ s.curveId then .error .curveMismatch
      else if !inRange (s.val regN) (s.val regD) then .error .badKey
      else if !inRange (s.val regN) (s.val regK) then .error .badNonce
      else if !s.digestReady then .error .hseq
      else
        let e := s.hashInt
        let g := s.signature (s.val regD) (s.val regK) e
        .ok ((((s.setVal regE e).setVal regSR g.1).setVal regSS g.2).setDegen
          (decide (g.1 = 0 ∨ g.2 = 0))))

/-- Steps 3 and 5 to 9 of VERIFY (46 R196) for the hash integer e. -/
def State.signatureValid (s : State) (e : Nat) : Bool :=
  let n := s.val regN
  let r := s.val regSR
  let t := s.val regSS
  if !inRange n r || !inRange n t then false
  else
    let w := (inv t n).1
    let v := fromjac (s.val regP)
      (jadd (s.val regP) (s.val regA) (s.mulPt s.basePt (e * w % n)) (s.mulPt s.pubPt (r * w % n)))
    v.2 != 0 && v.1 % n == r

/-- VERIFY (46 R196). -/
def execVerify (s : State) : Result :=
  perform Opcode.verify { dests := [regE], curve := true, order := true } s
    (if s.qtag ≠ s.curveId then .error .curveMismatch
      else if !s.pubOnCurve then .error .badPub
      else if !s.digestReady then .error .hseq
      else
        let e := s.hashInt
        .ok ((s.setVal regE e).setValid (s.signatureValid e)))

end Sys2Proof.Machine
end

