-- ==== Sys2Proof/Machine/Hmac.lean ====
section
/-! DEFINITION. The HMAC sequencer (49_hmac.md): HMKEY, HMSTART, HMFINAL. -/

namespace Sys2Proof.Machine

/-- K0 (49 R270): the key, hashed first when it is longer than the block, then zero bytes up to the block. -/
def hmacK0 (a : Alg) (key : List Byte) : List Byte :=
  let k := if a.block < key.length then hashAll a key else key
  k ++ List.replicate (a.block - k.length) 0

/-- Each byte of a key XORed with a pad byte. -/
def xorPad (pad : Byte) (k : List Byte) : List Byte := k.map fun b => b ^^^ pad

/-- The state HMKEY leaves (49 R270): the HmacKey is set, the session in progress abandoned. -/
def setHmacKey (a : Alg) (s : State) : State :=
  let k0 := hmacK0 a (s.keybuf.toList.take s.klen.toNat)
  clearDigest { s with
    ipk := xorPad 0x36#8 k0
    opk := xorPad 0x5C#8 k0
    halg := some a
    hkv := true
    hstate := .idle
    hmact := false
    alg := none
    outlen := 0
    run := { s.run with count := 0 } }

/-- HMKEY (49 R270). -/
def execHmkey (alg : BitVec 5) (s : State) : Result :=
  perform Opcode.hmkey {} s
    (match Alg.ofCode alg with
      | none => .error .badAlg
      | some a =>
        if a.isShake then .error .badAlg
        else if Config.keybufBytes < s.klen.toNat then .error .badLen
        else .ok (setHmacKey a s))

/-- The state HMSTART leaves for the algorithm of the HmacKey (49 R271). -/
def startInner (a : Alg) (s : State) : State :=
  clearDigest { s with
    run := absorbBytes a (hashStart a) s.ipk
    alg := some a
    outlen := a.digestSize
    hstate := .absorb
    hmact := true }

/-- HMSTART (49 R271). HKV = 1 with no algorithm is a state no run reaches (log entry 15); it counts as no key. -/
def execHmstart (s : State) : Result :=
  perform Opcode.hmstart {} s
    (if s.hkv = false then .error .hseq
      else
        match s.halg with
        | some a => .ok (startInner a s)
        | none => .error .hseq)

/-- The state HMFINAL leaves for the algorithm a of the key (49 R272): the outer hash of OPK ‖ inner, then the tag.
DEDUCED: HCOUNT is then bs + ds for every algorithm, 84 for RIPEMD-160, as the pseudocode of R272 has it; the 156 of its
corner cases is not followed (log entry 19). CV and BUF stay as they are before the last padded block (log entry 8). -/
def finishMac (a : Alg) (s : State) : State :=
  let run' := absorbBytes a (hashStart a) (s.opk ++ sessionFinal s)
  let tag := hashFinal a run' s.outlen.toNat
  writeDigest tag .mac { s with run := run', hmact := false }

/-- HMFINAL (49 R272). An HMAC session with no key algorithm is a state no run reaches (log entry 15). -/
def execHmfinal (s : State) : Result :=
  perform Opcode.hmfinal {} s
    (if s.hstate ≠ .absorb ∨ s.hmact = false then .error .hseq
      else
        match s.halg with
        | some a => .ok (finishMac a s)
        | none => .error .hseq)

end Sys2Proof.Machine
end

