-- ==== Sys2Proof/Machine/Support.lean ====
section
/-! DEFINITION. The support commands NOP, MOV, LDI, CMP (40_support.md). -/

namespace Sys2Proof.Machine

/-- BR[rd] <- v and ZERO <- (v = 0), the way every single-register result is written (10 R30). -/
def writeResult (rd : Reg) (v : Nat) (s : State) : State := (s.setVal rd v).setZero v

/-- NOP (40 R121). -/
def execNop (s : State) : Result := perform Opcode.nop {} s (.ok s)

/-- MOV (40 R122). -/
def execMov (rd ra : Reg) (s : State) : Result :=
  perform Opcode.mov { dests := [rd] } s (.ok (writeResult rd (s.val ra) s))

/-- LDI (40 R123): the immediate is zero-extended. -/
def execLdi (rd : Reg) (imm : BitVec 16) (s : State) : Result :=
  perform Opcode.ldi { dests := [rd] } s (.ok (writeResult rd imm.toNat s))

/-- CMP (40 R124). -/
def execCmp (ra rb : Reg) (s : State) : Result :=
  perform Opcode.cmp {} s (.ok (s.setCompare (s.val ra) (s.val rb)))

end Sys2Proof.Machine
end

