-- ==== Sys2Proof/Machine/Modular.lean ====
section
/-! DEFINITION. The modular adder/subtractor (42_modadd.md), the modular multiplier (41_montgomery.md) and the modular
inverse engine (43_modinv.md). -/

namespace Sys2Proof.Machine

/-- The rule every modular command shares: a modulus of 0 raises E_DIVZERO, else the result v is written. -/
def modularRule (rd rm : Reg) (v : Nat) (s : State) : Except Err State :=
  if s.val rm = 0 then .error .divZero else .ok (writeResult rd v s)

/-- MODADD (42 R140). -/
def execModadd (rd ra rb rm : Reg) (s : State) : Result :=
  perform Opcode.modadd { dests := [rd] } s
    (modularRule rd rm ((s.val ra + s.val rb) % s.val rm) s)

/-- MODSUB (42 R141): the exact signed difference, reduced by the floored remainder. -/
def execModsub (rd ra rb rm : Reg) (s : State) : Result :=
  perform Opcode.modsub { dests := [rd] } s
    (modularRule rd rm (imod ((s.val ra : Int) - s.val rb) (s.val rm)) s)

/-- MODRED (42 R142). -/
def execModred (rd ra rm : Reg) (s : State) : Result :=
  perform Opcode.modred { dests := [rd] } s (modularRule rd rm (s.val ra % s.val rm) s)

/-- MODMUL (41 R130). -/
def execModmul (rd ra rb rm : Reg) (s : State) : Result :=
  perform Opcode.modmul { dests := [rd] } s
    (modularRule rd rm (s.val ra * s.val rb % s.val rm) s)

/-- MONTMUL (41 R131): m = 0 is reported before an even m. -/
def execMontmul (rd ra rb rm : Reg) (s : State) : Result :=
  perform Opcode.montmul { dests := [rd] } s
    (if s.val rm = 0 then .error .divZero
      else if s.val rm % 2 = 0 then .error .evenMod
      else .ok (writeResult rd (montgomery Config.montR (s.val ra) (s.val rb) (s.val rm)) s))

/-- MONTRR (41 R132): R² mod m, for every m > 0. -/
def execMontrr (rd rm : Reg) (s : State) : Result :=
  perform Opcode.montrr { dests := [rd] } s
    (modularRule rd rm (Config.montR * Config.montR % s.val rm) s)

/-- MODINV (43 R151). -/
def execModinv (rd ra rm : Reg) (s : State) : Result :=
  perform Opcode.modinv { dests := [rd] } s
    (if s.val rm = 0 then .error .divZero
      else
        let r := inv (s.val ra) (s.val rm)
        .ok ((writeResult rd r.1 s).setNoninv r.2))

end Sys2Proof.Machine
end

