-- ==== Sys2Proof/Machine/Point.lean ====
section
/-! DEFINITION. The Jacobian point unit (44_point.md) and the scalar multiplier (45_scalar.md). -/

namespace Sys2Proof.Machine

/-- Writing a triple, and INF <- (its Y = 0) (44 R161). -/
def writePt (rd : Reg) (q : Jac) (s : State) : State := (s.setPt rd q).setInf q.y

/-- Writing a pair, and INF <- (its Y = 0) (44 R161). -/
def writeAff (rd : Reg) (q : Nat × Nat) (s : State) : State := (s.setAff rd q).setInf q.2

/-- TOJAC (44 R162): no curve command. -/
def execTojac (rd ra : Reg) (s : State) : Result :=
  perform Opcode.tojac { pairs := [ra], triples := [rd], dests := tripleRegs rd } s
    (.ok (writePt rd (tojac (s.aff ra)) s))

/-- FROMJAC (44 R163). -/
def execFromjac (rd ra : Reg) (s : State) : Result :=
  perform Opcode.fromjac { pairs := [rd], triples := [ra], dests := pairRegs rd, curve := true } s
    (.ok (writeAff rd (fromjac (s.val regP) (s.pt ra)) s))

/-- PDBL (44 R164). -/
def execPdbl (rd ra : Reg) (s : State) : Result :=
  perform Opcode.pdbl { triples := [rd, ra], dests := tripleRegs rd, curve := true } s
    (.ok (writePt rd (jdbl (s.val regP) (s.val regA) (s.pt ra)) s))

/-- PADD (44 R165). -/
def execPadd (rd ra rb : Reg) (s : State) : Result :=
  perform Opcode.padd { triples := [rd, ra, rb], dests := tripleRegs rd, curve := true } s
    (.ok (writePt rd (jadd (s.val regP) (s.val regA) (s.pt ra) (s.pt rb)) s))

/-- The scalar of SMUL: BR[rb], or -BR[rb] under NEG (45 R180). -/
def smulScalar (neg : Bool) (v : Nat) : Int := if neg then -(v : Int) else v

/-- SMUL and SMUL.NEG (45 R180). -/
def execSmul (neg : Bool) (rd ra rb : Reg) (s : State) : Result :=
  perform Opcode.smul { triples := [rd, ra], dests := tripleRegs rd, curve := true, order := true } s
    (.ok (writePt rd
      (mul (s.val regP) (s.val regA) (s.val regN) (s.pt ra) (smulScalar neg (s.val rb))) s))

/-- ONCURVE (44 R166). -/
def execOncurve (ra : Reg) (s : State) : Result :=
  perform Opcode.oncurve { pairs := [ra], curve := true } s
    (.ok (s.setOnc (oncurve (s.val regP) (s.val regA) (s.val regB) (s.aff ra).1 (s.aff ra).2)))

/-- ISINF (44 R167): no curve command. -/
def execIsinf (ra : Reg) (s : State) : Result :=
  perform Opcode.isinf { pairs := [ra] } s (.ok (s.setInf (s.aff ra).2))

end Sys2Proof.Machine
end

