-- ==== Sys2Proof/Machine/Dispatch.lean ====
section
/-! DEFINITION. The meaning of every instruction, one arm per constructor. -/

namespace Sys2Proof.Machine

def exec (i : Instr) (s : State) : Host.Outcome State Fault Refusal :=
  match i with
  | .nop => Sys2Proof.Machine.execNop s
  | .mov rd ra => Sys2Proof.Machine.execMov rd ra s
  | .ldi rd imm => Sys2Proof.Machine.execLdi rd imm s
  | .cmp ra rb => Sys2Proof.Machine.execCmp ra rb s
  | .modadd rd ra rb rm => Sys2Proof.Machine.execModadd rd ra rb rm s
  | .modsub rd ra rb rm => Sys2Proof.Machine.execModsub rd ra rb rm s
  | .modred rd ra rm => Sys2Proof.Machine.execModred rd ra rm s
  | .modmul rd ra rb rm => Sys2Proof.Machine.execModmul rd ra rb rm s
  | .montmul rd ra rb rm => Sys2Proof.Machine.execMontmul rd ra rb rm s
  | .montrr rd rm => Sys2Proof.Machine.execMontrr rd rm s
  | .modinv rd ra rm => Sys2Proof.Machine.execModinv rd ra rm s
  | .tojac rd ra => Sys2Proof.Machine.execTojac rd ra s
  | .fromjac rd ra => Sys2Proof.Machine.execFromjac rd ra s
  | .pdbl rd ra => Sys2Proof.Machine.execPdbl rd ra s
  | .padd rd ra rb => Sys2Proof.Machine.execPadd rd ra rb s
  | .smul neg rd ra rb => Sys2Proof.Machine.execSmul neg rd ra rb s
  | .oncurve ra => Sys2Proof.Machine.execOncurve ra s
  | .isinf ra => Sys2Proof.Machine.execIsinf ra s
  | .keygen => Sys2Proof.Machine.execKeygen s
  | .qcheck => Sys2Proof.Machine.execQcheck s
  | .sign => Sys2Proof.Machine.execSign s
  | .verify => Sys2Proof.Machine.execVerify s
  | .hinit alg olen => Sys2Proof.Machine.execHinit alg olen s
  | .hfinal => Sys2Proof.Machine.execHfinal s
  | .hmkey alg => Sys2Proof.Machine.execHmkey alg s
  | .hmstart => Sys2Proof.Machine.execHmstart s
  | .hmfinal => Sys2Proof.Machine.execHmfinal s
  | .hashDin data => Sys2Proof.Machine.execHashDin data s
  | .hashDinb data => Sys2Proof.Machine.execHashDinb data s
  | .ctrlClockc => Sys2Proof.Machine.execCtrlClockc s
  | .ctrlSrst => Sys2Proof.Machine.execCtrlSrst s

end Sys2Proof.Machine
end

