-- ==== Sys2Proof/Machine/Engine.lean ====
section
/-! DEFINITION. The two agents (00 R16): the engine's step (20 R70, 60 R285) and a host access (20_memory.md). -/

namespace Sys2Proof.Machine

/-- The engine's step: it decodes PENDING and performs the command, or raises E_ILLEGAL for a word that is none
(60 R285 steps 1 and 2). With nothing latched it has no step and CORE keeps its state (00 R16, 60 R294). -/
def engineStep (s : State) : Result :=
  match s.pending with
  | none => .next s
  | some w =>
    match decode (.cmd w) with
    | .ok i => exec i s
    | .error _ => .next (raiseCmd (bits w 7 0) .illegal s)

/-- An aligned 32-bit host write: a row of the opcode table, or a plain store. -/
def hostWrite (off : Nat) (v : Word) (s : State) : Result :=
  match decode (.write off v) with
  | .ok i => exec i s
  | .error _ => .next (hostStore off v s)

/-- One host access. Outside the window it is no access to CORE (log entry 6); of the wrong shape it raises E_ACCESS
and a read returns 0 (20 R65), before anything else is looked at (log entry 5). -/
def hostAccess (a : Access) (s : State) : Result :=
  match a with
  | .read off bytes =>
    if Config.window ≤ off then .fault (.outsideWindow off)
    else if wellShaped off bytes then .next (hostRead off s)
    else .next { accessError off s with rdata := 0 }
  | .write off bytes v =>
    if Config.window ≤ off then .fault (.outsideWindow off)
    else if wellShaped off bytes then hostWrite off v s
    else .next (accessError off s)

/-- One event (00 R16, 70 R310). -/
def takeEvent (e : Event) (s : State) : Result :=
  match e with
  | .host a => hostAccess a s
  | .engine => engineStep s
  | .reset => .next (coreReset s)

/-- The first event, if there is one, is taken and leaves the list. With none to come only the engine can step, so a
latched command is performed (70 R332; log entry 4). -/
def nextEvent (s : State) : Result :=
  match s.inputs with
  | [] => engineStep s
  | e :: rest => takeEvent e { s with inputs := rest }

/-- The state whose next step performs the instruction of a carrier: a command word is latched as an accepted CMD write
latches it and the engine has its turn; a bus write is the host's next access (log entry 10). -/
def withCarrier (s : State) : Carrier → State
  | .cmd w => { latch w s with inputs := .engine :: s.inputs }
  | .write off v => { s with inputs := .host (.write off 4 v) :: s.inputs }

end Sys2Proof.Machine
end

