-- ==== Sys2Proof/Machine/Step.lean ====
section
/-! DEFINITION. One step of CORE and its host, and the placing of an instruction for the next step. -/

namespace Sys2Proof.Machine

/-- One step: one host access, one engine step, or a reset. -/
def step (s : State) : Host.Outcome State Fault Refusal := nextEvent s

/-- s with a table row's bits placed where step takes its next instruction. -/
def State.withFetchWord (s : State) (nbits w : Nat) : State := withCarrier s (tableCarrier nbits w)

end Sys2Proof.Machine
end

