-- ==== Sys2Proof/Safety.lean ====
section
/-! DEFINITION. The terms claims are stated in: the invariant of a run, what a reset event is, the tables of 60 R285,
and second readings of three rules that the machine computes another way (45 R181, 47 R218, 49 R273). -/

namespace Sys2Proof.Machine

/-! ## The tables of 60 R285 -/

/-- Bases of pair operands (60 R285 step 3). -/
def pairBases : Instr → List Reg
  | .tojac _ ra => [ra]
  | .fromjac rd _ => [rd]
  | .oncurve ra => [ra]
  | .isinf ra => [ra]
  | .nop | .mov _ _ | .ldi _ _ | .cmp _ _ | .modadd _ _ _ _ | .modsub _ _ _ _ | .modred _ _ _
  | .modmul _ _ _ _ | .montmul _ _ _ _ | .montrr _ _ | .modinv _ _ _ | .pdbl _ _ | .padd _ _ _
  | .smul _ _ _ _ | .keygen | .qcheck | .sign | .verify | .hinit _ _ | .hfinal | .hmkey _ | .hmstart
  | .hmfinal | .hashDin _ | .hashDinb _ | .ctrlClockc | .ctrlSrst => []

/-- Bases of triple operands (60 R285 step 3). -/
def tripleBases : Instr → List Reg
  | .tojac rd _ => [rd]
  | .fromjac _ ra => [ra]
  | .pdbl rd ra => [rd, ra]
  | .padd rd ra rb => [rd, ra, rb]
  | .smul _ rd ra _ => [rd, ra]
  | .nop | .mov _ _ | .ldi _ _ | .cmp _ _ | .modadd _ _ _ _ | .modsub _ _ _ _ | .modred _ _ _
  | .modmul _ _ _ _ | .montmul _ _ _ _ | .montrr _ _ | .modinv _ _ _ | .oncurve _ | .isinf _ | .keygen
  | .qcheck | .sign | .verify | .hinit _ _ | .hfinal | .hmkey _ | .hmstart | .hmfinal | .hashDin _
  | .hashDinb _ | .ctrlClockc | .ctrlSrst => []

/-- The destination registers of a command (60 R285 step 4). -/
def destRegs : Instr → List Reg
  | .mov rd _ | .ldi rd _ | .montrr rd _ => [rd]
  | .modadd rd _ _ _ | .modsub rd _ _ _ | .modmul rd _ _ _ | .montmul rd _ _ _ => [rd]
  | .modred rd _ _ | .modinv rd _ _ => [rd]
  | .fromjac rd _ => pairRegs rd
  | .tojac rd _ | .pdbl rd _ | .padd rd _ _ | .smul _ rd _ _ => tripleRegs rd
  | .keygen => [regQX, regQY]
  | .sign => [regE, regSR, regSS]
  | .verify => [regE]
  | .nop | .cmp _ _ | .oncurve _ | .isinf _ | .qcheck | .hinit _ _ | .hfinal | .hmkey _ | .hmstart | .hmfinal
  | .hashDin _ | .hashDinb _ | .ctrlClockc | .ctrlSrst => []

/-- The curve commands (60 R285 steps 5 and 6). -/
def isCurveCommand : Instr → Bool
  | .fromjac _ _ | .pdbl _ _ | .padd _ _ _ | .smul _ _ _ _ | .oncurve _ => true
  | .keygen | .qcheck | .sign | .verify => true
  | .nop | .mov _ _ | .ldi _ _ | .cmp _ _ | .modadd _ _ _ _ | .modsub _ _ _ _ | .modred _ _ _
  | .modmul _ _ _ _ | .montmul _ _ _ _ | .montrr _ _ | .modinv _ _ _ | .tojac _ _ | .isinf _ | .hinit _ _
  | .hfinal | .hmkey _ | .hmstart | .hmfinal | .hashDin _ | .hashDinb _ | .ctrlClockc | .ctrlSrst => false

/-- The curve commands that also need N (60 R285 step 6). -/
def needsOrder : Instr → Bool
  | .smul _ _ _ _ | .keygen | .sign | .verify => true
  | .nop | .mov _ _ | .ldi _ _ | .cmp _ _ | .modadd _ _ _ _ | .modsub _ _ _ _ | .modred _ _ _
  | .modmul _ _ _ _ | .montmul _ _ _ _ | .montrr _ _ | .modinv _ _ _ | .tojac _ _ | .fromjac _ _ | .pdbl _ _
  | .padd _ _ _ | .oncurve _ | .isinf _ | .qcheck | .hinit _ _ | .hfinal | .hmkey _ | .hmstart | .hmfinal
  | .hashDin _ | .hashDinb _ | .ctrlClockc | .ctrlSrst => false

/-- The commands of the hash engine and the HMAC sequencer (47, 49). -/
def isHashCommand : Instr → Bool
  | .hinit _ _ | .hfinal | .hmkey _ | .hmstart | .hmfinal => true
  | .nop | .mov _ _ | .ldi _ _ | .cmp _ _ | .modadd _ _ _ _ | .modsub _ _ _ _ | .modred _ _ _
  | .modmul _ _ _ _ | .montmul _ _ _ _ | .montrr _ _ | .modinv _ _ _ | .tojac _ _ | .fromjac _ _ | .pdbl _ _
  | .padd _ _ _ | .smul _ _ _ _ | .oncurve _ | .isinf _ | .keygen | .qcheck | .sign | .verify | .hashDin _
  | .hashDinb _ | .ctrlClockc | .ctrlSrst => false

/-- The commands that write ZERO (10 R30). -/
def writesZero : Instr → Bool
  | .mov _ _ | .ldi _ _ | .modadd _ _ _ _ | .modsub _ _ _ _ | .modred _ _ _ => true
  | .modmul _ _ _ _ | .montmul _ _ _ _ | .montrr _ _ | .modinv _ _ _ => true
  | .nop | .cmp _ _ | .tojac _ _ | .fromjac _ _ | .pdbl _ _ | .padd _ _ _ | .smul _ _ _ _ | .oncurve _
  | .isinf _ | .keygen | .qcheck | .sign | .verify | .hinit _ _ | .hfinal | .hmkey _ | .hmstart | .hmfinal
  | .hashDin _ | .hashDinb _ | .ctrlClockc | .ctrlSrst => false

/-- The commands that write INF (10 R30). -/
def writesInf : Instr → Bool
  | .tojac _ _ | .fromjac _ _ | .pdbl _ _ | .padd _ _ _ | .smul _ _ _ _ | .isinf _ | .keygen => true
  | .nop | .mov _ _ | .ldi _ _ | .cmp _ _ | .modadd _ _ _ _ | .modsub _ _ _ _ | .modred _ _ _
  | .modmul _ _ _ _ | .montmul _ _ _ _ | .montrr _ _ | .modinv _ _ _ | .oncurve _ | .qcheck | .sign | .verify
  | .hinit _ _ | .hfinal | .hmkey _ | .hmstart | .hmfinal | .hashDin _ | .hashDinb _ | .ctrlClockc
  | .ctrlSrst => false

/-- Every group operand lies inside BR0 to BR31 (30 R96). -/
def GroupsInRange (i : Instr) : Prop :=
  (∀ r ∈ pairBases i, r.val ≤ 30) ∧ (∀ r ∈ tripleBases i, r.val ≤ 29)

/-- A destination of the command is a protected curve register (20 R74). -/
def DestProtected (i : Instr) (s : State) : Prop := s.curveLock = true ∧ ∃ r ∈ destRegs i, r.val ≤ 6

/-- No destination of a command that writes the group or register with base rd is protected (20 R74). -/
def Writable (s : State) (rd : Reg) : Prop := s.curveLock = true → 7 ≤ rd.val

/-- Steps 5 and 6 of 60 R285 pass: the curve is locked and P is not 0. -/
def CurveReady (s : State) : Prop := s.curveLock = true ∧ s.val regP ≠ 0

/-- Steps 5 and 6 of 60 R285 pass for a command that needs N. -/
def OrderReady (s : State) : Prop := CurveReady s ∧ s.val regN ≠ 0

/-- isPointOnCurve (44 R166): both range checks and y² ≡ x³ + a·x + b (mod p). -/
def OnCurve (s : State) (x y : Nat) : Prop :=
  x < s.val regP ∧ y < s.val regP ∧
    ((y : Int) ^ 2 - ((x : Int) ^ 3 + s.val regA * x + s.val regB)) % (s.val regP : Int) = 0

/-- The offsets whose writes store, latch or absorb (20 R60, R71). -/
def WritableOffset (off : Nat) : Prop :=
  off = 0x01C ∨ off = 0x020 ∨ off = 0x024 ∨ off = 0x028 ∨ off = 0x040 ∨ off = 0x044 ∨ off = 0x048 ∨
    (0x200 ≤ off ∧ off < 0x300) ∨ (0x1000 ≤ off ∧ off < 0x2000 ∧ off % 0x80 < 0x48)

/-- The read-only registers (20 R66). -/
def ReadOnlyOffset (off : Nat) : Prop :=
  off = 0x000 ∨ off = 0x004 ∨ off = 0x010 ∨ off = 0x014 ∨ off = 0x030 ∨ off = 0x034 ∨ off = 0x038 ∨
    off = 0x03C ∨ (0x100 ≤ off ∧ off < 0x140)

/-- The reserved regions (20 R60, R63). -/
def ReservedOffset (off : Nat) : Prop :=
  off = 0x02C ∨ (0x04C ≤ off ∧ off < 0x100) ∨ (0x140 ≤ off ∧ off < 0x200) ∨ (0x300 ≤ off ∧ off < 0x1000) ∨
    (0x1000 ≤ off ∧ off < 0x2000 ∧ 0x48 ≤ off % 0x80)

/-! ## The next event -/

/-- The next event resets CORE: the reset input (70 R310), or an aligned 32-bit CTRL write with SRST = 1 (70 R311). -/
def State.resetsNext (s : State) : Bool :=
  match s.inputs with
  | .reset :: _ => true
  | .host (.write off bytes v) :: _ => off == 0x008 && bytes == 4 && v.getLsbD 0
  | _ => false

/-! ## The invariant of every run -/

/-- The algorithms whose chaining value holds 64-bit words (10 R41). -/
def isWide : Alg → Bool
  | .sha384 | .sha512 | .sha3_224 | .sha3_256 | .sha3_384 | .sha3_512 | .shake128 | .shake256 => true
  | .sha224 | .sha256 | .ripemd128 | .ripemd160 | .ripemd256 | .ripemd320 => false

/-- The words of an algorithm's chaining value (10 R41). -/
def chainLength : Alg → Nat
  | .sha224 | .sha256 | .sha384 | .sha512 | .ripemd256 => 8
  | .sha3_224 | .sha3_256 | .sha3_384 | .sha3_512 | .shake128 | .shake256 => 25
  | .ripemd128 => 4
  | .ripemd160 => 5
  | .ripemd320 => 10

/-- The shape of an algorithm's chaining value (10 R41). -/
def chainShape (a : Alg) : Chain → Prop
  | .words32 ws => isWide a = false ∧ ws.length = chainLength a
  | .words64 ws => isWide a = true ∧ ws.length = chainLength a

/-- What the spec says of every state a run reaches. -/
structure State.Inv (s : State) : Prop where
  /-- DONE is 0 while a command is latched (20 R69, R70). -/
  busyNotDone : s.pending.isSome = true → s.done = false
  /-- An error abandons the pending command, and none is latched while ERR = 1 (60 R283, 20 R75). -/
  busyNotErr : s.pending.isSome = true → s.err = false
  /-- CODE is 0 when ERR = 0 (10 R29). -/
  codeZero : s.err = false → s.errcode = 0
  /-- CODE is an error code, and so not 0, when ERR = 1 (60 R280, R283). -/
  codeSet : s.err = true → s.errcode.toNat % 256 ≠ 0
  /-- ALG is 0 exactly when IDLE (10 R34). -/
  algIdle : s.hstate = .idle ↔ s.alg = none
  /-- OUTLEN is 0 when IDLE (10 R34). -/
  outlenIdle : s.hstate = .idle → s.outlen = 0
  /-- OUTLEN never exceeds 64, and is the table's size but for SHAKE (47 R211). -/
  outlenSession : ∀ a, s.alg = some a → s.outlen.toNat ≤ 64 ∧ (a.isShake = false → s.outlen = a.digestSize)
  /-- DLEN is 0 unless DONE (10 R35), and OUTLEN then (47 R216, 49 R272). -/
  dlenDone : s.dlen = if s.hstate = .done then s.outlen else 0
  /-- Bytes of DIGEST at index DLEN and above are 0 (10 R39). -/
  digestTail : ∀ i : Fin 64, s.dlen.toNat ≤ i.val → s.digest.get i = 0
  /-- DKIND = 1 only for a finished tag (10 R34). -/
  macDone : s.dkind = .mac → s.hstate = .done
  /-- HMACT = 1 only in ABSORB, for the algorithm of the key (49 R271). -/
  hmacSession : s.hmact = true → s.hstate = .absorb ∧ s.alg = s.halg ∧ s.hkv = true
  /-- HALG is 0 exactly when HKV = 0 (10 R34). -/
  keyValid : s.hkv = true ↔ s.halg.isSome = true
  /-- IPK and OPK are one block each, of an algorithm that is not SHAKE (49 R270). -/
  keyBlocks : ∀ a, s.halg = some a → a.isShake = false ∧ s.ipk.length = a.block ∧ s.opk.length = a.block
  /-- IPK and OPK are empty while no key is set (10 R43). -/
  noKey : s.halg = none → s.ipk = [] ∧ s.opk = []
  /-- BUF is a partial block, and CV has its algorithm's shape, while absorbing (10 R41). -/
  partialBlock : s.hstate = .absorb → ∀ a, s.alg = some a → s.run.buf.length < a.block ∧ chainShape a s.run.cv

/-! ## Second readings -/

/-- mul_iter (45 R181): the left-to-right loop over the bits of the scalar below its leading 1. -/
def mulIter (p a n : Nat) (q : Jac) (k : Int) : Jac :=
  if k = 0 ∨ q.y = 0 then Jac.inf
  else if k = 1 then q
  else
    let r := if k < 0 ∨ (n : Int) ≤ k then (k % (n : Int)).toNat else k.toNat
    if r = 0 then Jac.inf
    else if r = 1 then q
    else
      (List.range (Nat.size r - 1)).reverse.foldl
        (fun t i => if r.testBit i then jadd p a (jdbl p a t) q else jdbl p a t) q

/-- compress256 and its 64-bit form (48 R241, R242) for words W[t] and working variables V[t], indexed as the rule
indexes them: W[0..15] are the block's big-endian words, the others follow by the schedule, and round t takes V[t] to
V[t + 1]. -/
def Sha2Rule (w rounds : Nat) (cap0 cap1 low0 low1 : BitVec w → BitVec w) (k : Nat → BitVec w)
    (h : Nat → BitVec w) (block : List Byte) (out : List (BitVec w)) : Prop :=
  ∃ (ws : Nat → BitVec w) (v : Nat → Nat → BitVec w),
    (∀ t, t < 16 → ws t = BitVec.ofNat w (beInt ((block.drop (w / 8 * t)).take (w / 8)))) ∧
    (∀ t, 16 ≤ t → t < rounds → ws t = low1 (ws (t - 2)) + ws (t - 7) + low0 (ws (t - 15)) + ws (t - 16)) ∧
    (∀ j, j < 8 → v 0 j = h j) ∧
    (∀ t, t < rounds →
      let t1 := v t 7 + cap1 (v t 4) + ((v t 4 &&& v t 5) ^^^ (~~~(v t 4) &&& v t 6)) + k t + ws t
      let t2 := cap0 (v t 0) + ((v t 0 &&& v t 1) ^^^ (v t 0 &&& v t 2) ^^^ (v t 1 &&& v t 2))
      v (t + 1) 0 = t1 + t2 ∧ v (t + 1) 1 = v t 0 ∧ v (t + 1) 2 = v t 1 ∧ v (t + 1) 3 = v t 2 ∧
        v (t + 1) 4 = v t 3 + t1 ∧ v (t + 1) 5 = v t 4 ∧ v (t + 1) 6 = v t 5 ∧ v (t + 1) 7 = v t 6) ∧
    out = (List.range 8).map fun j => h j + v rounds j

/-- The whole blocks of a byte string, in order; n bounds their number. -/
def chunks (size : Nat) : Nat → List Byte → List (List Byte)
  | 0, _ => []
  | n + 1, m => if m.length < size then [] else m.take size :: chunks size n (m.drop size)

/-- A whole message and its padding (47 R217). -/
def paddedMessage (a : Alg) (m : List Byte) : List Byte :=
  m ++ hashPad a (m.length % a.block) (BitVec.ofNat 64 m.length)

/-- The digest of n bytes of a whole message, with no streaming (47 R218). -/
def messageDigest (a : Alg) (m : List Byte) (n : Nat) : List Byte :=
  (serialise a ((chunks a.block (paddedMessage a m).length (paddedMessage a m)).foldl (compress a) (hashIv a))).take n

/-- H(m), with the digest length of the table (47 R210). -/
def tableDigest (a : Alg) (m : List Byte) : List Byte := messageDigest a m a.digestSize.toNat

/-- K0 of a key (49 R270): hashed if longer than a block, then zero bytes up to the block. -/
def blockKey (a : Alg) (key : List Byte) : List Byte :=
  if a.block < key.length then tableDigest a key ++ List.replicate (a.block - a.digestSize.toNat) 0
  else key ++ List.replicate (a.block - key.length) 0

/-- HMAC(key, m) = H(OPK ‖ H(IPK ‖ m)) (49 R273). -/
def hmacTag (a : Alg) (key m : List Byte) : List Byte :=
  let pad (c : Byte) : List Byte := (blockKey a key).map (fun b => b ^^^ c)
  tableDigest a (pad 0x5C ++ tableDigest a (pad 0x36 ++ m))

/-- A write to a data port. -/
inductive Port where
  | din (v : Word)
  | dinb (b : Byte)
  deriving DecidableEq, Repr

/-- The message bytes of a port write, in stream order (47 R214, R215). -/
def Port.bytes : Port → List Byte
  | .din v => [v.setWidth 8, (v >>> 8).setWidth 8, (v >>> 16).setWidth 8, (v >>> 24).setWidth 8]
  | .dinb b => [b]

/-- The instruction of a port write. -/
def Port.instr : Port → Instr
  | .din v => .hashDin v
  | .dinb b => .hashDinb b

/-- Performing port writes one after the other; none if one of them gives no next state. -/
def feed : List Port → State → Option State
  | [], s => some s
  | p :: ps, s =>
    match exec p.instr s with
    | .next t => feed ps t
    | .fault _ => none
    | .refused _ => none

end Sys2Proof.Machine
end

