-- ==== Sys2Proof/Certificates/Slice0/Obligations.lean ====
section
/-! DEFINITION. The statements for the provers. A statement of an instruction's result is an equation that gives the
whole next state, so it is the instruction's completion and its frame at once: every register, flag and other field
that the equation does not name keeps its value. CORE has no memory but the registers of its window (log entry 13). -/

section

open Sys2Proof Sys2Proof.Machine

/-! ## Encoding -/

/-- 30 R91 to R98, R100: decoding the encoding of any instruction gives it back, every operand at every value. -/
def Obligations.DecodeOfEncode : Prop := ∀ i : Instr, decode (encode i) = .ok i

/-- 30 R98, R100: a command word that decodes is the encoding of what it decodes to, so no bit of it is ignored. -/
def Obligations.EncodeOfDecodedCommand : Prop :=
  ∀ (w : Word) (i : Instr), decodeCmd w = .ok i → encode i = .cmd w

/-- 30 R98 to R100: a word that is the encoding of no command (a reserved field that is not 0, or an undefined opcode)
raises E_ILLEGAL (code 0x01) with EOP its low byte, and has no other effect. Every word whose low byte is not in the
opcode table, 0x00 among them, is such a word. -/
def Obligations.UnencodedWordIsIllegal : Prop :=
  ∀ (s : State) (w : Word), s.pending = some w →
    ((∀ i : Instr, encode i ≠ .cmd w) → engineStep s = .next { s with
      errcode := if s.err then s.errcode else BitVec.ofNat 32 (0x01 + w.toNat % 256 * 2 ^ 8)
      err := true
      pending := none }) ∧
    (w.toNat % 256 ∉ [0x01, 0x02, 0x03, 0x04, 0x10, 0x11, 0x12, 0x18, 0x19, 0x1A, 0x1C, 0x20, 0x21, 0x22, 0x23, 0x24,
      0x25, 0x26, 0x30, 0x31, 0x32, 0x33, 0x40, 0x41, 0x48, 0x49, 0x4A] → ∀ i : Instr, encode i ≠ .cmd w)

/-- 30 R101: each word of the table of examples decodes to the command beside it; and so does the SMUL.NEG word of
45 R180, 0x106E1324. -/
def Obligations.ExampleWordsDecode : Prop :=
  ∀ p ∈ ([(0x00000001, .nop), (0x0000F402, .mov 20 7), (0x00171003, .ldi 16 23), (0x0062E004, .cmp 23 24),
      (0x084A3310, .modadd 19 17 18 16), (0x08465411, .modsub 20 18 17 16), (0x0281CC12, .modred 12 14 5),
      (0x084A3518, .modmul 21 17 18 16), (0x08663A19, .montmul 26 17 25 16), (0x0800191A, .montrr 25 16),
      (0x0802361C, .modinv 22 17 16), (0x00007020, .tojac 16 3), (0x0002D921, .fromjac 25 22),
      (0x00021322, .pdbl 19 16), (0x00427623, .padd 22 19 16), (0x006E1C24, .smul false 28 16 27),
      (0x106E1324, .smul true 19 16 27), (0x00032025, .oncurve 25), (0x0002C026, .isinf 22),
      (0x00000030, .keygen), (0x00000031, .qcheck), (0x00000032, .sign), (0x00000033, .verify),
      (0x00000240, .hinit 2 0), (0x00000041, .hfinal), (0x00000248, .hmkey 2), (0x00000049, .hmstart),
      (0x0000004A, .hmfinal)] : List (Word × Instr)),
    decodeCmd p.1 = .ok p.2

/-! ## The step -/

/-- 00 R16, 20 R70, 47 R214, R215, 20 R73, 70 R311: when the engine has its turn, and likewise when no event is left
(log entry 4), the step is exec of the latched command; and when the next event is an aligned 32-bit host write that is
a row of the opcode table, it is exec of that row. -/
def Obligations.StepRunsDecodedInstruction : Prop :=
  ∀ (s : State) (i : Instr) (rest : List Event),
    (∀ w, s.pending = some w → decode (.cmd w) = .ok i →
      (s.inputs = .engine :: rest → step s = exec i { s with inputs := rest }) ∧
      (s.inputs = [] → step s = exec i s)) ∧
    (∀ off v, decode (.write off v) = .ok i → s.inputs = .host (.write off 4 v) :: rest →
      step s = exec i { s with inputs := rest })

/-- A step never is refused, and it stops with the model's one fault (log entry 6) exactly at a host access outside
the window. -/
def Obligations.StepStopsOnlyOutsideWindow : Prop :=
  ∀ s : State,
    ((∃ t, step s = .next t) ∨ ∃ off, step s = .fault (.outsideWindow off)) ∧
    ∀ off, step s = .fault (.outsideWindow off) ↔
      0x2000 ≤ off ∧ ∃ rest n v, s.inputs = .host (.read off n) :: rest ∨ s.inputs = .host (.write off n v) :: rest

/-- 70 R332: a latched command ends in the engine's next step, which completes it or raises an error. That the engine
has its turn when no event is left is log entry 4. -/
def Obligations.LatchedCommandEnds : Prop :=
  ∀ (s : State) (rest : List Event), s.pending.isSome = true → s.inputs = [] ∨ s.inputs = .engine :: rest →
    ∃ t, step s = .next t ∧ t.pending = none ∧ (t.done = true ∨ t.err = true)

/-! ## Invariants and whole-machine rules -/

/-- Every step keeps the invariant State.Inv, from every state that has it. -/
def Obligations.StepKeepsInv : Prop := ∀ s t : State, s.Inv → step s = .next t → t.Inv

/-- The state after reset has the invariant. -/
def Obligations.ResetHasInv : Prop := State.reset.Inv

/-- 20 R74, 10 R27: once the curve is locked, no step but a reset changes BR0 to BR6, CURVE_ID or the lock. -/
def Obligations.LockProtectsCurveUntilReset : Prop :=
  ∀ s t : State, s.curveLock = true → s.resetsNext = false → step s = .next t →
    t.curveLock = true ∧ t.curveId = s.curveId ∧ ∀ r : Reg, r.val ≤ 6 → t.big r = s.big r

/-- 60 R283, R286, R287, 20 R75: while ERR = 1 no step but a reset changes anything except STATUS.DONE and IE (which the
host may still write), the data of the last read and the events to come; ERRCODE keeps the first error. -/
def Obligations.ErrorStateIsLeftOnlyByReset : Prop :=
  ∀ s t : State, s.Inv → s.err = true → s.resetsNext = false → step s = .next t →
    { t with done := s.done, doneIe := s.doneIe, errIe := s.errIe, rdata := s.rdata, inputs := s.inputs } = s

/-- 10 R41: what a host read returns does not depend on CV, BUF, IPK, OPK or the word in PENDING. For a read that 20 R72
leaves unspecified this rests on log entry 3, the model's choice: it draws from State.drawn alone. -/
def Obligations.HiddenStateIsNotReadable : Prop :=
  ∀ (s t : State) (off bytes : Nat) (cv : Chain) (buf ipk opk : List Byte) (w : Word),
    hostAccess (.read off bytes) s = .next t →
    ∃ t', hostAccess (.read off bytes) { s with
        run := { s.run with cv := cv, buf := buf }, ipk := ipk, opk := opk,
        pending := s.pending.map fun _ => w } = .next t' ∧ t'.rdata = t.rdata

/-- 60 R285 step 4, 10 R25, R33, 46 R190: a command changes no big register but its destinations; QTAG only KEYGEN
changes; hash state only the commands of the hash engine and the HMAC sequencer change; and no command changes the lock,
CURVE_ID, DTAG, IE, KLEN or KEYBUF. -/
def Obligations.CommandsChangeOnlyTheirDestinations : Prop :=
  ∀ (i : Instr) (op : Nat) (s t : State), i.opcode = some op → exec i s = .next t →
    (∀ r : Reg, r ∉ destRegs i → t.big r = s.big r) ∧
    (i ≠ .keygen → t.qtag = s.qtag) ∧
    (isHashCommand i = false →
      { t with br := s.br, qtag := s.qtag, flags := s.flags, pending := s.pending, done := s.done, err := s.err,
               errcode := s.errcode } = s) ∧
    (isHashCommand i = true →
      { t with hstate := s.hstate, hmact := s.hmact, hkv := s.hkv, dkind := s.dkind, alg := s.alg, halg := s.halg,
               outlen := s.outlen, dlen := s.dlen, run := s.run, digest := s.digest, ipk := s.ipk, opk := s.opk,
               pending := s.pending, done := s.done, err := s.err, errcode := s.errcode } = s)

/-- 10 R30: each bit of FLAGS is written only by the commands listed for it. -/
def Obligations.FlagsChangeOnlyByTheirCommands : Prop :=
  ∀ (i : Instr) (op : Nat) (s t : State), i.opcode = some op → exec i s = .next t →
    (t.flags.eq ≠ s.flags.eq ∨ t.flags.lt ≠ s.flags.lt ∨ t.flags.gt ≠ s.flags.gt → ∃ ra rb, i = .cmp ra rb) ∧
    (t.flags.zero ≠ s.flags.zero → writesZero i = true) ∧
    (t.flags.inf ≠ s.flags.inf → writesInf i = true) ∧
    (t.flags.onc ≠ s.flags.onc → ∃ ra, i = .oncurve ra) ∧
    (t.flags.valid ≠ s.flags.valid → i = .verify) ∧
    (t.flags.degen ≠ s.flags.degen → i = .sign) ∧
    (t.flags.noninv ≠ s.flags.noninv → ∃ rd ra rm, i = .modinv rd ra rm)

/-! ## Errors -/

/-- 60 R280, R283: raising records code, EOP and EOFF if no error is recorded yet, sets ERR, abandons the pending
command, and changes nothing else; the codes are those of the table. -/
def Obligations.RaiseRecordsTheFirstError : Prop :=
  (∀ (e : Err) (eop : BitVec 8) (eoff : BitVec 16) (s : State),
    raise e eop eoff s = { s with
      errcode := if s.err then s.errcode
        else BitVec.ofNat 32 ((errNum e).toNat + eop.toNat * 2 ^ 8 + eoff.toNat * 2 ^ 16)
      err := true
      pending := none }) ∧
  [Err.illegal, .operand, .locked, .noCurve, .divZero, .evenMod, .busy, .access, .curveMismatch, .badKey, .badPub,
    .badNonce, .hseq, .badAlg, .badLen].map errNum =
    [0x01, 0x02, 0x03, 0x04, 0x05, 0x06, 0x07, 0x08, 0x10, 0x11, 0x12, 0x13, 0x20, 0x21, 0x22]

/-- 20 R70, 60 R283: in every state a command either raises one error, with EOP its opcode and none of its results
written, or completes: BUSY 0, DONE 1, PENDING empty, ERR and ERRCODE unchanged. -/
def Obligations.CommandCompletesOrOnlyRaises : Prop :=
  ∀ (i : Instr) (op : Nat) (s : State), i.opcode = some op →
    (∃ e, exec i s = .next (raise e (BitVec.ofNat 8 op) 0 s)) ∨
    ∃ t, exec i s = .next t ∧ t.busy = false ∧ t.pending = none ∧ t.done = true ∧ t.err = s.err ∧
      t.errcode = s.errcode

/-- 60 R285 steps 3 to 6, 20 R74: for every command, in this order, a group that leaves BR0 to BR31 raises E_OPERAND; a
protected destination raises E_LOCKED; a curve command while the curve is not locked raises E_NOCURVE; a curve command
with P = 0, or one that needs N with N = 0, raises E_DIVZERO. -/
def Obligations.CommonChecksInOrder : Prop :=
  ∀ (i : Instr) (op : Nat) (s : State), i.opcode = some op →
    (¬ GroupsInRange i → exec i s = .next (raise .operand (BitVec.ofNat 8 op) 0 s)) ∧
    (GroupsInRange i → DestProtected i s → exec i s = .next (raise .locked (BitVec.ofNat 8 op) 0 s)) ∧
    (GroupsInRange i → ¬ DestProtected i s → isCurveCommand i = true → s.curveLock = false →
      exec i s = .next (raise .noCurve (BitVec.ofNat 8 op) 0 s)) ∧
    (GroupsInRange i → ¬ DestProtected i s → isCurveCommand i = true → s.curveLock = true →
      (s.val regP = 0 ∨ (needsOrder i = true ∧ s.val regN = 0)) →
      exec i s = .next (raise .divZero (BitVec.ofNat 8 op) 0 s))

/-- 42 R140 to R142, 41 R130 to R132, 43 R151: with a writable destination, every modular command raises E_DIVZERO on
the modulus 0, and MONTMUL raises E_EVENMOD on any other even modulus. -/
def Obligations.ModularModulusErrors : Prop :=
  ∀ (s : State) (rd ra rb rm : Reg), Writable s rd →
    (s.val rm = 0 →
      exec (.modadd rd ra rb rm) s = .next (raise .divZero 0x10 0 s) ∧
      exec (.modsub rd ra rb rm) s = .next (raise .divZero 0x11 0 s) ∧
      exec (.modred rd ra rm) s = .next (raise .divZero 0x12 0 s) ∧
      exec (.modmul rd ra rb rm) s = .next (raise .divZero 0x18 0 s) ∧
      exec (.montmul rd ra rb rm) s = .next (raise .divZero 0x19 0 s) ∧
      exec (.montrr rd rm) s = .next (raise .divZero 0x1A 0 s) ∧
      exec (.modinv rd ra rm) s = .next (raise .divZero 0x1C 0 s)) ∧
    (s.val rm ≠ 0 → s.val rm % 2 = 0 → exec (.montmul rd ra rb rm) s = .next (raise .evenMod 0x19 0 s))

/-- 46 R191 to R196: the own checks of the ECDSA commands, in their order: the tag; then D, then K, then the digest for
SIGN; D for KEYGEN; Q at infinity or off the curve for QCHECK; Q off the curve, then the digest for VERIFY. -/
def Obligations.EcdsaOwnErrors : Prop :=
  ∀ s : State, CurveReady s →
    let d := s.val regD
    let k := s.val regK
    let n := s.val regN
    let onCurve := OnCurve s (s.val regQX) (s.val regQY)
    let digest := s.hstate = .done ∧ s.dkind = .hash
    (s.qtag ≠ s.curveId → exec .qcheck s = .next (raise .curveMismatch 0x31 0 s)) ∧
    (s.qtag = s.curveId → s.val regQY = 0 ∨ ¬ onCurve → exec .qcheck s = .next (raise .badPub 0x31 0 s)) ∧
    (0 < n →
      (s.dtag ≠ s.curveId → exec .keygen s = .next (raise .curveMismatch 0x30 0 s) ∧
        exec .sign s = .next (raise .curveMismatch 0x32 0 s)) ∧
      (s.dtag = s.curveId → ¬ (1 ≤ d ∧ d ≤ n - 1) → exec .keygen s = .next (raise .badKey 0x30 0 s) ∧
        exec .sign s = .next (raise .badKey 0x32 0 s)) ∧
      (s.dtag = s.curveId → 1 ≤ d ∧ d ≤ n - 1 → ¬ (1 ≤ k ∧ k ≤ n - 1) →
        exec .sign s = .next (raise .badNonce 0x32 0 s)) ∧
      (s.dtag = s.curveId → 1 ≤ d ∧ d ≤ n - 1 → 1 ≤ k ∧ k ≤ n - 1 → ¬ digest →
        exec .sign s = .next (raise .hseq 0x32 0 s)) ∧
      (s.qtag ≠ s.curveId → exec .verify s = .next (raise .curveMismatch 0x33 0 s)) ∧
      (s.qtag = s.curveId → ¬ onCurve → exec .verify s = .next (raise .badPub 0x33 0 s)) ∧
      (s.qtag = s.curveId → onCurve → ¬ digest → exec .verify s = .next (raise .hseq 0x33 0 s)))

/-- 47 R212, R213, R216, 49 R270 to R272: the errors of the hash engine and the HMAC sequencer, in their order, in every
state: an unknown algorithm (or SHAKE for HMKEY) raises E_BADALG; a non-zero olen without SHAKE raises E_ILLEGAL; a SHAKE
olen above 64, and KLEN above 256, raise E_BADLEN; a command the state does not accept raises E_HSEQ. -/
def Obligations.HashOwnErrors : Prop :=
  ∀ (s : State) (code : BitVec 5) (olen : BitVec 7),
    (Alg.ofCode code = none →
      exec (.hinit code olen) s = .next (raise .badAlg 0x40 0 s) ∧
      exec (.hmkey code) s = .next (raise .badAlg 0x48 0 s)) ∧
    (∀ a, Alg.ofCode code = some a →
      (a.isShake = false → olen ≠ 0 → exec (.hinit code olen) s = .next (raise .illegal 0x40 0 s)) ∧
      (a.isShake = true → 64 < olen.toNat → exec (.hinit code olen) s = .next (raise .badLen 0x40 0 s)) ∧
      (a.isShake = true → exec (.hmkey code) s = .next (raise .badAlg 0x48 0 s)) ∧
      (a.isShake = false → 256 < s.klen.toNat → exec (.hmkey code) s = .next (raise .badLen 0x48 0 s))) ∧
    (s.hstate ≠ .absorb ∨ s.hmact = true → exec .hfinal s = .next (raise .hseq 0x41 0 s)) ∧
    (s.hkv = false → exec .hmstart s = .next (raise .hseq 0x49 0 s)) ∧
    (s.hstate ≠ .absorb ∨ s.hmact = false → exec .hmfinal s = .next (raise .hseq 0x4A 0 s))

/-! ## The register window -/

/-- 20 R72: while BUSY = 1 a read of ID, VERSION, CTRL, STATUS, IE or CMD returns its defined value and ERRCODE reads 0;
a read of any other offset returns the next free draw, and the count of draws advances: that clause is log entry 3, the
model's choice. -/
def Obligations.BusyReads : Prop :=
  ∀ (s : State) (off : Nat), s.busy = true → off < 0x2000 → off % 4 = 0 →
    (off = 0x000 → hostAccess (.read off 4) s = .next { s with rdata := 0x434F5245 }) ∧
    (off = 0x004 → hostAccess (.read off 4) s = .next { s with rdata := 0x00010000 }) ∧
    (off = 0x008 → hostAccess (.read off 4) s = .next { s with
      rdata := BitVec.ofNat 32 (2 * s.curveLock.toNat) }) ∧
    (off = 0x00C → hostAccess (.read off 4) s = .next { s with
      rdata := BitVec.ofNat 32 (1 + 2 * s.done.toNat + 4 * s.err.toNat) }) ∧
    (off = 0x018 → hostAccess (.read off 4) s = .next { s with
      rdata := BitVec.ofNat 32 (s.doneIe.toNat + 2 * s.errIe.toNat) }) ∧
    (off = 0x01C ∨ off = 0x010 → hostAccess (.read off 4) s = .next { s with rdata := 0 }) ∧
    (off ∉ [0x000, 0x004, 0x008, 0x00C, 0x010, 0x018, 0x01C] → hostAccess (.read off 4) s = .next { s with
      rdata := Config.unspecifiedRead s.drawn, drawn := s.drawn + 1 })

/-- 20 R71: while BUSY = 1 (and so ERR = 0, by State.Inv) a write that would store raises E_BUSY with EOP 0xFF and EOFF
the offset, and abandons the pending command; CTRL resets, raises E_BUSY or does nothing; STATUS and IE act normally; a
read-only or reserved offset is ignored. -/
def Obligations.BusyWrites : Prop :=
  ∀ (s : State) (off : Nat) (v : Word), s.Inv → s.busy = true → off < 0x2000 → off % 4 = 0 →
    (WritableOffset off → hostAccess (.write off 4 v) s = .next (raise .busy 0xFF (BitVec.ofNat 16 off) s)) ∧
    (off = 0x008 → v.getLsbD 0 = true → hostAccess (.write off 4 v) s = .next (coreReset s)) ∧
    (off = 0x008 → v.getLsbD 0 = false → v.getLsbD 1 = true →
      hostAccess (.write off 4 v) s = .next (raise .busy 0xFF 0x008 s)) ∧
    (off = 0x008 → v.getLsbD 0 = false → v.getLsbD 1 = false → hostAccess (.write off 4 v) s = .next s) ∧
    (off = 0x00C → hostAccess (.write off 4 v) s = .next { s with done := s.done && !v.getLsbD 1 }) ∧
    (off = 0x018 → hostAccess (.write off 4 v) s = .next { s with
      doneIe := v.getLsbD 0, errIe := v.getLsbD 1 }) ∧
    (ReadOnlyOffset off ∨ ReservedOffset off → hostAccess (.write off 4 v) s = .next s)

/-- 20 R75: while ERR = 1 (and so BUSY = 0, by State.Inv) a write to any offset other than CTRL, STATUS and IE is
ignored; a CTRL write resets if SRST = 1 and is ignored if not; and every read but that of STATUS returns what it would
return with ERR = 0. -/
def Obligations.ErrorIgnoresWrites : Prop :=
  ∀ (s : State) (off : Nat) (v : Word), s.Inv → s.err = true → off < 0x2000 → off % 4 = 0 →
    (off ≠ 0x008 → off ≠ 0x00C → off ≠ 0x018 → hostAccess (.write off 4 v) s = .next s) ∧
    (off = 0x008 → v.getLsbD 0 = true → hostAccess (.write off 4 v) s = .next (coreReset s)) ∧
    (off = 0x008 → v.getLsbD 0 = false → hostAccess (.write off 4 v) s = .next s) ∧
    (off ≠ 0x00C → ∃ w, hostAccess (.read off 4) s = .next { s with rdata := w } ∧
      hostAccess (.read off 4) { s with err := false } = .next { s with err := false, rdata := w })

/-- 20 R65, 60 R283: an access of another width or alignment raises E_ACCESS with EOP 0xFF and EOFF the offset, and
changes nothing else; a read returns 0; while ERR = 1 nothing but the data of the read changes. That the shape is looked
at before BUSY is log entry 5. -/
def Obligations.MisshapenAccessRaisesAccess : Prop :=
  ∀ (s : State) (off bytes : Nat) (v : Word), off < 0x2000 → bytes ≠ 4 ∨ off % 4 ≠ 0 →
    (s.err = false →
      hostAccess (.write off bytes v) s = .next (raise .access 0xFF (BitVec.ofNat 16 off) s) ∧
      hostAccess (.read off bytes) s = .next { raise .access 0xFF (BitVec.ofNat 16 off) s with rdata := 0 }) ∧
    (s.err = true →
      hostAccess (.write off bytes v) s = .next s ∧
      hostAccess (.read off bytes) s = .next { s with rdata := 0 })

/-- 20 R66: a reserved offset ignores writes, without error, and reads 0 (while BUSY = 0, 20 R72); a write to a read-only
register is ignored, without error. -/
def Obligations.ReservedAndReadOnlyOffsets : Prop :=
  ∀ (s : State) (off : Nat) (v : Word), off % 4 = 0 →
    (ReservedOffset off → hostAccess (.write off 4 v) s = .next s ∧
      (s.busy = false → hostAccess (.read off 4) s = .next { s with rdata := 0 })) ∧
    (ReadOnlyOffset off → hostAccess (.write off 4 v) s = .next s)

/-- 20 R62, 10 R22: word j of BR[i] is bits [32j+31:32j]. A read returns them; an accepted write replaces them and leaves
the other words, every other register and every other field unchanged. -/
def Obligations.BigRegisterWords : Prop :=
  ∀ (s : State) (i : Reg) (j off : Nat) (v : Word), j < 18 → off = 0x1000 + 0x80 * i.val + 4 * j → s.busy = false →
    (∃ w : Word, hostAccess (.read off 4) s = .next { s with rdata := w } ∧
      w.toNat = s.val i / 2 ^ (32 * j) % 2 ^ 32) ∧
    (s.err = false → Writable s i → ∃ x : Big, hostAccess (.write off 4 v) s = .next (s.setBig i x) ∧
      x.toNat / 2 ^ (32 * j) % 2 ^ 32 = v.toNat ∧
      (∀ k, k < 18 → k ≠ j → x.toNat / 2 ^ (32 * k) % 2 ^ 32 = s.val i / 2 ^ (32 * k) % 2 ^ 32) ∧
      (s.setBig i x).big i = x ∧ ∀ r, r ≠ i → (s.setBig i x).big r = s.big r)

/-- 20 R69: a write to CMD is accepted when ERR = 0 and BUSY = 0: the word is latched, BUSY becomes 1, DONE becomes 0. It
is not decoded. -/
def Obligations.CmdWriteLatches : Prop :=
  ∀ (s : State) (w : Word), s.err = false → s.busy = false →
    ∃ t, hostAccess (.write 0x01C 4 w) s = .next t ∧ t = { s with pending := some w, done := false } ∧ t.busy = true

/-- 20 R74: while the curve is locked, a host write to a word of BR0 to BR6 or to CURVE_ID raises E_LOCKED with EOP 0xFF
and EOFF the offset; while it is not, such a write stores: CURVE_ID takes bits [7:0], and word j of BR[r] takes the data,
the other words of BR[r] and all else unchanged. -/
def Obligations.LockedHostWrites : Prop :=
  ∀ (s : State) (off : Nat) (v : Word), s.busy = false → s.err = false → off % 4 = 0 →
    off = 0x020 ∨ (0x1000 ≤ off ∧ off < 0x1380 ∧ off % 0x80 < 0x48) →
    (s.curveLock = true → hostAccess (.write off 4 v) s = .next (raise .locked 0xFF (BitVec.ofNat 16 off) s)) ∧
    (s.curveLock = false →
      (off = 0x020 → hostAccess (.write off 4 v) s = .next { s with curveId := v.setWidth 8 }) ∧
      (off ≠ 0x020 → ∃ (r : Reg) (j : Nat) (x : Big), r.val ≤ 6 ∧ j < 18 ∧ off = 0x1000 + 0x80 * r.val + 4 * j ∧
        hostAccess (.write off 4 v) s = .next (s.setBig r x) ∧
        x.toNat / 2 ^ (32 * j) % 2 ^ 32 = v.toNat ∧
        ∀ k, k < 18 → k ≠ j → x.toNat / 2 ^ (32 * k) % 2 ^ 32 = s.val r / 2 ^ (32 * k) % 2 ^ 32))

/-- 10 R28, R31, R42: a write to STATUS clears DONE if bit 1 is 1, and a write to IE stores its two bits, in every state;
the interrupt line after an IE write is (DONE and DONE_IE) or (ERR and ERR_IE). 10 R33, R38, R40, 20 R61: accepted writes
to DTAG, QTAG and KLEN store bits [7:0], [7:0] and [8:0]; one to word k of KEYBUF replaces bytes 4k to 4k+3, the least
significant first. Nothing else changes. -/
def Obligations.ControlAndKeyWrites : Prop :=
  ∀ (s : State) (v : Word),
    hostAccess (.write 0x00C 4 v) s = .next { s with done := s.done && !v.getLsbD 1 } ∧
    (∃ t, hostAccess (.write 0x018 4 v) s = .next t ∧ t = { s with doneIe := v.getLsbD 0, errIe := v.getLsbD 1 } ∧
      (t.irq = true ↔ (s.done = true ∧ v.getLsbD 0 = true) ∨ (s.err = true ∧ v.getLsbD 1 = true))) ∧
    (s.busy = false → s.err = false →
      hostAccess (.write 0x024 4 v) s = .next { s with dtag := BitVec.ofNat 8 v.toNat } ∧
      hostAccess (.write 0x028 4 v) s = .next { s with qtag := BitVec.ofNat 8 v.toNat } ∧
      hostAccess (.write 0x048 4 v) s = .next { s with klen := BitVec.ofNat 9 v.toNat } ∧
      ∀ k, k < 64 → ∃ t, hostAccess (.write (0x200 + 4 * k) 4 v) s = .next t ∧ { t with keybuf := s.keybuf } = s ∧
        ∀ b : Fin 256, (t.keybuf.get b).toNat =
          if b.val / 4 = k then v.toNat / 2 ^ (8 * (b.val % 4)) % 256 else (s.keybuf.get b).toNat)

/-- 00 R2, 10 R27 to R40, 20 R61: what the host reads of each register of the window but BR0 to BR31 (BigRegisterWords)
while BUSY = 0: ID and VERSION their constants, CMD and the data ports 0, each status register the sum of its fields at
their places, and a word of DIGEST or KEYBUF its four bytes, the first at the lowest place. -/
def Obligations.RegisterReads : Prop :=
  ∀ s : State, s.busy = false →
    let reads (off v : Nat) : Prop := v < 2 ^ 32 ∧ hostAccess (.read off 4) s = .next { s with rdata := BitVec.ofNat 32 v }
    reads 0x000 0x434F5245 ∧ reads 0x004 0x00010000 ∧ reads 0x01C 0 ∧ reads 0x040 0 ∧ reads 0x044 0 ∧
    reads 0x008 (2 * s.curveLock.toNat) ∧
    reads 0x00C (2 * s.done.toNat + 4 * s.err.toNat) ∧
    reads 0x010 s.errcode.toNat ∧
    reads 0x014 (s.flags.eq.toNat + 2 * s.flags.lt.toNat + 4 * s.flags.gt.toNat + 8 * s.flags.zero.toNat +
      16 * s.flags.inf.toNat + 32 * s.flags.onc.toNat + 64 * s.flags.valid.toNat + 128 * s.flags.degen.toNat +
      256 * s.flags.noninv.toNat) ∧
    reads 0x018 (s.doneIe.toNat + 2 * s.errIe.toNat) ∧
    reads 0x020 s.curveId.toNat ∧ reads 0x024 s.dtag.toNat ∧ reads 0x028 s.qtag.toNat ∧
    reads 0x030 (hstateNum s.hstate + 4 * s.hmact.toNat + 8 * s.hkv.toNat + 16 * (dkindBit s.dkind).toNat +
      2 ^ 8 * (Alg.codeOf s.alg).toNat + 2 ^ 16 * (Alg.codeOf s.halg).toNat + 2 ^ 24 * s.outlen.toNat) ∧
    reads 0x034 s.dlen.toNat ∧
    reads 0x038 (s.run.count.toNat % 2 ^ 32) ∧ reads 0x03C (s.run.count.toNat / 2 ^ 32) ∧
    reads 0x048 s.klen.toNat ∧
    (∀ k, k < 16 → ∀ d0 d1 d2 d3 : Fin 64, d0.val = 4 * k → d1.val = 4 * k + 1 → d2.val = 4 * k + 2 →
      d3.val = 4 * k + 3 → reads (0x100 + 4 * k) ((s.digest.get d0).toNat + 2 ^ 8 * (s.digest.get d1).toNat +
        2 ^ 16 * (s.digest.get d2).toNat + 2 ^ 24 * (s.digest.get d3).toNat)) ∧
    (∀ k, k < 64 → ∀ d0 d1 d2 d3 : Fin 256, d0.val = 4 * k → d1.val = 4 * k + 1 → d2.val = 4 * k + 2 →
      d3.val = 4 * k + 3 → reads (0x200 + 4 * k) ((s.keybuf.get d0).toNat + 2 ^ 8 * (s.keybuf.get d1).toNat +
        2 ^ 16 * (s.keybuf.get d2).toNat + 2 ^ 24 * (s.keybuf.get d3).toNat))

/-- 20 R73, R71, R75: CLOCKC locks the curve when ERR = 0 and BUSY = 0, whatever the curve values are and whether or not
it is locked already, and changes nothing else; while BUSY = 1 it raises E_BUSY, and while ERR = 1 it is ignored. With
ERR = 1 and BUSY = 1, a state no run reaches, it is ignored too: log entry 9, the model's reading of the order of 70 R311. -/
def Obligations.ClockcLocksTheCurve : Prop :=
  ∀ s : State,
    (s.err = false → s.busy = false → exec .ctrlClockc s = .next { s with curveLock := true }) ∧
    (s.err = false → s.busy = true → exec .ctrlClockc s = .next (raise .busy 0xFF 0x008 s)) ∧
    (s.err = true → exec .ctrlClockc s = .next s)

/-- 70 R310, R311: a CTRL write with SRST = 1, whatever its other bits and in every state, and the reset input both put
every state of CORE to its reset value. What is the model's own (the data of the last read, the count of free draws, the
events to come) stays: log entry 16. -/
def Obligations.ResetsLeaveTheResetState : Prop :=
  ∀ (s : State) (v : Word) (rest : List Event),
    exec .ctrlSrst s = .next { State.reset with rdata := s.rdata, drawn := s.drawn, inputs := s.inputs } ∧
    (v.getLsbD 0 = true → hostAccess (.write 0x008 4 v) s =
      .next { State.reset with rdata := s.rdata, drawn := s.drawn, inputs := s.inputs }) ∧
    (s.inputs = .reset :: rest → step s =
      .next { State.reset with rdata := s.rdata, drawn := s.drawn, inputs := rest })

/-- 10 R43: the reset values. -/
def Obligations.ResetValues : Prop :=
  let s := State.reset
  (∀ r : Reg, s.big r = 0) ∧ s.curveLock = false ∧ s.ctrlWord = 0x00000000 ∧ s.statusWord = 0x00000000 ∧
    s.errcode = 0x00000000 ∧ s.flags.word = 0x00000000 ∧ s.ieWord = 0x00000000 ∧ s.curveId = 0 ∧ s.dtag = 0 ∧
    s.qtag = 0 ∧ s.hstatWord = 0x00000000 ∧ s.hstate = .idle ∧ s.hmact = false ∧ s.hkv = false ∧ s.dkind = .hash ∧
    s.alg = none ∧ s.halg = none ∧ s.outlen = 0 ∧ s.dlen = 0 ∧ s.run.count = 0 ∧ (∀ i, s.digest.get i = 0) ∧
    (∀ i, s.keybuf.get i = 0) ∧ s.klen = 0 ∧ (∀ ws, s.run.cv = .words64 ws → ∀ w ∈ ws, w = 0) ∧
    (∀ ws, s.run.cv = .words32 ws → ∀ w ∈ ws, w = 0) ∧ s.run.buf = [] ∧
    s.ipk = [] ∧ s.opk = [] ∧ s.pending = none ∧ s.irq = false ∧ Config.idWord = 0x434F5245 ∧
    Config.versionWord = 0x00010000

/-! ## Support commands, modular commands -/

/-- 40 R121 to R123: NOP only completes; MOV copies a register and LDI loads a zero-extended immediate; both write ZERO
and nothing else. -/
def Obligations.SupportCommands : Prop :=
  ∀ (s : State) (rd ra : Reg) (imm : BitVec 16),
    exec .nop s = .next { s with pending := none, done := true } ∧
    (Writable s rd →
      exec (.mov rd ra) s = .next { s.setBig rd (s.big ra) with
        flags := { s.flags with zero := decide (s.val ra = 0) }, pending := none, done := true } ∧
      ∃ v : Big, v.toNat = imm.toNat ∧ exec (.ldi rd imm) s = .next { s.setBig rd v with
        flags := { s.flags with zero := decide (imm = 0) }, pending := none, done := true })

/-- 40 R124: CMP writes EQ, LT and GT of the unsigned values, exactly one of them 1, and nothing else; it needs no
hypothesis. -/
def Obligations.CmpWritesOneOfThreeFlags : Prop :=
  ∀ (s : State) (ra rb : Reg), ∃ eq lt gt : Bool,
    exec (.cmp ra rb) s = .next { s with
      flags := { s.flags with eq := eq, lt := lt, gt := gt }, pending := none, done := true } ∧
    (eq = true ↔ s.val ra = s.val rb) ∧ (lt = true ↔ s.val ra < s.val rb) ∧ (gt = true ↔ s.val ra > s.val rb) ∧
    eq.toNat + lt.toNat + gt.toNat = 1

/-- 42 R140 to R142: MODADD, MODSUB and MODRED write the exact sum, the exact signed difference and the value itself,
each reduced once by the floored remainder, and ZERO, and nothing else. -/
def Obligations.ModularAdderResults : Prop :=
  ∀ (s : State) (rd ra rb rm : Reg), Writable s rd → s.val rm ≠ 0 →
    (∃ v : Big, v.toNat = (s.val ra + s.val rb) % s.val rm ∧
      exec (.modadd rd ra rb rm) s = .next { s.setBig rd v with
        flags := { s.flags with zero := decide (v = 0) }, pending := none, done := true }) ∧
    (∃ v : Big, (v.toNat : Int) = ((s.val ra : Int) - s.val rb) % (s.val rm : Int) ∧
      exec (.modsub rd ra rb rm) s = .next { s.setBig rd v with
        flags := { s.flags with zero := decide (v = 0) }, pending := none, done := true }) ∧
    (∃ v : Big, v.toNat = s.val ra % s.val rm ∧
      exec (.modred rd ra rm) s = .next { s.setBig rd v with
        flags := { s.flags with zero := decide (v = 0) }, pending := none, done := true })

/-- 41 R130, R132: MODMUL writes the exact product reduced once, MONTRR writes 2^1152 mod m for every m > 0, both ZERO,
and nothing else. -/
def Obligations.ModularMultiplierResults : Prop :=
  ∀ (s : State) (rd ra rb rm : Reg), Writable s rd → s.val rm ≠ 0 →
    (∃ v : Big, v.toNat = s.val ra * s.val rb % s.val rm ∧
      exec (.modmul rd ra rb rm) s = .next { s.setBig rd v with
        flags := { s.flags with zero := decide (v = 0) }, pending := none, done := true }) ∧
    (∃ v : Big, v.toNat = 2 ^ 1152 % s.val rm ∧
      exec (.montrr rd rm) s = .next { s.setBig rd v with
        flags := { s.flags with zero := decide (v = 0) }, pending := none, done := true })

/-- 41 R131: for an odd modulus m MONTMUL writes the v in [0, m) with v · 2^576 ≡ a · b (mod m), and ZERO, and nothing
else; and there is only one such v. -/
def Obligations.MontgomeryProductResult : Prop :=
  ∀ (s : State) (rd ra rb rm : Reg), Writable s rd → s.val rm % 2 = 1 →
    ∃ v : Big, v.toNat < s.val rm ∧ v.toNat * 2 ^ 576 % s.val rm = s.val ra * s.val rb % s.val rm ∧
      (∀ u, u < s.val rm → u * 2 ^ 576 % s.val rm = s.val ra * s.val rb % s.val rm → u = v.toNat) ∧
      exec (.montmul rd ra rb rm) s = .next { s.setBig rd v with
        flags := { s.flags with zero := decide (v = 0) }, pending := none, done := true }

/-- 43 R150: the inverse function, in its three cases. -/
def Obligations.InverseFunction : Prop :=
  ∀ x n : Nat, 0 < n →
    (x % n = 0 → inv x n = (0, false)) ∧
    (x % n ≠ 0 → Nat.gcd (x % n) n ≠ 1 → inv x n = (0, true)) ∧
    (x % n ≠ 0 → Nat.gcd (x % n) n = 1 → ∃ v, inv x n = (v, false) ∧ 1 ≤ v ∧ v < n ∧ v * x % n = 1 ∧
      ∀ u, 1 ≤ u → u < n → u * x % n = 1 → u = v)

/-- 43 R150, R151: MODINV writes the inverse, or 0 where there is none, ZERO, and NONINV exactly when the value is not 0
modulo n and not coprime to n; nothing else. -/
def Obligations.ModinvResult : Prop :=
  ∀ (s : State) (rd ra rm : Reg), Writable s rd → s.val rm ≠ 0 →
    ∃ (v : Big) (ni : Bool),
      exec (.modinv rd ra rm) s = .next { s.setBig rd v with
        flags := { s.flags with zero := decide (v = 0), noninv := ni }, pending := none, done := true } ∧
      (ni = true ↔ s.val ra % s.val rm ≠ 0 ∧ Nat.gcd (s.val ra) (s.val rm) ≠ 1) ∧
      (s.val ra % s.val rm = 0 ∨ Nat.gcd (s.val ra) (s.val rm) ≠ 1 → v = 0) ∧
      (s.val ra % s.val rm ≠ 0 → Nat.gcd (s.val ra) (s.val rm) = 1 →
        v.toNat < s.val rm ∧ v.toNat * s.val ra % s.val rm = 1)

/-! ## The point unit and the scalar multiplier -/

/-- 44 R162, R166, R167: TOJAC lifts (x, y) unreduced to (x, y, 1) and writes INF; ISINF writes INF of a pair and needs no
curve; ONCURVE writes ONC, both range checks and the curve equation; nothing else is written. -/
def Obligations.LiftAndPointTests : Prop :=
  ∀ (s : State) (rd rd1 rd2 ra ra1 : Reg), ra1.val = ra.val + 1 →
    (rd1.val = rd.val + 1 → rd2.val = rd.val + 2 → Writable s rd →
      exec (.tojac rd ra) s = .next { ((s.setBig rd (s.big ra)).setBig rd1 (s.big ra1)).setBig rd2 1 with
        flags := { s.flags with inf := decide (s.val ra1 = 0) }, pending := none, done := true }) ∧
    exec (.isinf ra) s = .next { s with
      flags := { s.flags with inf := decide (s.val ra1 = 0) }, pending := none, done := true } ∧
    (CurveReady s → ∃ b : Bool, (b = true ↔ OnCurve s (s.val ra) (s.val ra1)) ∧
      exec (.oncurve ra) s = .next { s with
        flags := { s.flags with onc := b }, pending := none, done := true })

/-- 44 R163: FROMJAC writes (X · zi² mod P, Y · zi³ mod P) for zi the inverse of Z, and INF, and nothing else. -/
def Obligations.FromjacResult : Prop :=
  ∀ (s : State) (rd rd1 ra ra1 ra2 : Reg), rd1.val = rd.val + 1 → ra1.val = ra.val + 1 → ra2.val = ra.val + 2 →
    CurveReady s → Writable s rd →
    let zi := (inv (s.val ra2) (s.val regP)).1
    ∃ x y : Big, x.toNat = s.val ra * zi ^ 2 % s.val regP ∧ y.toNat = s.val ra1 * zi ^ 3 % s.val regP ∧
      exec (.fromjac rd ra) s = .next { (s.setBig rd x).setBig rd1 y with
        flags := { s.flags with inf := decide (y = 0) }, pending := none, done := true }

/-- 44 R164: PDBL writes (0, 0, 0) when Y = 0, and the doubling formulas reduced mod P otherwise, and INF, and nothing
else. -/
def Obligations.PdblResult : Prop :=
  ∀ (s : State) (rd rd1 rd2 ra ra1 ra2 : Reg), rd1.val = rd.val + 1 → rd2.val = rd.val + 2 →
    ra1.val = ra.val + 1 → ra2.val = ra.val + 2 → CurveReady s → Writable s rd →
    let p : Int := s.val regP
    let x : Int := s.val ra
    let y : Int := s.val ra1
    let z : Int := s.val ra2
    let ysq := y * y % p
    let t := 4 * x * ysq % p
    let m := (3 * x * x + s.val regA * z ^ 4) % p
    ∃ x3 y3 z3 : Big,
      exec (.pdbl rd ra) s = .next { ((s.setBig rd x3).setBig rd1 y3).setBig rd2 z3 with
        flags := { s.flags with inf := decide (y3 = 0) }, pending := none, done := true } ∧
      (y = 0 → x3 = 0 ∧ y3 = 0 ∧ z3 = 0) ∧
      (y ≠ 0 → (x3.toNat : Int) = (m * m - 2 * t) % p ∧
        (y3.toNat : Int) = (m * (t - x3.toNat) - 8 * ysq * ysq) % p ∧ (z3.toNat : Int) = 2 * y * z % p)

/-- 44 R165: PADD. A first operand at infinity gives the second raw, a second at infinity the first raw; equal U and
different S give (0, 0, 0); equal U and S give the doubling of R164; any others the addition formulas, reduced mod P. It
writes INF, and nothing else. -/
def Obligations.PaddResult : Prop :=
  ∀ (s : State) (rd rd1 rd2 ra ra1 ra2 rb rb1 rb2 : Reg), rd1.val = rd.val + 1 → rd2.val = rd.val + 2 →
    ra1.val = ra.val + 1 → ra2.val = ra.val + 2 → rb1.val = rb.val + 1 → rb2.val = rb.val + 2 →
    CurveReady s → Writable s rd →
    let p : Int := s.val regP
    let x1 : Int := s.val ra
    let y1 : Int := s.val ra1
    let z1 : Int := s.val ra2
    let x2 : Int := s.val rb
    let y2 : Int := s.val rb1
    let z2 : Int := s.val rb2
    let u1 := x1 * z2 * z2 % p
    let u2 := x2 * z1 * z1 % p
    let s1 := y1 * z2 * z2 * z2 % p
    let s2 := y2 * z1 * z1 * z1 % p
    let h2 := (u2 - u1) * (u2 - u1) % p
    let h3 := (u2 - u1) * h2 % p
    let u1h2 := u1 * h2 % p
    ∃ x3 y3 z3 : Big,
      exec (.padd rd ra rb) s = .next { ((s.setBig rd x3).setBig rd1 y3).setBig rd2 z3 with
        flags := { s.flags with inf := decide (y3 = 0) }, pending := none, done := true } ∧
      (y1 = 0 → x3 = s.big rb ∧ y3 = s.big rb1 ∧ z3 = s.big rb2) ∧
      (y1 ≠ 0 → y2 = 0 → x3 = s.big ra ∧ y3 = s.big ra1 ∧ z3 = s.big ra2) ∧
      (y1 ≠ 0 → y2 ≠ 0 → u1 = u2 → s1 ≠ s2 → x3 = 0 ∧ y3 = 0 ∧ z3 = 0) ∧
      (y1 ≠ 0 → y2 ≠ 0 → u1 = u2 → s1 = s2 → (⟨x3.toNat, y3.toNat, z3.toNat⟩ : Jac) =
        jdbl (s.val regP) (s.val regA) ⟨s.val ra, s.val ra1, s.val ra2⟩) ∧
      (y1 ≠ 0 → y2 ≠ 0 → u1 ≠ u2 →
        (x3.toNat : Int) = ((s2 - s1) * (s2 - s1) - h3 - 2 * u1h2) % p ∧
        (y3.toNat : Int) = ((s2 - s1) * (u1h2 - x3.toNat) - s1 * h3) % p ∧
        (z3.toNat : Int) = (u2 - u1) * z1 * z2 % p)

/-- 45 R180: SMUL writes the triple mul(pt(ra), k) for k = BR[rb], or -BR[rb] under NEG, and INF, and nothing else; it
accepts every scalar. mul is the recursion of R180; ScalarMultiplicationLoop states its second reading. -/
def Obligations.SmulResult : Prop :=
  ∀ (s : State) (neg : Bool) (rd rd1 rd2 ra ra1 ra2 rb : Reg), rd1.val = rd.val + 1 → rd2.val = rd.val + 2 →
    ra1.val = ra.val + 1 → ra2.val = ra.val + 2 → OrderReady s → Writable s rd →
    let k : Int := if neg then -(s.val rb : Int) else s.val rb
    let q := mul (s.val regP) (s.val regA) (s.val regN) ⟨s.val ra, s.val ra1, s.val ra2⟩ k
    ∃ x y z : Big, x.toNat = q.x ∧ y.toNat = q.y ∧ z.toNat = q.z ∧
      exec (.smul neg rd ra rb) s = .next { ((s.setBig rd x).setBig rd1 y).setBig rd2 z with
        flags := { s.flags with inf := decide (y = 0) }, pending := none, done := true }

/-- 45 R181: the left-to-right loop over the bits of the scalar gives the same triple for every point and scalar. -/
def Obligations.ScalarMultiplicationLoop : Prop :=
  ∀ (p a n : Nat) (q : Jac) (k : Int), 0 < n → mul p a n q k = mulIter p a n q k

/-- 44 R168, 45 R183: FROMJAC after TOJAC is reduction mod p; adding INF gives the other operand (on the right, of a
point not at infinity: for one at infinity R165 returns INF); adding a point to itself doubles it; scalars count modulo
the order. -/
def Obligations.PointLaws : Prop :=
  ∀ (p a n : Nat) (q : Jac) (x y : Nat) (k : Int), 0 < p → 0 < n →
    fromjac p (tojac (x, y)) = (x % p, y % p) ∧
    jadd p a ⟨0, 0, 0⟩ q = q ∧
    (q.y ≠ 0 → jadd p a q ⟨0, 0, 0⟩ = q ∧ jadd p a q q = jdbl p a q) ∧
    (n ≠ 1 ∨ k ≠ 1 → mul p a n q k = mul p a n q (k % n))

/-! ## ECDSA -/

/-- 46 R193, R194: KEYGEN writes (QX, QY) = fromjac(mul(tojac(G), D)), QTAG and INF, and nothing else; QCHECK of a point
on the curve that is not at infinity only completes. -/
def Obligations.KeyCommands : Prop :=
  ∀ s : State,
    (OrderReady s → s.dtag = s.curveId → 1 ≤ s.val regD → s.val regD ≤ s.val regN - 1 →
      let q := fromjac (s.val regP)
        (mul (s.val regP) (s.val regA) (s.val regN) ⟨s.val regGX, s.val regGY, 1⟩ (s.val regD))
      ∃ x y : Big, x.toNat = q.1 ∧ y.toNat = q.2 ∧
        exec .keygen s = .next { (s.setBig regQX x).setBig regQY y with
          qtag := s.curveId, flags := { s.flags with inf := decide (y = 0) }, pending := none, done := true }) ∧
    (CurveReady s → s.qtag = s.curveId → s.val regQY ≠ 0 → OnCurve s (s.val regQX) (s.val regQY) →
      exec .qcheck s = .next { s with pending := none, done := true })

/-- 46 R192, R195: SIGN writes E, the leading min(DLEN, bytelen(N)) digest bytes as a big-endian integer; SR, the x of
K · G reduced mod N; SS = K⁻¹ · (E + SR · D) mod N; and DEGEN; nothing else. When K has an inverse, SS · K ≡ E + SR · D
(mod N). -/
def Obligations.SignResult : Prop :=
  ∀ s : State, OrderReady s → s.dtag = s.curveId → 1 ≤ s.val regD → s.val regD ≤ s.val regN - 1 →
    1 ≤ s.val regK → s.val regK ≤ s.val regN - 1 → s.hstate = .done → s.dkind = .hash →
    let n := s.val regN
    let l := min s.dlen.toNat ((Nat.size n + 7) / 8)
    let g := fromjac (s.val regP) (mul (s.val regP) (s.val regA) n ⟨s.val regGX, s.val regGY, 1⟩ (s.val regK))
    ∃ e r t : Big, e.toNat = Nat.ofDigits 256 ((s.digest.toList.take l).reverse.map BitVec.toNat) ∧
      r.toNat = g.1 % n ∧ t.toNat = (inv (s.val regK) n).1 * (e.toNat + r.toNat * s.val regD) % n ∧
      (Nat.gcd (s.val regK) n = 1 → t.toNat * s.val regK % n = (e.toNat + r.toNat * s.val regD) % n) ∧
      exec .sign s = .next { ((s.setBig regE e).setBig regSR r).setBig regSS t with
        flags := { s.flags with degen := decide (r = 0 ∨ t = 0) }, pending := none, done := true }

/-- 46 R192, R196: VERIFY writes E as SIGN does, and VALID; nothing else. VALID is 0, with no error, when r or s is not
in [1, N - 1]; otherwise it says whether u1 · G + u2 · Q is not at infinity and has x ≡ r (mod N), for w = s⁻¹,
u1 = e · w mod N, u2 = r · w mod N. -/
def Obligations.VerifyResult : Prop :=
  ∀ s : State, OrderReady s → s.qtag = s.curveId → OnCurve s (s.val regQX) (s.val regQY) →
    s.hstate = .done → s.dkind = .hash →
    let p := s.val regP
    let n := s.val regN
    let r := s.val regSR
    let t := s.val regSS
    let l := min s.dlen.toNat ((Nat.size n + 7) / 8)
    let w := (inv t n).1
    let times (x y k : Nat) : Jac := mul p (s.val regA) n ⟨x, y, 1⟩ k
    ∃ (e : Big) (b : Bool), e.toNat = Nat.ofDigits 256 ((s.digest.toList.take l).reverse.map BitVec.toNat) ∧
      exec .verify s = .next { s.setBig regE e with
        flags := { s.flags with valid := b }, pending := none, done := true } ∧
      (let v := fromjac p (jadd p (s.val regA) (times (s.val regGX) (s.val regGY) (e.toNat * w % n))
        (times (s.val regQX) (s.val regQY) (r * w % n)))
      (b = true ↔ (1 ≤ r ∧ r ≤ n - 1) ∧ (1 ≤ t ∧ t ≤ n - 1) ∧ v.2 ≠ 0 ∧ v.1 % n = r))

/-! ## The hash engine -/

/-- 47 R211, R213: HINIT of a known algorithm, with olen 0 but for SHAKE and at most 64 there, opens a session in every
state; an HMAC key survives; nothing else changes. -/
def Obligations.HinitResult : Prop :=
  ∀ (s : State) (code : BitVec 5) (olen : BitVec 7) (a : Alg), Alg.ofCode code = some a →
    (a.isShake = false → olen = 0) → (a.isShake = true → olen.toNat ≤ 64) →
    exec (.hinit code olen) s = .next { s with
      run := { cv := hashIv a, buf := [], count := 0 }
      alg := some a
      outlen := if a.isShake = true ∧ olen ≠ 0 then olen else a.digestSize
      hstate := .absorb
      hmact := false
      digest := Vector.replicate 64 0
      dlen := 0
      dkind := .hash
      pending := none
      done := true }

/-- 47 R214, R215: a data port write. In a session it appends its four bytes, the least significant first, or its one
byte, by absorb_byte; while BUSY = 1 it raises E_BUSY; while ERR = 1 it is ignored; with no session it raises E_HSEQ.
absorb_byte counts the byte and compresses the buffer when it is full. -/
def Obligations.DataPortWrites : Prop :=
  (∀ (s : State) (v : Word) (b : Byte),
    (∀ a, s.busy = false → s.err = false → s.hstate = .absorb → s.alg = some a →
      (let bytes := [BitVec.ofNat 8 v.toNat, BitVec.ofNat 8 (v.toNat / 2 ^ 8), BitVec.ofNat 8 (v.toNat / 2 ^ 16),
        BitVec.ofNat 8 (v.toNat / 2 ^ 24)]
      exec (.hashDin v) s = .next { s with run := bytes.foldl (absorbByte a) s.run }) ∧
      exec (.hashDinb b) s = .next { s with run := absorbByte a s.run b }) ∧
    (s.busy = true → exec (.hashDin v) s = .next (raise .busy 0xFF 0x040 s) ∧
      exec (.hashDinb b) s = .next (raise .busy 0xFF 0x044 s)) ∧
    (s.busy = false → s.err = true → exec (.hashDin v) s = .next s ∧ exec (.hashDinb b) s = .next s) ∧
    (s.busy = false → s.err = false → s.hstate ≠ .absorb →
      exec (.hashDin v) s = .next (raise .hseq 0xFF 0x040 s) ∧
      exec (.hashDinb b) s = .next (raise .hseq 0xFF 0x044 s))) ∧
  (∀ (a : Alg) (r : HashRun) (b : Byte),
    (absorbByte a r b).count.toNat = (r.count.toNat + 1) % 2 ^ 64 ∧
    (r.buf.length + 1 < a.block → (absorbByte a r b).buf = r.buf ++ [b] ∧ (absorbByte a r b).cv = r.cv) ∧
    (r.buf.length + 1 = a.block → (absorbByte a r b).buf = [] ∧
      (absorbByte a r b).cv = compress a r.cv (r.buf ++ [b])))

/-- 47 R216: HFINAL of an open hash session writes final(ALG, CV, BUF, HCOUNT, OUTLEN) to DIGEST, the rest of it 0, DLEN,
DKIND and HSTATE, and nothing else. That CV and BUF too keep their values is log entry 8, the model's choice. -/
def Obligations.HfinalResult : Prop :=
  ∀ (s : State) (a : Alg), s.hstate = .absorb → s.hmact = false → s.alg = some a →
    ∃ d : Vector Byte 64,
      exec .hfinal s = .next { s with
        digest := d, dlen := s.outlen, dkind := .hash, hstate := .done, pending := none, done := true } ∧
      ∀ i : Fin 64, d.get i =
        if i.val < s.outlen.toNat then (hashFinal a s.run s.outlen.toNat).getD i.val 0 else 0

/-- 47 R218: absorbing a message byte by byte and finalising gives the digest of the whole padded message, block after
block; and it has exactly n bytes, for n up to the table's size or, for SHAKE, 64. -/
def Obligations.StreamingGivesTheMessageDigest : Prop :=
  ∀ (a : Alg) (m : List Byte) (n : Nat),
    hashFinal a (absorbBytes a (hashStart a) m) n = messageDigest a m n ∧
    (n ≤ a.digestSize.toNat ∨ (a.isShake = true ∧ n ≤ 64) → (messageDigest a m n).length = n)

/-- 47 R213 to R218: from every state with ERR = 0, HINIT, any sequence of data port writes and HFINAL all complete, and
the DLEN leading bytes of DIGEST are then the digest of the message the writes carried, however they split it. -/
def Obligations.HashSessionGivesTheDigest : Prop :=
  ∀ (s : State) (code : BitVec 5) (olen : BitVec 7) (a : Alg) (ports : List Port), s.err = false →
    Alg.ofCode code = some a → (a.isShake = false → olen = 0) → (a.isShake = true → olen.toNat ≤ 64) →
    ∃ t1 t2 t3, exec (.hinit code olen) s = .next t1 ∧ feed ports t1 = some t2 ∧ exec .hfinal t2 = .next t3 ∧
      t3.err = false ∧ t3.hstate = .done ∧ t3.dkind = .hash ∧ t3.dlen = a.outlen olen ∧
      t3.digest.toList.take t3.dlen.toNat = messageDigest a (ports.flatMap Port.bytes) (a.outlen olen).toNat

/-- 48 R241, R242: the compression of SHA-224, SHA-256, SHA-384 and SHA-512 is the rule's schedule and rounds. -/
def Obligations.Sha2CompressionRule : Prop :=
  (∀ (a : Alg) (hs : List (BitVec 32)) (block : List Byte), a = .sha224 ∨ a = .sha256 →
    ∃ out, compress a (.words32 hs) block = .words32 out ∧
      Sha2Rule 32 64
        (fun x => x.rotateRight 2 ^^^ x.rotateRight 13 ^^^ x.rotateRight 22)
        (fun x => x.rotateRight 6 ^^^ x.rotateRight 11 ^^^ x.rotateRight 25)
        (fun x => x.rotateRight 7 ^^^ x.rotateRight 18 ^^^ (x >>> 3))
        (fun x => x.rotateRight 17 ^^^ x.rotateRight 19 ^^^ (x >>> 10))
        (fun t => k256.getD t 0) (fun j => hs.getD j 0) block out) ∧
  (∀ (a : Alg) (hs : List (BitVec 64)) (block : List Byte), a = .sha384 ∨ a = .sha512 →
    ∃ out, compress a (.words64 hs) block = .words64 out ∧
      Sha2Rule 64 80
        (fun x => x.rotateRight 28 ^^^ x.rotateRight 34 ^^^ x.rotateRight 39)
        (fun x => x.rotateRight 14 ^^^ x.rotateRight 18 ^^^ x.rotateRight 41)
        (fun x => x.rotateRight 1 ^^^ x.rotateRight 8 ^^^ (x >>> 7))
        (fun x => x.rotateRight 19 ^^^ x.rotateRight 61 ^^^ (x >>> 6))
        (fun t => k512.getD t 0) (fun j => hs.getD j 0) block out)

/-- 48 R247, R248: a round of Keccak-f on lanes A[x, y], and its rotation offsets along the path (1, 0), then
(x, y) <- (y, 2x + 3y). -/
def Obligations.KeccakRoundRule : Prop :=
  (∀ (a : List (BitVec 64)) (rc : BitVec 64), a.length = 25 →
    ∃ (c : Nat → BitVec 64) (bq : Nat → Nat → BitVec 64),
      (∀ x, x < 5 → c x = lane a x 0 ^^^ lane a x 1 ^^^ lane a x 2 ^^^ lane a x 3 ^^^ lane a x 4) ∧
      (∀ x y, x < 5 → y < 5 → bq y ((2 * x + 3 * y) % 5) =
        (lane a x y ^^^ (c ((x + 4) % 5) ^^^ (c ((x + 1) % 5)).rotateLeft 1)).rotateLeft
          (keccakOffsets.getD (x + 5 * y) 0)) ∧
      (keccakRound a rc).length = 25 ∧
      ∀ x y, x < 5 → y < 5 → lane (keccakRound a rc) x y =
        (bq x y ^^^ (~~~(bq ((x + 1) % 5) y) &&& bq ((x + 2) % 5) y)) ^^^ (if x = 0 ∧ y = 0 then rc else 0)) ∧
  keccakOffsets.getD 0 0 = 0 ∧
  ∀ t, t < 24 →
    let xy := Nat.iterate (fun q : Nat × Nat => (q.2, (2 * q.1 + 3 * q.2) % 5)) t (1, 0)
    keccakOffsets.getD (xy.1 + 5 * xy.2) 0 = (t + 1) * (t + 2) / 2 % 64

/-! ## HMAC -/

/-- 49 R270: HMKEY of a known algorithm other than SHAKE, with KLEN at most 256, derives IPK and OPK from KEYBUF in every
state, abandons the session, and changes nothing else. That CV and BUF too keep their values is log entry 8, the model's
choice. -/
def Obligations.HmkeyResult : Prop :=
  ∀ (s : State) (code : BitVec 5) (a : Alg), Alg.ofCode code = some a → a.isShake = false → s.klen.toNat ≤ 256 →
    let key := s.keybuf.toList.take s.klen.toNat
    exec (.hmkey code) s = .next { s with
      ipk := (blockKey a key).map fun b => b ^^^ 0x36
      opk := (blockKey a key).map fun b => b ^^^ 0x5C
      halg := some a
      hkv := true
      hstate := .idle
      hmact := false
      alg := none
      outlen := 0
      run := { s.run with count := 0 }
      digest := Vector.replicate 64 0
      dlen := 0
      dkind := .hash
      pending := none
      done := true }

/-- 49 R271: HMSTART with an HMAC key opens the inner session in every state and absorbs IPK: HCOUNT is the length of
IPK. 49 R272: HMFINAL of an inner session finishes the inner hash, runs the outer hash over OPK and the inner digest, and
writes the tag to DIGEST, the rest of it 0, with DLEN, DKIND = 1 and HSTATE; HCOUNT is then the length of what the outer
hash absorbed. The HMAC key is kept, and nothing else changes. That HMFINAL leaves CV and BUF as they are before the outer
hash's last padded block is log entry 8, the model's choice; HCOUNT follows the pseudocode of R272: log entry 19. -/
def Obligations.HmstartAndHmfinalResults : Prop :=
  ∀ (s : State) (a : Alg), s.halg = some a →
    (s.hkv = true → ∃ r : HashRun, r = absorbBytes a { cv := hashIv a, buf := [], count := 0 } s.ipk ∧
      r.count = BitVec.ofNat 64 s.ipk.length ∧
      exec .hmstart s = .next { s with
        run := r
        alg := some a
        outlen := a.digestSize
        hstate := .absorb
        hmact := true
        digest := Vector.replicate 64 0
        dlen := 0
        dkind := .hash
        pending := none
        done := true }) ∧
    (s.hstate = .absorb → s.hmact = true → s.alg = some a →
      let inner := hashFinal a s.run s.outlen.toNat
      ∃ (r : HashRun) (d : Vector Byte 64),
        r = absorbBytes a { cv := hashIv a, buf := [], count := 0 } (s.opk ++ inner) ∧
        r.count = BitVec.ofNat 64 (s.opk.length + inner.length) ∧
        exec .hmfinal s = .next { s with
          run := r
          digest := d
          dlen := s.outlen
          dkind := .mac
          hstate := .done
          hmact := false
          pending := none
          done := true } ∧
        ∀ i : Fin 64, d.get i =
          if i.val < s.outlen.toNat then (hashFinal a r s.outlen.toNat).getD i.val 0 else 0)

/-- 49 R273: from every state with ERR = 0 and KLEN at most 256, HMKEY, HMSTART, any sequence of data port writes and
HMFINAL all complete, and the DLEN leading bytes of DIGEST are then H(OPK ‖ H(IPK ‖ m)) for the message m the writes
carried, however they split it. -/
def Obligations.HmacSessionGivesTheTag : Prop :=
  ∀ (s : State) (code : BitVec 5) (a : Alg) (ports : List Port), s.err = false → Alg.ofCode code = some a →
    a.isShake = false → s.klen.toNat ≤ 256 →
    ∃ t1 t2 t3 t4, exec (.hmkey code) s = .next t1 ∧ exec .hmstart t1 = .next t2 ∧ feed ports t2 = some t3 ∧
      exec .hmfinal t3 = .next t4 ∧ t4.err = false ∧ t4.hstate = .done ∧ t4.dkind = .mac ∧ t4.hkv = true ∧
      t4.dlen = a.digestSize ∧
      t4.digest.toList.take t4.dlen.toNat =
        hmacTag a (s.keybuf.toList.take s.klen.toNat) (ports.flatMap Port.bytes)

end
end

