-- ==== Sys2Proof/Laws/State.lean ====
section
/-! SUPPORT. One lemma per field per update of State, true by rfl: no later proof unfolds a record update. -/

namespace Sys2Proof.Machine

/-! Writing a big register. -/

@[simp] theorem setBig_br (s : State) (i : Reg) (v : Big) : (s.setBig i v).br = s.br.set i.val v i.isLt := rfl
@[simp] theorem setBig_curveLock (s : State) (i : Reg) (v : Big) : (s.setBig i v).curveLock = s.curveLock := rfl
@[simp] theorem setBig_done (s : State) (i : Reg) (v : Big) : (s.setBig i v).done = s.done := rfl
@[simp] theorem setBig_err (s : State) (i : Reg) (v : Big) : (s.setBig i v).err = s.err := rfl
@[simp] theorem setBig_errcode (s : State) (i : Reg) (v : Big) : (s.setBig i v).errcode = s.errcode := rfl
@[simp] theorem setBig_flags (s : State) (i : Reg) (v : Big) : (s.setBig i v).flags = s.flags := rfl
@[simp] theorem setBig_doneIe (s : State) (i : Reg) (v : Big) : (s.setBig i v).doneIe = s.doneIe := rfl
@[simp] theorem setBig_errIe (s : State) (i : Reg) (v : Big) : (s.setBig i v).errIe = s.errIe := rfl
@[simp] theorem setBig_curveId (s : State) (i : Reg) (v : Big) : (s.setBig i v).curveId = s.curveId := rfl
@[simp] theorem setBig_dtag (s : State) (i : Reg) (v : Big) : (s.setBig i v).dtag = s.dtag := rfl
@[simp] theorem setBig_qtag (s : State) (i : Reg) (v : Big) : (s.setBig i v).qtag = s.qtag := rfl
@[simp] theorem setBig_hstate (s : State) (i : Reg) (v : Big) : (s.setBig i v).hstate = s.hstate := rfl
@[simp] theorem setBig_hmact (s : State) (i : Reg) (v : Big) : (s.setBig i v).hmact = s.hmact := rfl
@[simp] theorem setBig_hkv (s : State) (i : Reg) (v : Big) : (s.setBig i v).hkv = s.hkv := rfl
@[simp] theorem setBig_dkind (s : State) (i : Reg) (v : Big) : (s.setBig i v).dkind = s.dkind := rfl
@[simp] theorem setBig_alg (s : State) (i : Reg) (v : Big) : (s.setBig i v).alg = s.alg := rfl
@[simp] theorem setBig_halg (s : State) (i : Reg) (v : Big) : (s.setBig i v).halg = s.halg := rfl
@[simp] theorem setBig_outlen (s : State) (i : Reg) (v : Big) : (s.setBig i v).outlen = s.outlen := rfl
@[simp] theorem setBig_dlen (s : State) (i : Reg) (v : Big) : (s.setBig i v).dlen = s.dlen := rfl
@[simp] theorem setBig_run (s : State) (i : Reg) (v : Big) : (s.setBig i v).run = s.run := rfl
@[simp] theorem setBig_klen (s : State) (i : Reg) (v : Big) : (s.setBig i v).klen = s.klen := rfl
@[simp] theorem setBig_digest (s : State) (i : Reg) (v : Big) : (s.setBig i v).digest = s.digest := rfl
@[simp] theorem setBig_keybuf (s : State) (i : Reg) (v : Big) : (s.setBig i v).keybuf = s.keybuf := rfl
@[simp] theorem setBig_ipk (s : State) (i : Reg) (v : Big) : (s.setBig i v).ipk = s.ipk := rfl
@[simp] theorem setBig_opk (s : State) (i : Reg) (v : Big) : (s.setBig i v).opk = s.opk := rfl
@[simp] theorem setBig_pending (s : State) (i : Reg) (v : Big) : (s.setBig i v).pending = s.pending := rfl
@[simp] theorem setBig_rdata (s : State) (i : Reg) (v : Big) : (s.setBig i v).rdata = s.rdata := rfl
@[simp] theorem setBig_drawn (s : State) (i : Reg) (v : Big) : (s.setBig i v).drawn = s.drawn := rfl
@[simp] theorem setBig_inputs (s : State) (i : Reg) (v : Big) : (s.setBig i v).inputs = s.inputs := rfl

/-! Writing FLAGS. -/

@[simp] theorem setFlags_br (s : State) (f : Flags) : (s.setFlags f).br = s.br := rfl
@[simp] theorem setFlags_curveLock (s : State) (f : Flags) : (s.setFlags f).curveLock = s.curveLock := rfl
@[simp] theorem setFlags_done (s : State) (f : Flags) : (s.setFlags f).done = s.done := rfl
@[simp] theorem setFlags_err (s : State) (f : Flags) : (s.setFlags f).err = s.err := rfl
@[simp] theorem setFlags_errcode (s : State) (f : Flags) : (s.setFlags f).errcode = s.errcode := rfl
@[simp] theorem setFlags_flags (s : State) (f : Flags) : (s.setFlags f).flags = f := rfl
@[simp] theorem setFlags_doneIe (s : State) (f : Flags) : (s.setFlags f).doneIe = s.doneIe := rfl
@[simp] theorem setFlags_errIe (s : State) (f : Flags) : (s.setFlags f).errIe = s.errIe := rfl
@[simp] theorem setFlags_curveId (s : State) (f : Flags) : (s.setFlags f).curveId = s.curveId := rfl
@[simp] theorem setFlags_dtag (s : State) (f : Flags) : (s.setFlags f).dtag = s.dtag := rfl
@[simp] theorem setFlags_qtag (s : State) (f : Flags) : (s.setFlags f).qtag = s.qtag := rfl
@[simp] theorem setFlags_hstate (s : State) (f : Flags) : (s.setFlags f).hstate = s.hstate := rfl
@[simp] theorem setFlags_hmact (s : State) (f : Flags) : (s.setFlags f).hmact = s.hmact := rfl
@[simp] theorem setFlags_hkv (s : State) (f : Flags) : (s.setFlags f).hkv = s.hkv := rfl
@[simp] theorem setFlags_dkind (s : State) (f : Flags) : (s.setFlags f).dkind = s.dkind := rfl
@[simp] theorem setFlags_alg (s : State) (f : Flags) : (s.setFlags f).alg = s.alg := rfl
@[simp] theorem setFlags_halg (s : State) (f : Flags) : (s.setFlags f).halg = s.halg := rfl
@[simp] theorem setFlags_outlen (s : State) (f : Flags) : (s.setFlags f).outlen = s.outlen := rfl
@[simp] theorem setFlags_dlen (s : State) (f : Flags) : (s.setFlags f).dlen = s.dlen := rfl
@[simp] theorem setFlags_run (s : State) (f : Flags) : (s.setFlags f).run = s.run := rfl
@[simp] theorem setFlags_klen (s : State) (f : Flags) : (s.setFlags f).klen = s.klen := rfl
@[simp] theorem setFlags_digest (s : State) (f : Flags) : (s.setFlags f).digest = s.digest := rfl
@[simp] theorem setFlags_keybuf (s : State) (f : Flags) : (s.setFlags f).keybuf = s.keybuf := rfl
@[simp] theorem setFlags_ipk (s : State) (f : Flags) : (s.setFlags f).ipk = s.ipk := rfl
@[simp] theorem setFlags_opk (s : State) (f : Flags) : (s.setFlags f).opk = s.opk := rfl
@[simp] theorem setFlags_pending (s : State) (f : Flags) : (s.setFlags f).pending = s.pending := rfl
@[simp] theorem setFlags_rdata (s : State) (f : Flags) : (s.setFlags f).rdata = s.rdata := rfl
@[simp] theorem setFlags_drawn (s : State) (f : Flags) : (s.setFlags f).drawn = s.drawn := rfl
@[simp] theorem setFlags_inputs (s : State) (f : Flags) : (s.setFlags f).inputs = s.inputs := rfl

/-! Raising an error. -/

@[simp] theorem raise_br (e : Err) (eop : BitVec 8) (eoff : BitVec 16) (s : State) : (raise e eop eoff s).br = s.br := rfl
@[simp] theorem raise_curveLock (e : Err) (eop : BitVec 8) (eoff : BitVec 16) (s : State) : (raise e eop eoff s).curveLock = s.curveLock := rfl
@[simp] theorem raise_done (e : Err) (eop : BitVec 8) (eoff : BitVec 16) (s : State) : (raise e eop eoff s).done = s.done := rfl
@[simp] theorem raise_err (e : Err) (eop : BitVec 8) (eoff : BitVec 16) (s : State) : (raise e eop eoff s).err = true := rfl
@[simp] theorem raise_errcode (e : Err) (eop : BitVec 8) (eoff : BitVec 16) (s : State) : (raise e eop eoff s).errcode = if s.err then s.errcode else errWord e eop eoff := rfl
@[simp] theorem raise_flags (e : Err) (eop : BitVec 8) (eoff : BitVec 16) (s : State) : (raise e eop eoff s).flags = s.flags := rfl
@[simp] theorem raise_doneIe (e : Err) (eop : BitVec 8) (eoff : BitVec 16) (s : State) : (raise e eop eoff s).doneIe = s.doneIe := rfl
@[simp] theorem raise_errIe (e : Err) (eop : BitVec 8) (eoff : BitVec 16) (s : State) : (raise e eop eoff s).errIe = s.errIe := rfl
@[simp] theorem raise_curveId (e : Err) (eop : BitVec 8) (eoff : BitVec 16) (s : State) : (raise e eop eoff s).curveId = s.curveId := rfl
@[simp] theorem raise_dtag (e : Err) (eop : BitVec 8) (eoff : BitVec 16) (s : State) : (raise e eop eoff s).dtag = s.dtag := rfl
@[simp] theorem raise_qtag (e : Err) (eop : BitVec 8) (eoff : BitVec 16) (s : State) : (raise e eop eoff s).qtag = s.qtag := rfl
@[simp] theorem raise_hstate (e : Err) (eop : BitVec 8) (eoff : BitVec 16) (s : State) : (raise e eop eoff s).hstate = s.hstate := rfl
@[simp] theorem raise_hmact (e : Err) (eop : BitVec 8) (eoff : BitVec 16) (s : State) : (raise e eop eoff s).hmact = s.hmact := rfl
@[simp] theorem raise_hkv (e : Err) (eop : BitVec 8) (eoff : BitVec 16) (s : State) : (raise e eop eoff s).hkv = s.hkv := rfl
@[simp] theorem raise_dkind (e : Err) (eop : BitVec 8) (eoff : BitVec 16) (s : State) : (raise e eop eoff s).dkind = s.dkind := rfl
@[simp] theorem raise_alg (e : Err) (eop : BitVec 8) (eoff : BitVec 16) (s : State) : (raise e eop eoff s).alg = s.alg := rfl
@[simp] theorem raise_halg (e : Err) (eop : BitVec 8) (eoff : BitVec 16) (s : State) : (raise e eop eoff s).halg = s.halg := rfl
@[simp] theorem raise_outlen (e : Err) (eop : BitVec 8) (eoff : BitVec 16) (s : State) : (raise e eop eoff s).outlen = s.outlen := rfl
@[simp] theorem raise_dlen (e : Err) (eop : BitVec 8) (eoff : BitVec 16) (s : State) : (raise e eop eoff s).dlen = s.dlen := rfl
@[simp] theorem raise_run (e : Err) (eop : BitVec 8) (eoff : BitVec 16) (s : State) : (raise e eop eoff s).run = s.run := rfl
@[simp] theorem raise_klen (e : Err) (eop : BitVec 8) (eoff : BitVec 16) (s : State) : (raise e eop eoff s).klen = s.klen := rfl
@[simp] theorem raise_digest (e : Err) (eop : BitVec 8) (eoff : BitVec 16) (s : State) : (raise e eop eoff s).digest = s.digest := rfl
@[simp] theorem raise_keybuf (e : Err) (eop : BitVec 8) (eoff : BitVec 16) (s : State) : (raise e eop eoff s).keybuf = s.keybuf := rfl
@[simp] theorem raise_ipk (e : Err) (eop : BitVec 8) (eoff : BitVec 16) (s : State) : (raise e eop eoff s).ipk = s.ipk := rfl
@[simp] theorem raise_opk (e : Err) (eop : BitVec 8) (eoff : BitVec 16) (s : State) : (raise e eop eoff s).opk = s.opk := rfl
@[simp] theorem raise_pending (e : Err) (eop : BitVec 8) (eoff : BitVec 16) (s : State) : (raise e eop eoff s).pending = none := rfl
@[simp] theorem raise_rdata (e : Err) (eop : BitVec 8) (eoff : BitVec 16) (s : State) : (raise e eop eoff s).rdata = s.rdata := rfl
@[simp] theorem raise_drawn (e : Err) (eop : BitVec 8) (eoff : BitVec 16) (s : State) : (raise e eop eoff s).drawn = s.drawn := rfl
@[simp] theorem raise_inputs (e : Err) (eop : BitVec 8) (eoff : BitVec 16) (s : State) : (raise e eop eoff s).inputs = s.inputs := rfl

/-! Completing and latching a command. -/

@[simp] theorem complete_br (s : State) : (complete s).br = s.br := rfl
@[simp] theorem complete_curveLock (s : State) : (complete s).curveLock = s.curveLock := rfl
@[simp] theorem complete_done (s : State) : (complete s).done = true := rfl
@[simp] theorem complete_err (s : State) : (complete s).err = s.err := rfl
@[simp] theorem complete_errcode (s : State) : (complete s).errcode = s.errcode := rfl
@[simp] theorem complete_flags (s : State) : (complete s).flags = s.flags := rfl
@[simp] theorem complete_doneIe (s : State) : (complete s).doneIe = s.doneIe := rfl
@[simp] theorem complete_errIe (s : State) : (complete s).errIe = s.errIe := rfl
@[simp] theorem complete_curveId (s : State) : (complete s).curveId = s.curveId := rfl
@[simp] theorem complete_dtag (s : State) : (complete s).dtag = s.dtag := rfl
@[simp] theorem complete_qtag (s : State) : (complete s).qtag = s.qtag := rfl
@[simp] theorem complete_hstate (s : State) : (complete s).hstate = s.hstate := rfl
@[simp] theorem complete_hmact (s : State) : (complete s).hmact = s.hmact := rfl
@[simp] theorem complete_hkv (s : State) : (complete s).hkv = s.hkv := rfl
@[simp] theorem complete_dkind (s : State) : (complete s).dkind = s.dkind := rfl
@[simp] theorem complete_alg (s : State) : (complete s).alg = s.alg := rfl
@[simp] theorem complete_halg (s : State) : (complete s).halg = s.halg := rfl
@[simp] theorem complete_outlen (s : State) : (complete s).outlen = s.outlen := rfl
@[simp] theorem complete_dlen (s : State) : (complete s).dlen = s.dlen := rfl
@[simp] theorem complete_run (s : State) : (complete s).run = s.run := rfl
@[simp] theorem complete_klen (s : State) : (complete s).klen = s.klen := rfl
@[simp] theorem complete_digest (s : State) : (complete s).digest = s.digest := rfl
@[simp] theorem complete_keybuf (s : State) : (complete s).keybuf = s.keybuf := rfl
@[simp] theorem complete_ipk (s : State) : (complete s).ipk = s.ipk := rfl
@[simp] theorem complete_opk (s : State) : (complete s).opk = s.opk := rfl
@[simp] theorem complete_pending (s : State) : (complete s).pending = none := rfl
@[simp] theorem complete_rdata (s : State) : (complete s).rdata = s.rdata := rfl
@[simp] theorem complete_drawn (s : State) : (complete s).drawn = s.drawn := rfl
@[simp] theorem complete_inputs (s : State) : (complete s).inputs = s.inputs := rfl

@[simp] theorem latch_br (w : Word) (s : State) : (latch w s).br = s.br := rfl
@[simp] theorem latch_curveLock (w : Word) (s : State) : (latch w s).curveLock = s.curveLock := rfl
@[simp] theorem latch_done (w : Word) (s : State) : (latch w s).done = false := rfl
@[simp] theorem latch_err (w : Word) (s : State) : (latch w s).err = s.err := rfl
@[simp] theorem latch_errcode (w : Word) (s : State) : (latch w s).errcode = s.errcode := rfl
@[simp] theorem latch_flags (w : Word) (s : State) : (latch w s).flags = s.flags := rfl
@[simp] theorem latch_doneIe (w : Word) (s : State) : (latch w s).doneIe = s.doneIe := rfl
@[simp] theorem latch_errIe (w : Word) (s : State) : (latch w s).errIe = s.errIe := rfl
@[simp] theorem latch_curveId (w : Word) (s : State) : (latch w s).curveId = s.curveId := rfl
@[simp] theorem latch_dtag (w : Word) (s : State) : (latch w s).dtag = s.dtag := rfl
@[simp] theorem latch_qtag (w : Word) (s : State) : (latch w s).qtag = s.qtag := rfl
@[simp] theorem latch_hstate (w : Word) (s : State) : (latch w s).hstate = s.hstate := rfl
@[simp] theorem latch_hmact (w : Word) (s : State) : (latch w s).hmact = s.hmact := rfl
@[simp] theorem latch_hkv (w : Word) (s : State) : (latch w s).hkv = s.hkv := rfl
@[simp] theorem latch_dkind (w : Word) (s : State) : (latch w s).dkind = s.dkind := rfl
@[simp] theorem latch_alg (w : Word) (s : State) : (latch w s).alg = s.alg := rfl
@[simp] theorem latch_halg (w : Word) (s : State) : (latch w s).halg = s.halg := rfl
@[simp] theorem latch_outlen (w : Word) (s : State) : (latch w s).outlen = s.outlen := rfl
@[simp] theorem latch_dlen (w : Word) (s : State) : (latch w s).dlen = s.dlen := rfl
@[simp] theorem latch_run (w : Word) (s : State) : (latch w s).run = s.run := rfl
@[simp] theorem latch_klen (w : Word) (s : State) : (latch w s).klen = s.klen := rfl
@[simp] theorem latch_digest (w : Word) (s : State) : (latch w s).digest = s.digest := rfl
@[simp] theorem latch_keybuf (w : Word) (s : State) : (latch w s).keybuf = s.keybuf := rfl
@[simp] theorem latch_ipk (w : Word) (s : State) : (latch w s).ipk = s.ipk := rfl
@[simp] theorem latch_opk (w : Word) (s : State) : (latch w s).opk = s.opk := rfl
@[simp] theorem latch_pending (w : Word) (s : State) : (latch w s).pending = some w := rfl
@[simp] theorem latch_rdata (w : Word) (s : State) : (latch w s).rdata = s.rdata := rfl
@[simp] theorem latch_drawn (w : Word) (s : State) : (latch w s).drawn = s.drawn := rfl
@[simp] theorem latch_inputs (w : Word) (s : State) : (latch w s).inputs = s.inputs := rfl

/-! Clearing and writing DIGEST. -/

@[simp] theorem clearDigest_br (s : State) : (clearDigest s).br = s.br := rfl
@[simp] theorem clearDigest_curveLock (s : State) : (clearDigest s).curveLock = s.curveLock := rfl
@[simp] theorem clearDigest_done (s : State) : (clearDigest s).done = s.done := rfl
@[simp] theorem clearDigest_err (s : State) : (clearDigest s).err = s.err := rfl
@[simp] theorem clearDigest_errcode (s : State) : (clearDigest s).errcode = s.errcode := rfl
@[simp] theorem clearDigest_flags (s : State) : (clearDigest s).flags = s.flags := rfl
@[simp] theorem clearDigest_doneIe (s : State) : (clearDigest s).doneIe = s.doneIe := rfl
@[simp] theorem clearDigest_errIe (s : State) : (clearDigest s).errIe = s.errIe := rfl
@[simp] theorem clearDigest_curveId (s : State) : (clearDigest s).curveId = s.curveId := rfl
@[simp] theorem clearDigest_dtag (s : State) : (clearDigest s).dtag = s.dtag := rfl
@[simp] theorem clearDigest_qtag (s : State) : (clearDigest s).qtag = s.qtag := rfl
@[simp] theorem clearDigest_hstate (s : State) : (clearDigest s).hstate = s.hstate := rfl
@[simp] theorem clearDigest_hmact (s : State) : (clearDigest s).hmact = s.hmact := rfl
@[simp] theorem clearDigest_hkv (s : State) : (clearDigest s).hkv = s.hkv := rfl
@[simp] theorem clearDigest_dkind (s : State) : (clearDigest s).dkind = .hash := rfl
@[simp] theorem clearDigest_alg (s : State) : (clearDigest s).alg = s.alg := rfl
@[simp] theorem clearDigest_halg (s : State) : (clearDigest s).halg = s.halg := rfl
@[simp] theorem clearDigest_outlen (s : State) : (clearDigest s).outlen = s.outlen := rfl
@[simp] theorem clearDigest_dlen (s : State) : (clearDigest s).dlen = 0 := rfl
@[simp] theorem clearDigest_run (s : State) : (clearDigest s).run = s.run := rfl
@[simp] theorem clearDigest_klen (s : State) : (clearDigest s).klen = s.klen := rfl
@[simp] theorem clearDigest_digest (s : State) : (clearDigest s).digest = Vector.replicate 64 0 := rfl
@[simp] theorem clearDigest_keybuf (s : State) : (clearDigest s).keybuf = s.keybuf := rfl
@[simp] theorem clearDigest_ipk (s : State) : (clearDigest s).ipk = s.ipk := rfl
@[simp] theorem clearDigest_opk (s : State) : (clearDigest s).opk = s.opk := rfl
@[simp] theorem clearDigest_pending (s : State) : (clearDigest s).pending = s.pending := rfl
@[simp] theorem clearDigest_rdata (s : State) : (clearDigest s).rdata = s.rdata := rfl
@[simp] theorem clearDigest_drawn (s : State) : (clearDigest s).drawn = s.drawn := rfl
@[simp] theorem clearDigest_inputs (s : State) : (clearDigest s).inputs = s.inputs := rfl

@[simp] theorem writeDigest_br (out : List Byte) (kind : DKind) (s : State) : (writeDigest out kind s).br = s.br := rfl
@[simp] theorem writeDigest_curveLock (out : List Byte) (kind : DKind) (s : State) : (writeDigest out kind s).curveLock = s.curveLock := rfl
@[simp] theorem writeDigest_done (out : List Byte) (kind : DKind) (s : State) : (writeDigest out kind s).done = s.done := rfl
@[simp] theorem writeDigest_err (out : List Byte) (kind : DKind) (s : State) : (writeDigest out kind s).err = s.err := rfl
@[simp] theorem writeDigest_errcode (out : List Byte) (kind : DKind) (s : State) : (writeDigest out kind s).errcode = s.errcode := rfl
@[simp] theorem writeDigest_flags (out : List Byte) (kind : DKind) (s : State) : (writeDigest out kind s).flags = s.flags := rfl
@[simp] theorem writeDigest_doneIe (out : List Byte) (kind : DKind) (s : State) : (writeDigest out kind s).doneIe = s.doneIe := rfl
@[simp] theorem writeDigest_errIe (out : List Byte) (kind : DKind) (s : State) : (writeDigest out kind s).errIe = s.errIe := rfl
@[simp] theorem writeDigest_curveId (out : List Byte) (kind : DKind) (s : State) : (writeDigest out kind s).curveId = s.curveId := rfl
@[simp] theorem writeDigest_dtag (out : List Byte) (kind : DKind) (s : State) : (writeDigest out kind s).dtag = s.dtag := rfl
@[simp] theorem writeDigest_qtag (out : List Byte) (kind : DKind) (s : State) : (writeDigest out kind s).qtag = s.qtag := rfl
@[simp] theorem writeDigest_hstate (out : List Byte) (kind : DKind) (s : State) : (writeDigest out kind s).hstate = .done := rfl
@[simp] theorem writeDigest_hmact (out : List Byte) (kind : DKind) (s : State) : (writeDigest out kind s).hmact = s.hmact := rfl
@[simp] theorem writeDigest_hkv (out : List Byte) (kind : DKind) (s : State) : (writeDigest out kind s).hkv = s.hkv := rfl
@[simp] theorem writeDigest_dkind (out : List Byte) (kind : DKind) (s : State) : (writeDigest out kind s).dkind = kind := rfl
@[simp] theorem writeDigest_alg (out : List Byte) (kind : DKind) (s : State) : (writeDigest out kind s).alg = s.alg := rfl
@[simp] theorem writeDigest_halg (out : List Byte) (kind : DKind) (s : State) : (writeDigest out kind s).halg = s.halg := rfl
@[simp] theorem writeDigest_outlen (out : List Byte) (kind : DKind) (s : State) : (writeDigest out kind s).outlen = s.outlen := rfl
@[simp] theorem writeDigest_dlen (out : List Byte) (kind : DKind) (s : State) : (writeDigest out kind s).dlen = s.outlen := rfl
@[simp] theorem writeDigest_run (out : List Byte) (kind : DKind) (s : State) : (writeDigest out kind s).run = s.run := rfl
@[simp] theorem writeDigest_klen (out : List Byte) (kind : DKind) (s : State) : (writeDigest out kind s).klen = s.klen := rfl
@[simp] theorem writeDigest_keybuf (out : List Byte) (kind : DKind) (s : State) : (writeDigest out kind s).keybuf = s.keybuf := rfl
@[simp] theorem writeDigest_ipk (out : List Byte) (kind : DKind) (s : State) : (writeDigest out kind s).ipk = s.ipk := rfl
@[simp] theorem writeDigest_opk (out : List Byte) (kind : DKind) (s : State) : (writeDigest out kind s).opk = s.opk := rfl
@[simp] theorem writeDigest_pending (out : List Byte) (kind : DKind) (s : State) : (writeDigest out kind s).pending = s.pending := rfl
@[simp] theorem writeDigest_rdata (out : List Byte) (kind : DKind) (s : State) : (writeDigest out kind s).rdata = s.rdata := rfl
@[simp] theorem writeDigest_drawn (out : List Byte) (kind : DKind) (s : State) : (writeDigest out kind s).drawn = s.drawn := rfl
@[simp] theorem writeDigest_inputs (out : List Byte) (kind : DKind) (s : State) : (writeDigest out kind s).inputs = s.inputs := rfl

end Sys2Proof.Machine
end

