-- ==== Sys2Proof/Laws/Ops.lean ====
section
/-! SUPPORT. What the shared operations can do: reading and writing big registers, raising, the common checks, and
performing a command. -/

namespace Sys2Proof.Machine

/-! ## Big registers -/

theorem big_setBig (s : State) (i r : Reg) (v : Big) :
    (s.setBig i v).big r = if r = i then v else s.big r := by
  obtain ⟨i, hi⟩ := i
  obtain ⟨r, hr⟩ := r
  simp only [State.big, State.setBig, Vector.get_eq_getElem, Fin.mk.injEq]
  by_cases h : r = i
  · subst h; simp
  · rw [if_neg h, Vector.getElem_set_ne]; omega

@[simp] theorem big_setBig_same (s : State) (i : Reg) (v : Big) : (s.setBig i v).big i = v := by
  simp [big_setBig]

theorem big_setBig_ne {s : State} {i r : Reg} {v : Big} (h : r ≠ i) : (s.setBig i v).big r = s.big r := by
  simp [big_setBig, h]

@[simp] theorem big_setFlags (s : State) (f : Flags) (r : Reg) : (s.setFlags f).big r = s.big r := rfl

@[simp] theorem big_raise (e : Err) (eop : BitVec 8) (eoff : BitVec 16) (s : State) (r : Reg) :
    (raise e eop eoff s).big r = s.big r := rfl

@[simp] theorem big_complete (s : State) (r : Reg) : (complete s).big r = s.big r := rfl

@[simp] theorem big_latch (w : Word) (s : State) (r : Reg) : (latch w s).big r = s.big r := rfl

theorem val_lt (s : State) (r : Reg) : s.val r < 2 ^ 576 := (s.big r).isLt

theorem val_eq_zero_iff (s : State) (r : Reg) : s.val r = 0 ↔ s.big r = 0 := by
  simp [State.val, BitVec.toNat_eq]

theorem ofNat_val (s : State) (r : Reg) : BitVec.ofNat 576 (s.val r) = s.big r := by
  simp [State.val]

theorem toNat_ofNat_big {v : Nat} (h : v < 2 ^ 576) : (BitVec.ofNat 576 v).toNat = v := by
  rw [BitVec.toNat_ofNat, Nat.mod_eq_of_lt h]

/-- A result is 0 exactly when the register it is written to is. -/
theorem ofNat_eq_zero_iff {v : Nat} (h : v < 2 ^ 576) : BitVec.ofNat 576 v = 0 ↔ v = 0 := by
  rw [BitVec.toNat_eq, toNat_ofNat_big h]; simp

/-! ## Groups of registers -/

theorem groupReg_val {r : Reg} {k : Nat} (h : r.val + k < 32) : (groupReg r k).val = r.val + k := by
  simp [groupReg, Fin.ofNat, Nat.mod_eq_of_lt h]

theorem groupReg_eq {r q : Reg} {k : Nat} (h : q.val = r.val + k) : groupReg r k = q := by
  apply Fin.ext
  rw [groupReg_val (by omega), h]

theorem mem_tripleRegs {r q : Reg} (h : r.val ≤ 29) :
    q ∈ tripleRegs r ↔ r.val ≤ q.val ∧ q.val ≤ r.val + 2 := by
  simp only [tripleRegs, List.mem_cons, List.not_mem_nil, or_false, Fin.ext_iff]
  rw [groupReg_val (by omega), groupReg_val (by omega)]
  omega

theorem mem_pairRegs {r q : Reg} (h : r.val ≤ 30) : q ∈ pairRegs r ↔ r.val ≤ q.val ∧ q.val ≤ r.val + 1 := by
  simp only [pairRegs, List.mem_cons, List.not_mem_nil, or_false, Fin.ext_iff]
  rw [groupReg_val (by omega)]
  omega

theorem isCurveReg_iff (r : Reg) : isCurveReg r = true ↔ r.val ≤ 6 := by simp [isCurveReg]

theorem isCurveReg_false_iff (r : Reg) : isCurveReg r = false ↔ 7 ≤ r.val := by simp [isCurveReg]; omega

/-! ## Errors -/

/-- ERRCODE as a number: CODE, EOP and EOFF at their places (10 R29). -/
theorem errWord_toNat (e : Err) (eop : BitVec 8) (eoff : BitVec 16) :
    (errWord e eop eoff).toNat = (errNum e).toNat + eop.toNat * 2 ^ 8 + eoff.toNat * 2 ^ 16 := by
  have h1 := (errNum e).isLt
  have h2 := eop.isLt
  simp only [errWord, BitVec.toNat_append]
  rw [← Nat.shiftLeft_add_eq_or_of_lt h1, ← Nat.shiftLeft_add_eq_or_of_lt h2]
  simp only [Nat.shiftLeft_eq]
  omega

theorem errNum_ne_zero (e : Err) : (errNum e).toNat ≠ 0 := by cases e <;> decide

/-! ## The common checks -/

theorem groupsOk_iff (c : Checks) :
    groupsOk c = true ↔ (∀ r ∈ c.pairs, r.val ≤ 30) ∧ (∀ r ∈ c.triples, r.val ≤ 29) := by
  simp [groupsOk]

theorem destLocked_iff (c : Checks) (s : State) :
    destLocked c s = true ↔ s.curveLock = true ∧ ∃ r ∈ c.dests, r.val ≤ 6 := by
  simp [destLocked, isCurveReg]

theorem commonChecks_none_iff (c : Checks) (s : State) :
    commonChecks c s = none ↔ groupsOk c = true ∧ destLocked c s = false ∧
      (c.curve = true → s.curveLock = true ∧ s.val regP ≠ 0) ∧ (c.order = true → s.val regN ≠ 0) := by
  unfold commonChecks
  cases groupsOk c <;> cases destLocked c s <;> cases c.curve <;> cases c.order <;> cases s.curveLock <;>
    by_cases hp : s.val regP = 0 <;> by_cases hn : s.val regN = 0 <;> simp [hp, hn]

/-- Every check passes for a command with no group, no destination and no curve. -/
@[simp] theorem commonChecks_empty (s : State) : commonChecks {} s = none := by
  simp [commonChecks, groupsOk, destLocked]

/-! ## Performing a command -/

theorem perform_ok {op : Nat} {c : Checks} {s t : State} (h : commonChecks c s = none) :
    perform op c s (.ok t) = .next (complete t) := by simp [perform, h]

theorem perform_error {op : Nat} {c : Checks} {s : State} {e : Err} (h : commonChecks c s = none) :
    perform op c s (.error e) = .next (raiseCmd op e s) := by simp [perform, h]

theorem perform_check {op : Nat} {c : Checks} {s : State} {e : Err} {rule : Except Err State}
    (h : commonChecks c s = some e) : perform op c s rule = .next (raiseCmd op e s) := by simp [perform, h]

/-- Performing a command raises one error, or completes with the state its rule gives. -/
theorem perform_cases (op : Nat) (c : Checks) (s : State) (rule : Except Err State) :
    (∃ e, perform op c s rule = .next (raiseCmd op e s)) ∨
      ∃ t, rule = .ok t ∧ commonChecks c s = none ∧ perform op c s rule = .next (complete t) := by
  unfold perform
  cases h : commonChecks c s with
  | some e => exact .inl ⟨e, rfl⟩
  | none =>
    cases rule with
    | error e => exact .inl ⟨e, rfl⟩
    | ok t => exact .inr ⟨t, rfl, rfl, rfl⟩

/-- The two ways a command can end, read off its next state. -/
theorem perform_next {op : Nat} {c : Checks} {s u : State} {rule : Except Err State}
    (h : perform op c s rule = .next u) :
    (∃ e, u = raiseCmd op e s) ∨ ∃ t, rule = .ok t ∧ commonChecks c s = none ∧ u = complete t := by
  obtain ⟨e, he⟩ | ⟨t, ht, hc, hp⟩ := perform_cases op c s rule
  · rw [he] at h
    injection h with h
    exact .inl ⟨e, h.symm⟩
  · rw [hp] at h
    injection h with h
    exact .inr ⟨t, ht, hc, h.symm⟩

/-- What the common checks have to know of an instruction, from the tables of 60 R285. -/
def checksOf (i : Instr) : Checks :=
  { pairs := pairBases i, triples := tripleBases i, dests := destRegs i, curve := isCurveCommand i,
    order := needsOrder i }

/-- An instruction with an opcode is a command: its meaning is performed with its opcode and the checks of 60 R285. -/
theorem exec_command {i : Instr} {op : Nat} (h : i.opcode = some op) (s : State) :
    ∃ rule, exec i s = perform op (checksOf i) s rule := by
  cases i <;> simp only [Instr.opcode, Option.some.injEq, reduceCtorEq] at h <;> subst h
  all_goals
    simp only [exec, execNop, execMov, execLdi, execCmp, execModadd, execModsub, execModred, execModmul, execMontmul,
      execMontrr, execModinv, execTojac, execFromjac, execPdbl, execPadd, execSmul, execOncurve, execIsinf,
      execKeygen, execQcheck, execSign, execVerify, execHinit, execHfinal, execHmkey, execHmstart, execHmfinal]
    exact ⟨_, rfl⟩

end Sys2Proof.Machine
end

