-- ==== Sys2Proof/Laws/Arith.lean ====
section
/-! SUPPORT. The exact arithmetic: the floored remainder, the modular inverse and the Montgomery product. -/

namespace Sys2Proof.Machine

/-! ## The floored remainder -/

theorem imod_lt (x : Int) {m : Nat} (h : 0 < m) : imod x m < m := by
  have h1 := Int.emod_nonneg x (b := (m : Int)) (by omega)
  have h2 := Int.emod_lt_of_pos x (b := (m : Int)) (by omega)
  unfold imod
  omega

theorem imod_cast (x : Int) {m : Nat} (h : 0 < m) : ((imod x m : Nat) : Int) = x % (m : Int) := by
  have h1 := Int.emod_nonneg x (b := (m : Int)) (by omega)
  unfold imod
  omega

/-! ## The modular inverse (43 R150) -/

/-- The loop keeps lm * x ≡ low and hm * x ≡ high, and the gcd of low and high, so what it ends with is an inverse;
the fuel is enough when it bounds low * high. -/
theorem euclidLoop_spec (x n : Int) : ∀ (fuel : Nat) (lm hm : Int) (low high : Nat),
    n ∣ lm * x - low → n ∣ hm * x - high → Nat.gcd low high = 1 → low < high → low * high < 2 ^ fuel →
    0 < low → ∃ v, euclidLoop (fuel + 1) lm hm low high = some v ∧ n ∣ v * x - 1
  | fuel, lm, hm, low, high, h1, h2, hg, hlt, hf, h0 => by
    unfold euclidLoop
    by_cases hl : 1 < low
    · rw [if_pos hl]
      have hdm := Nat.div_add_mod high low
      have hml := Nat.mod_lt high h0
      have hpos : 0 < high % low := by
        rcases Nat.eq_zero_or_pos (high % low) with h | h
        · have : low ∣ high := Nat.dvd_of_mod_eq_zero h
          rw [Nat.gcd_eq_left this] at hg
          omega
        · exact h
      cases fuel with
      | zero =>
        have : 1 ≤ low * high := Nat.mul_pos h0 (by omega)
        simp at hf
        omega
      | succ fuel =>
        refine euclidLoop_spec x n fuel _ lm (high % low) low ?_ h1 ?_ hml ?_ hpos
        · have hc : ((high % low : Nat) : Int) = high - low * ((high / low : Nat) : Int) := by
            have : (low : Int) * ((high / low : Nat) : Int) + ((high % low : Nat) : Int) = high := by exact_mod_cast hdm
            linarith
          rw [hc]
          have : (hm - lm * ((high / low : Nat) : Int)) * x - (high - low * ((high / low : Nat) : Int)) =
              (hm * x - high) - ((high / low : Nat) : Int) * (lm * x - low) := by ring
          rw [this]
          exact Int.dvd_sub h2 (Dvd.dvd.mul_left h1 _)
        · rw [← hg, Nat.gcd_comm low high, Nat.gcd_comm (high % low) low]
          rw [Nat.gcd_comm low (high % low), ← Nat.gcd_rec, Nat.gcd_comm]
        · have h3 : 1 ≤ high / low := Nat.div_pos (by omega) h0
          have h4 : low * 1 ≤ low * (high / low) := Nat.mul_le_mul_left low h3
          have h5 : 2 * (high % low) < high := by omega
          have h6 : 2 * (high % low) * low ≤ high * low := Nat.mul_le_mul_right low (by omega)
          have h7 : 2 * (high % low * low) ≤ low * high := by nlinarith
          rw [pow_succ] at hf
          omega
    · rw [if_neg hl, if_neg (by omega)]
      have : low = 1 := by omega
      subst this
      exact ⟨lm, rfl, by simpa using h1⟩

theorem euclidFuel_enough {x n : Nat} (h : x < n) : x * n < 2 ^ (euclidFuel n - 1) := by
  have h1 : n < 2 ^ (Nat.log2 n + 1) := Nat.lt_log2_self
  have h2 : x * n < 2 ^ (Nat.log2 n + 1) * 2 ^ (Nat.log2 n + 1) := Nat.mul_lt_mul'' (by omega) h1
  rw [← Nat.pow_add] at h2
  exact h2.trans_le (Nat.pow_le_pow_right (by omega) (by unfold euclidFuel; omega))

theorem inv_of_zero {x n : Nat} (h : x % n = 0) : inv x n = (0, false) := by simp [inv, h]

theorem inv_of_gcd {x n : Nat} (h : x % n ≠ 0) (hg : Nat.gcd (x % n) n ≠ 1) : inv x n = (0, true) := by
  simp [inv, h, hg]

/-- A value coprime to the modulus has an inverse in [0, n), and inv is it. -/
theorem inv_of_coprime {x n : Nat} (hn : 0 < n) (h : x % n ≠ 0) (hg : Nat.gcd (x % n) n = 1) :
    ∃ v, inv x n = (v, false) ∧ v < n ∧ ((n : Int) ∣ (v : Int) * x - 1) := by
  have hlt := Nat.mod_lt x hn
  obtain ⟨lm, hlm, hd⟩ := euclidLoop_spec ((x % n : Nat) : Int) n (euclidFuel n - 1) 1 0 (x % n) n (by simp) (by simp)
    hg hlt (euclidFuel_enough hlt) (Nat.pos_of_ne_zero h)
  have he : euclidFuel n - 1 + 1 = euclidFuel n := by unfold euclidFuel; omega
  rw [he] at hlm
  refine ⟨imod lm n, ?_, imod_lt _ hn, ?_⟩
  · simp [inv, h, hg, hlm]
  · rw [imod_cast _ hn]
    have hx : ((x % n : Nat) : Int) = (x : Int) - n * ((x / n : Nat) : Int) := by
      have : (n : Int) * ((x / n : Nat) : Int) + ((x % n : Nat) : Int) = x := by exact_mod_cast Nat.div_add_mod x n
      linarith
    rw [hx] at hd
    have hm : lm % (n : Int) = lm - n * (lm / n) := Int.emod_def _ _
    rw [hm]
    have : (lm - n * (lm / n)) * x - 1 =
        (lm * (x - n * ((x / n : Nat) : Int)) - 1) + n * (lm * ((x / n : Nat) : Int) - lm / n * x) := by ring
    rw [this]
    exact Int.dvd_add hd (Dvd.intro _ rfl)

theorem inv_lt (x : Nat) {n : Nat} (hn : 0 < n) : (inv x n).1 < n := by
  by_cases h : x % n = 0
  · rw [inv_of_zero h]; exact hn
  · by_cases hg : Nat.gcd (x % n) n = 1
    · obtain ⟨v, hv, hlt, -⟩ := inv_of_coprime hn h hg
      rw [hv]; exact hlt
    · rw [inv_of_gcd h hg]; exact hn

/-- NONINV, from the two cases. -/
theorem inv_missing_iff (x : Nat) {n : Nat} (hn : 0 < n) :
    (inv x n).2 = true ↔ x % n ≠ 0 ∧ Nat.gcd x n ≠ 1 := by
  have hgx : Nat.gcd (x % n) n = Nat.gcd x n := by
    rw [Nat.gcd_comm x n, Nat.gcd_rec n x]
  rw [← hgx]
  by_cases h : x % n = 0
  · simp [inv_of_zero h, h]
  · by_cases hg : Nat.gcd (x % n) n = 1
    · obtain ⟨v, hv, -, -⟩ := inv_of_coprime hn h hg
      simp [hv, hg]
    · simp [inv_of_gcd h hg, h, hg]

/-- The congruence of an inverse, on naturals; modulo 1 every value is 0. -/
theorem inv_mul_mod {x n : Nat} (hn : 1 < n) (hg : Nat.gcd x n = 1) : (inv x n).1 * x % n = 1 := by
  have hgx : Nat.gcd (x % n) n = 1 := by rw [← hg, Nat.gcd_comm x n, Nat.gcd_rec n x]
  have h : x % n ≠ 0 := by
    intro h
    rw [h, Nat.gcd_zero_left] at hgx
    omega
  obtain ⟨v, hv, -, hd⟩ := inv_of_coprime (by omega) h hgx
  rw [hv]
  have h2 : (n : Int) ∣ ((v * x : Nat) : Int) - (1 : Nat) := by simpa using hd
  have h3 := (Nat.modEq_iff_dvd.2 h2).symm
  unfold Nat.ModEq at h3
  rw [Nat.mod_eq_of_lt hn] at h3
  exact h3

/-! ## The Montgomery product (41 R131) -/

theorem montgomery_spec {k a b m : Nat} (hm : m % 2 = 1) :
    montgomery (2 ^ k) a b m < m ∧ montgomery (2 ^ k) a b m * 2 ^ k % m = a * b % m := by
  have h0 : 0 < m := by omega
  refine ⟨Nat.mod_lt _ h0, ?_⟩
  rcases Nat.lt_or_ge 1 m with h1 | h1
  · have hc : Nat.Coprime (2 ^ k) m :=
      Nat.Coprime.pow_left k ((Nat.Prime.coprime_iff_not_dvd Nat.prime_two).2 (by omega))
    have hi := inv_mul_mod h1 hc
    unfold montgomery
    rw [Nat.mod_mul_mod, Nat.mul_assoc, Nat.mul_mod, hi, Nat.mul_one, Nat.mod_mod]
  · have : m = 1 := by omega
    subst this
    simp [Nat.mod_one]

end Sys2Proof.Machine
end

