-- ==== Sys2Proof/Laws/Decode.lean ====
section
/-! SUPPORT. The fields of the words the encoder writes, and the fields a word is made of. -/

namespace Sys2Proof

/-! ## A format R word -/

section FormatR

variable {op x : Nat} (hop : op < 256) (hx : x < 16) (rd ra rb rm : Reg)
include hop hx

theorem formatR_toNat : (formatR op rd ra rb rm x).toNat =
    op + rd.val * 2 ^ 8 + ra.val * 2 ^ 13 + rb.val * 2 ^ 18 + rm.val * 2 ^ 23 + x * 2 ^ 28 := by
  have := rd.isLt; have := ra.isLt; have := rb.isLt; have := rm.isLt
  simp only [formatR, BitVec.toNat_ofNat]
  omega

theorem formatR_opcode : bits (formatR op rd ra rb rm x) 7 0 = op := by
  simp only [bits, formatR_toNat hop hx]
  omega

theorem formatR_rd : fieldRd (formatR op rd ra rb rm x) = rd := by
  apply Fin.ext
  simp only [fieldRd, regField, Fin.ofNat, formatR_toNat hop hx]
  omega

theorem formatR_ra : fieldRa (formatR op rd ra rb rm x) = ra := by
  apply Fin.ext
  simp only [fieldRa, regField, Fin.ofNat, formatR_toNat hop hx]
  omega

theorem formatR_rb : fieldRb (formatR op rd ra rb rm x) = rb := by
  apply Fin.ext
  simp only [fieldRb, regField, Fin.ofNat, formatR_toNat hop hx]
  omega

theorem formatR_rm : fieldRm (formatR op rd ra rb rm x) = rm := by
  apply Fin.ext
  simp only [fieldRm, regField, Fin.ofNat, formatR_toNat hop hx]
  omega

theorem formatR_bits_rd : bits (formatR op rd ra rb rm x) 12 8 = rd.val := by
  simp only [bits, formatR_toNat hop hx]
  omega

theorem formatR_bits_ra : bits (formatR op rd ra rb rm x) 17 13 = ra.val := by
  simp only [bits, formatR_toNat hop hx]
  omega

theorem formatR_bits_rb : bits (formatR op rd ra rb rm x) 22 18 = rb.val := by
  simp only [bits, formatR_toNat hop hx]
  omega

theorem formatR_bits_rm : bits (formatR op rd ra rb rm x) 27 23 = rm.val := by
  simp only [bits, formatR_toNat hop hx]
  omega

theorem formatR_bits_x : bits (formatR op rd ra rb rm x) 31 28 = x := by
  simp only [bits, formatR_toNat hop hx]
  omega

theorem formatR_bits_high : bits (formatR op rd ra rb rm x) 31 29 = x / 2 := by
  simp only [bits, formatR_toNat hop hx]
  omega

theorem formatR_neg : fieldNeg (formatR op rd ra rb rm x) = (x % 2 == 1) := by
  have : bits (formatR op rd ra rb rm x) 28 28 = x % 2 := by
    simp only [bits, formatR_toNat hop hx]
    omega
  simp only [fieldNeg, this]

end FormatR

/-! ## Words of formats L, H and N -/

theorem formatL_fields {op : Nat} (hop : op < 256) (rd : Reg) (imm : BitVec 16) :
    bits (formatL op rd imm.toNat) 7 0 = op ∧ fieldRd (formatL op rd imm.toNat) = rd ∧
      fieldImm (formatL op rd imm.toNat) = imm ∧ bits (formatL op rd imm.toNat) 15 13 = 0 := by
  have hrd := rd.isLt
  have hi := imm.isLt
  have h : (formatL op rd imm.toNat).toNat = op + rd.val * 2 ^ 8 + imm.toNat * 2 ^ 16 := by
    simp only [formatL, BitVec.toNat_ofNat]
    omega
  refine ⟨?_, Fin.ext ?_, BitVec.eq_of_toNat_eq ?_, ?_⟩ <;>
    simp only [bits, fieldRd, regField, Fin.ofNat, fieldImm, BitVec.toNat_ofNat, h] <;> omega

theorem formatH_fields {op : Nat} (hop : op < 256) (alg : BitVec 5) (olen : BitVec 7) :
    bits (formatH op alg.toNat olen.toNat) 7 0 = op ∧ fieldAlg (formatH op alg.toNat olen.toNat) = alg ∧
      fieldOlen (formatH op alg.toNat olen.toNat) = olen ∧ bits (formatH op alg.toNat olen.toNat) 31 20 = 0 ∧
      bits (formatH op alg.toNat olen.toNat) 19 13 = olen.toNat := by
  have ha := alg.isLt
  have ho := olen.isLt
  have h : (formatH op alg.toNat olen.toNat).toNat = op + alg.toNat * 2 ^ 8 + olen.toNat * 2 ^ 13 := by
    simp only [formatH, BitVec.toNat_ofNat]
    omega
  refine ⟨?_, BitVec.eq_of_toNat_eq ?_, BitVec.eq_of_toNat_eq ?_, ?_, ?_⟩ <;>
    simp only [bits, fieldAlg, fieldOlen, BitVec.toNat_ofNat, h] <;> omega

theorem formatN_fields {op : Nat} (hop : op < 256) :
    bits (formatN op) 7 0 = op ∧ bits (formatN op) 31 8 = 0 := by
  have h : (formatN op).toNat = op := by
    simp only [formatN, BitVec.toNat_ofNat]
    omega
  constructor <;> simp only [bits, h] <;> omega

/-! ## The reserved fields -/

theorem checkReserved_ok {w : Word} {ranges : List (Nat × Nat)} {i j : Instr}
    (h : checkReserved w ranges i = .ok j) : (∀ r ∈ ranges, bits w r.1 r.2 = 0) ∧ i = j := by
  unfold checkReserved at h
  split at h
  · rename_i hr
    injection h with h
    exact ⟨by simpa using hr, h⟩
  · cases h

theorem checkReserved_of_zero {w : Word} {ranges : List (Nat × Nat)} {i : Instr}
    (h : ∀ r ∈ ranges, bits w r.1 r.2 = 0) : checkReserved w ranges i = .ok i := by
  unfold checkReserved
  rw [if_pos (by simpa using h)]

/-! ## A word from its fields -/

theorem fieldRd_val (w : Word) : (fieldRd w).val = bits w 12 8 := by simp [fieldRd, regField, bits, Fin.ofNat]
theorem fieldRa_val (w : Word) : (fieldRa w).val = bits w 17 13 := by simp [fieldRa, regField, bits, Fin.ofNat]
theorem fieldRb_val (w : Word) : (fieldRb w).val = bits w 22 18 := by simp [fieldRb, regField, bits, Fin.ofNat]
theorem fieldRm_val (w : Word) : (fieldRm w).val = bits w 27 23 := by simp [fieldRm, regField, bits, Fin.ofNat]

/-- A word is the format R word of its fields. -/
theorem formatR_of_fields (w : Word) : formatR (bits w 7 0) (bits w 12 8) (bits w 17 13) (bits w 22 18)
    (bits w 27 23) (bits w 31 28) = w := by
  apply BitVec.eq_of_toNat_eq
  have := w.isLt
  simp only [formatR, bits, BitVec.toNat_ofNat]
  omega

/-- A word with bits 15 to 13 zero is the format L word of its fields. -/
theorem formatL_of_fields {w : Word} (h : bits w 15 13 = 0) :
    formatL (bits w 7 0) (bits w 12 8) (fieldImm w).toNat = w := by
  apply BitVec.eq_of_toNat_eq
  have := w.isLt
  simp only [formatL, fieldImm, bits, BitVec.toNat_ofNat] at *
  omega

/-- A word with bits 31 to 20 zero is the format H word of its fields. -/
theorem formatH_of_fields {w : Word} (h : bits w 31 20 = 0) :
    formatH (bits w 7 0) (fieldAlg w).toNat (bits w 19 13) = w := by
  apply BitVec.eq_of_toNat_eq
  have := w.isLt
  simp only [formatH, fieldAlg, bits, BitVec.toNat_ofNat] at *
  omega

/-- A word with bits 31 to 8 zero is its opcode. -/
theorem formatN_of_fields {w : Word} (h : bits w 31 8 = 0) : formatN (bits w 7 0) = w := by
  apply BitVec.eq_of_toNat_eq
  have := w.isLt
  simp only [formatN, bits, BitVec.toNat_ofNat] at *
  omega

/-! ## Decoding by opcode -/

section ByOpcode

variable {w : Word}

theorem decodeCmd_nop (h : bits w 7 0 = Opcode.nop) : decodeCmd w =
    checkReserved w [(31, 8)] .nop := by
  unfold decodeCmd; rw [h]; rfl

theorem decodeCmd_mov (h : bits w 7 0 = Opcode.mov) : decodeCmd w =
    checkReserved w [(22, 18), (27, 23), (31, 28)] (.mov (fieldRd w) (fieldRa w)) := by
  unfold decodeCmd; rw [h]; rfl

theorem decodeCmd_ldi (h : bits w 7 0 = Opcode.ldi) : decodeCmd w =
    checkReserved w [(15, 13)] (.ldi (fieldRd w) (fieldImm w)) := by
  unfold decodeCmd; rw [h]; rfl

theorem decodeCmd_cmp (h : bits w 7 0 = Opcode.cmp) : decodeCmd w =
    checkReserved w [(12, 8), (27, 23), (31, 28)] (.cmp (fieldRa w) (fieldRb w)) := by
  unfold decodeCmd; rw [h]; rfl

theorem decodeCmd_modadd (h : bits w 7 0 = Opcode.modadd) : decodeCmd w =
    checkReserved w [(31, 28)] (.modadd (fieldRd w) (fieldRa w) (fieldRb w) (fieldRm w)) := by
  unfold decodeCmd; rw [h]; rfl

theorem decodeCmd_modsub (h : bits w 7 0 = Opcode.modsub) : decodeCmd w =
    checkReserved w [(31, 28)] (.modsub (fieldRd w) (fieldRa w) (fieldRb w) (fieldRm w)) := by
  unfold decodeCmd; rw [h]; rfl

theorem decodeCmd_modred (h : bits w 7 0 = Opcode.modred) : decodeCmd w =
    checkReserved w [(22, 18), (31, 28)] (.modred (fieldRd w) (fieldRa w) (fieldRm w)) := by
  unfold decodeCmd; rw [h]; rfl

theorem decodeCmd_modmul (h : bits w 7 0 = Opcode.modmul) : decodeCmd w =
    checkReserved w [(31, 28)] (.modmul (fieldRd w) (fieldRa w) (fieldRb w) (fieldRm w)) := by
  unfold decodeCmd; rw [h]; rfl

theorem decodeCmd_montmul (h : bits w 7 0 = Opcode.montmul) : decodeCmd w =
    checkReserved w [(31, 28)] (.montmul (fieldRd w) (fieldRa w) (fieldRb w) (fieldRm w)) := by
  unfold decodeCmd; rw [h]; rfl

theorem decodeCmd_montrr (h : bits w 7 0 = Opcode.montrr) : decodeCmd w =
    checkReserved w [(17, 13), (22, 18), (31, 28)] (.montrr (fieldRd w) (fieldRm w)) := by
  unfold decodeCmd; rw [h]; rfl

theorem decodeCmd_modinv (h : bits w 7 0 = Opcode.modinv) : decodeCmd w =
    checkReserved w [(22, 18), (31, 28)] (.modinv (fieldRd w) (fieldRa w) (fieldRm w)) := by
  unfold decodeCmd; rw [h]; rfl

theorem decodeCmd_tojac (h : bits w 7 0 = Opcode.tojac) : decodeCmd w =
    checkReserved w [(22, 18), (27, 23), (31, 28)] (.tojac (fieldRd w) (fieldRa w)) := by
  unfold decodeCmd; rw [h]; rfl

theorem decodeCmd_fromjac (h : bits w 7 0 = Opcode.fromjac) : decodeCmd w =
    checkReserved w [(22, 18), (27, 23), (31, 28)] (.fromjac (fieldRd w) (fieldRa w)) := by
  unfold decodeCmd; rw [h]; rfl

theorem decodeCmd_pdbl (h : bits w 7 0 = Opcode.pdbl) : decodeCmd w =
    checkReserved w [(22, 18), (27, 23), (31, 28)] (.pdbl (fieldRd w) (fieldRa w)) := by
  unfold decodeCmd; rw [h]; rfl

theorem decodeCmd_padd (h : bits w 7 0 = Opcode.padd) : decodeCmd w =
    checkReserved w [(27, 23), (31, 28)] (.padd (fieldRd w) (fieldRa w) (fieldRb w)) := by
  unfold decodeCmd; rw [h]; rfl

theorem decodeCmd_smul (h : bits w 7 0 = Opcode.smul) : decodeCmd w =
    checkReserved w [(27, 23), (31, 29)] (.smul (fieldNeg w) (fieldRd w) (fieldRa w) (fieldRb w)) := by
  unfold decodeCmd; rw [h]; rfl

theorem decodeCmd_oncurve (h : bits w 7 0 = Opcode.oncurve) : decodeCmd w =
    checkReserved w [(12, 8), (22, 18), (27, 23), (31, 28)] (.oncurve (fieldRa w)) := by
  unfold decodeCmd; rw [h]; rfl

theorem decodeCmd_isinf (h : bits w 7 0 = Opcode.isinf) : decodeCmd w =
    checkReserved w [(12, 8), (22, 18), (27, 23), (31, 28)] (.isinf (fieldRa w)) := by
  unfold decodeCmd; rw [h]; rfl

theorem decodeCmd_keygen (h : bits w 7 0 = Opcode.keygen) : decodeCmd w =
    checkReserved w [(31, 8)] .keygen := by
  unfold decodeCmd; rw [h]; rfl

theorem decodeCmd_qcheck (h : bits w 7 0 = Opcode.qcheck) : decodeCmd w =
    checkReserved w [(31, 8)] .qcheck := by
  unfold decodeCmd; rw [h]; rfl

theorem decodeCmd_sign (h : bits w 7 0 = Opcode.sign) : decodeCmd w =
    checkReserved w [(31, 8)] .sign := by
  unfold decodeCmd; rw [h]; rfl

theorem decodeCmd_verify (h : bits w 7 0 = Opcode.verify) : decodeCmd w =
    checkReserved w [(31, 8)] .verify := by
  unfold decodeCmd; rw [h]; rfl

theorem decodeCmd_hinit (h : bits w 7 0 = Opcode.hinit) : decodeCmd w =
    checkReserved w [(31, 20)] (.hinit (fieldAlg w) (fieldOlen w)) := by
  unfold decodeCmd; rw [h]; rfl

theorem decodeCmd_hfinal (h : bits w 7 0 = Opcode.hfinal) : decodeCmd w =
    checkReserved w [(31, 8)] .hfinal := by
  unfold decodeCmd; rw [h]; rfl

theorem decodeCmd_hmkey (h : bits w 7 0 = Opcode.hmkey) : decodeCmd w =
    checkReserved w [(31, 20), (19, 13)] (.hmkey (fieldAlg w)) := by
  unfold decodeCmd; rw [h]; rfl

theorem decodeCmd_hmstart (h : bits w 7 0 = Opcode.hmstart) : decodeCmd w =
    checkReserved w [(31, 8)] .hmstart := by
  unfold decodeCmd; rw [h]; rfl

theorem decodeCmd_hmfinal (h : bits w 7 0 = Opcode.hmfinal) : decodeCmd w =
    checkReserved w [(31, 8)] .hmfinal := by
  unfold decodeCmd; rw [h]; rfl

end ByOpcode

/-- The opcodes of 30 R97. -/
def opcodes : List Nat :=
  [Opcode.nop, Opcode.mov, Opcode.ldi, Opcode.cmp, Opcode.modadd, Opcode.modsub, Opcode.modred,
      Opcode.modmul, Opcode.montmul, Opcode.montrr, Opcode.modinv, Opcode.tojac, Opcode.fromjac,
      Opcode.pdbl, Opcode.padd, Opcode.smul, Opcode.oncurve, Opcode.isinf, Opcode.keygen, Opcode.qcheck,
      Opcode.sign, Opcode.verify, Opcode.hinit, Opcode.hfinal, Opcode.hmkey, Opcode.hmstart,
      Opcode.hmfinal]

/-- A word that decodes has an opcode of the table. -/
theorem decodeCmd_opcode {w : Word} {i : Instr} (h : decodeCmd w = .ok i) : bits w 7 0 ∈ opcodes := by
  unfold decodeCmd at h
  by_contra hn
  simp only [opcodes, List.mem_cons, List.not_mem_nil, or_false, not_or] at hn
  simp [hn] at h

/-- A word decodes to a command, whose opcode is its low byte. -/
theorem decodeCmd_is_command {w : Word} {i : Instr} (h : decodeCmd w = .ok i) :
    i.opcode = some (bits w 7 0) := by
  have ho := decodeCmd_opcode h
  simp only [opcodes, List.mem_cons, List.not_mem_nil, or_false] at ho
  rcases ho with ho | ho | ho | ho | ho | ho | ho | ho | ho | ho | ho | ho | ho | ho | ho | ho | ho | ho | ho | ho | ho |
    ho | ho | ho | ho | ho | ho
  · rw [decodeCmd_nop ho] at h; obtain ⟨-, rfl⟩ := checkReserved_ok h; rw [ho]; rfl
  · rw [decodeCmd_mov ho] at h; obtain ⟨-, rfl⟩ := checkReserved_ok h; rw [ho]; rfl
  · rw [decodeCmd_ldi ho] at h; obtain ⟨-, rfl⟩ := checkReserved_ok h; rw [ho]; rfl
  · rw [decodeCmd_cmp ho] at h; obtain ⟨-, rfl⟩ := checkReserved_ok h; rw [ho]; rfl
  · rw [decodeCmd_modadd ho] at h; obtain ⟨-, rfl⟩ := checkReserved_ok h; rw [ho]; rfl
  · rw [decodeCmd_modsub ho] at h; obtain ⟨-, rfl⟩ := checkReserved_ok h; rw [ho]; rfl
  · rw [decodeCmd_modred ho] at h; obtain ⟨-, rfl⟩ := checkReserved_ok h; rw [ho]; rfl
  · rw [decodeCmd_modmul ho] at h; obtain ⟨-, rfl⟩ := checkReserved_ok h; rw [ho]; rfl
  · rw [decodeCmd_montmul ho] at h; obtain ⟨-, rfl⟩ := checkReserved_ok h; rw [ho]; rfl
  · rw [decodeCmd_montrr ho] at h; obtain ⟨-, rfl⟩ := checkReserved_ok h; rw [ho]; rfl
  · rw [decodeCmd_modinv ho] at h; obtain ⟨-, rfl⟩ := checkReserved_ok h; rw [ho]; rfl
  · rw [decodeCmd_tojac ho] at h; obtain ⟨-, rfl⟩ := checkReserved_ok h; rw [ho]; rfl
  · rw [decodeCmd_fromjac ho] at h; obtain ⟨-, rfl⟩ := checkReserved_ok h; rw [ho]; rfl
  · rw [decodeCmd_pdbl ho] at h; obtain ⟨-, rfl⟩ := checkReserved_ok h; rw [ho]; rfl
  · rw [decodeCmd_padd ho] at h; obtain ⟨-, rfl⟩ := checkReserved_ok h; rw [ho]; rfl
  · rw [decodeCmd_smul ho] at h; obtain ⟨-, rfl⟩ := checkReserved_ok h; rw [ho]; rfl
  · rw [decodeCmd_oncurve ho] at h; obtain ⟨-, rfl⟩ := checkReserved_ok h; rw [ho]; rfl
  · rw [decodeCmd_isinf ho] at h; obtain ⟨-, rfl⟩ := checkReserved_ok h; rw [ho]; rfl
  · rw [decodeCmd_keygen ho] at h; obtain ⟨-, rfl⟩ := checkReserved_ok h; rw [ho]; rfl
  · rw [decodeCmd_qcheck ho] at h; obtain ⟨-, rfl⟩ := checkReserved_ok h; rw [ho]; rfl
  · rw [decodeCmd_sign ho] at h; obtain ⟨-, rfl⟩ := checkReserved_ok h; rw [ho]; rfl
  · rw [decodeCmd_verify ho] at h; obtain ⟨-, rfl⟩ := checkReserved_ok h; rw [ho]; rfl
  · rw [decodeCmd_hinit ho] at h; obtain ⟨-, rfl⟩ := checkReserved_ok h; rw [ho]; rfl
  · rw [decodeCmd_hfinal ho] at h; obtain ⟨-, rfl⟩ := checkReserved_ok h; rw [ho]; rfl
  · rw [decodeCmd_hmkey ho] at h; obtain ⟨-, rfl⟩ := checkReserved_ok h; rw [ho]; rfl
  · rw [decodeCmd_hmstart ho] at h; obtain ⟨-, rfl⟩ := checkReserved_ok h; rw [ho]; rfl
  · rw [decodeCmd_hmfinal ho] at h; obtain ⟨-, rfl⟩ := checkReserved_ok h; rw [ho]; rfl

/-- A decoded write stands at one of the three offsets of the bus rows. -/
theorem decodeWrite_offset {off : Nat} {v : Word} {i : Instr} (h : decodeWrite off v = .ok i) :
    off = 0x040 ∨ off = 0x044 ∨ off = 0x008 := by
  unfold decodeWrite at h
  split at h
  · rename_i h1; exact .inl h1
  · split at h
    · rename_i h1; exact .inr (.inl h1)
    · split at h
      · rename_i h1; exact .inr (.inr h1)
      · cases h

end Sys2Proof
end

