-- ==== Sys2Proof/Laws/Frames.lean ====
section
/-! SUPPORT. What a command can change: the inversion lemmas of exec on commands, and the registers a command keeps. -/

namespace Sys2Proof.Machine

/-- A command outside the hash engine raises one error, or completes having changed no more than big registers, flags
and QTAG. -/
theorem plain_command_next {i : Instr} {op : Nat} {s u : State} (h : i.opcode = some op)
    (hi : isHashCommand i = false) (hu : exec i s = .next u) :
    (∃ e, u = raiseCmd op e s) ∨
      ({ u with br := s.br, qtag := s.qtag, flags := s.flags, pending := s.pending, done := s.done } = s ∧
        u.pending = none ∧ u.done = true) := by
  cases i <;>
    simp only [Instr.opcode, Option.some.injEq, reduceCtorEq, isHashCommand, Bool.true_eq_false] at h hi <;>
    subst h <;>
    simp only [exec, execNop, execMov, execLdi, execCmp, execModadd, execModsub, execModred, execModmul, execMontmul,
      execMontrr, execModinv, execTojac, execFromjac, execPdbl, execPadd, execSmul, execOncurve, execIsinf,
      execKeygen, execQcheck, execSign, execVerify] at hu <;>
    obtain ⟨e, he⟩ | ⟨t, ht, -, rfl⟩ := perform_next hu
  all_goals try exact .inl ⟨e, he⟩
  all_goals
    refine .inr ⟨?_, rfl, rfl⟩
    try simp only [modularRule] at ht
    repeat' split at ht
    all_goals first | (cases ht; done) | (cases ht; rfl)

/-- A command of the hash engine or the HMAC sequencer raises one error, or completes having changed no more than hash
state. -/
theorem hash_command_next {i : Instr} {op : Nat} {s u : State} (h : i.opcode = some op)
    (hi : isHashCommand i = true) (hu : exec i s = .next u) :
    (∃ e, u = raiseCmd op e s) ∨
      ({ u with
          hstate := s.hstate, hmact := s.hmact, hkv := s.hkv, dkind := s.dkind, alg := s.alg, halg := s.halg
          outlen := s.outlen, dlen := s.dlen, run := s.run, digest := s.digest, ipk := s.ipk, opk := s.opk
          pending := s.pending, done := s.done } = s ∧
        u.pending = none ∧ u.done = true) := by
  cases i <;>
    simp only [Instr.opcode, Option.some.injEq, reduceCtorEq, isHashCommand, Bool.false_eq_true] at h hi <;>
    subst h <;>
    simp only [exec, execHinit, execHfinal, execHmkey, execHmstart, execHmfinal] at hu <;>
    obtain ⟨e, he⟩ | ⟨t, ht, -, rfl⟩ := perform_next hu
  all_goals try exact .inl ⟨e, he⟩
  all_goals
    refine .inr ⟨?_, rfl, rfl⟩
    repeat' split at ht
    all_goals first | (cases ht; done) | (cases ht; rfl)

/-- A command raises one error, or completes with BUSY 0, DONE 1, and ERR and ERRCODE as they were. -/
theorem command_next {i : Instr} {op : Nat} {s u : State} (h : i.opcode = some op) (hu : exec i s = .next u) :
    (∃ e, u = raiseCmd op e s) ∨
      (u.pending = none ∧ u.done = true ∧ u.err = s.err ∧ u.errcode = s.errcode) := by
  cases hi : isHashCommand i with
  | false =>
    refine (plain_command_next h hi hu).imp_right fun ⟨hr, hp, hd⟩ => ⟨hp, hd, ?_, ?_⟩
    · rw [← hr]
    · rw [← hr]
  | true =>
    refine (hash_command_next h hi hu).imp_right fun ⟨hr, hp, hd⟩ => ⟨hp, hd, ?_, ?_⟩
    · rw [← hr]
    · rw [← hr]

/-! ## Registers a command keeps -/

@[simp] theorem big_setVal_ne {s : State} {i r : Reg} {v : Nat} (h : ¬ r = i) : (s.setVal i v).big r = s.big r :=
  big_setBig_ne h

theorem big_writeResult {s : State} {rd r : Reg} {v : Nat} (h : ¬ r = rd) : (writeResult rd v s).big r = s.big r :=
  big_setBig_ne h

theorem big_setPt {s : State} {rd r : Reg} {q : Jac} (h : r ∉ tripleRegs rd) : (s.setPt rd q).big r = s.big r := by
  simp only [tripleRegs, List.mem_cons, List.not_mem_nil, or_false, not_or] at h
  simp [State.setPt, h]

theorem big_setAff {s : State} {rd r : Reg} {q : Nat × Nat} (h : r ∉ pairRegs rd) :
    (s.setAff rd q).big r = s.big r := by
  simp only [pairRegs, List.mem_cons, List.not_mem_nil, or_false, not_or] at h
  simp [State.setAff, h]

theorem big_writePt {s : State} {rd r : Reg} {q : Jac} (h : r ∉ tripleRegs rd) : (writePt rd q s).big r = s.big r :=
  big_setPt (s := s) h

theorem big_writeAff {s : State} {rd r : Reg} {q : Nat × Nat} (h : r ∉ pairRegs rd) :
    (writeAff rd q s).big r = s.big r :=
  big_setAff (s := s) h

/-! No flag computation touches a big register. -/

@[simp] theorem big_setCompare (s : State) (a b : Nat) (r : Reg) : (s.setCompare a b).big r = s.big r := rfl
@[simp] theorem big_setZero (s : State) (v : Nat) (r : Reg) : (s.setZero v).big r = s.big r := rfl
@[simp] theorem big_setInf (s : State) (y : Nat) (r : Reg) : (s.setInf y).big r = s.big r := rfl
@[simp] theorem big_setOnc (s : State) (b : Bool) (r : Reg) : (s.setOnc b).big r = s.big r := rfl
@[simp] theorem big_setValid (s : State) (b : Bool) (r : Reg) : (s.setValid b).big r = s.big r := rfl
@[simp] theorem big_setDegen (s : State) (b : Bool) (r : Reg) : (s.setDegen b).big r = s.big r := rfl
@[simp] theorem big_setNoninv (s : State) (b : Bool) (r : Reg) : (s.setNoninv b).big r = s.big r := rfl

theorem big_setPublic {s : State} {q : Nat × Nat} {tag : Byte} {r : Reg} (hx : ¬ r = regQX) (hy : ¬ r = regQY) :
    (setPublic q tag s).big r = s.big r := by
  show (((s.setVal regQX q.1).setVal regQY q.2).setInf q.2).big r = s.big r
  simp [hx, hy]

/-! The one flag each result writes. -/

theorem flags_setVal (s : State) (r : Reg) (v : Nat) : (s.setVal r v).flags = s.flags := rfl
theorem flags_writeResult (rd : Reg) (v : Nat) (s : State) :
    (writeResult rd v s).flags = { s.flags with zero := decide (v = 0) } := rfl
theorem flags_writePt (rd : Reg) (q : Jac) (s : State) :
    (writePt rd q s).flags = { s.flags with inf := decide (q.y = 0) } := rfl
theorem flags_writeAff (rd : Reg) (q : Nat × Nat) (s : State) :
    (writeAff rd q s).flags = { s.flags with inf := decide (q.2 = 0) } := rfl
theorem flags_setPublic (q : Nat × Nat) (tag : Byte) (s : State) :
    (setPublic q tag s).flags = { s.flags with inf := decide (q.2 = 0) } := rfl
theorem flags_setCompare (s : State) (a b : Nat) : (s.setCompare a b).flags =
    { s.flags with eq := decide (a = b), lt := decide (a < b), gt := decide (b < a) } := rfl
theorem flags_setInf (s : State) (y : Nat) : (s.setInf y).flags = { s.flags with inf := decide (y = 0) } := rfl
theorem flags_setOnc (s : State) (b : Bool) : (s.setOnc b).flags = { s.flags with onc := b } := rfl
theorem flags_setValid (s : State) (b : Bool) : (s.setValid b).flags = { s.flags with valid := b } := rfl
theorem flags_setDegen (s : State) (b : Bool) : (s.setDegen b).flags = { s.flags with degen := b } := rfl
theorem flags_setNoninv (s : State) (b : Bool) : (s.setNoninv b).flags = { s.flags with noninv := b } := rfl

/-- A modular command that completes keeps the registers that are not its destination. -/
theorem modularRule_keeps {rd rm r : Reg} {v : Nat} {s t : State} (h : modularRule rd rm v s = .ok t)
    (hr : ¬ r = rd) : t.big r = s.big r := by
  unfold modularRule at h
  split at h
  · cases h
  · cases h; exact big_writeResult hr

/-- A hash command keeps every big register. -/
theorem hash_command_keeps_registers {i : Instr} {op : Nat} {s u : State} (h : i.opcode = some op)
    (hi : isHashCommand i = true) (hu : exec i s = .next u) (r : Reg) : u.big r = s.big r := by
  obtain ⟨e, rfl⟩ | ⟨hr, -, -⟩ := hash_command_next h hi hu
  · rfl
  · rw [← hr]; rfl

theorem big_raiseCmd (op : Nat) (e : Err) (s : State) (r : Reg) : (raiseCmd op e s).big r = s.big r := rfl

/-- A command outside the hash engine keeps every big register that is not one of its destinations. -/
theorem plain_command_keeps_registers {i : Instr} {op : Nat} {s u : State} (h : i.opcode = some op)
    (hi : isHashCommand i = false) (hu : exec i s = .next u) {r : Reg} (hr : r ∉ destRegs i) : u.big r = s.big r := by
  cases i <;>
    simp only [Instr.opcode, Option.some.injEq, reduceCtorEq, isHashCommand, Bool.true_eq_false] at h hi <;>
    subst h <;>
    simp only [destRegs, List.mem_cons, List.not_mem_nil, or_false, not_or] at hr <;>
    simp only [exec, execNop, execMov, execLdi, execCmp, execModadd, execModsub, execModred, execModmul, execMontmul,
      execMontrr, execModinv, execTojac, execFromjac, execPdbl, execPadd, execSmul, execOncurve, execIsinf,
      execKeygen, execQcheck, execSign, execVerify] at hu <;>
    obtain ⟨e, he⟩ | ⟨t, ht, -, rfl⟩ := perform_next hu
  all_goals try exact he ▸ big_raiseCmd ..
  all_goals rw [big_complete]
  case modadd | modsub | modred | modmul | montrr => exact modularRule_keeps ht hr
  case mov | ldi => cases ht; exact big_writeResult hr
  case nop | cmp | oncurve | isinf => cases ht; rfl
  case tojac | pdbl | padd | smul => cases ht; exact big_writePt hr
  case fromjac => cases ht; exact big_writeAff hr
  case montmul =>
    split at ht
    · cases ht
    · split at ht
      · cases ht
      · cases ht; exact big_writeResult hr
  case modinv =>
    split at ht
    · cases ht
    · cases ht; rw [big_setNoninv]; exact big_writeResult hr
  case keygen =>
    split at ht
    · cases ht
    · split at ht
      · cases ht
      · cases ht; exact big_setPublic hr.1 hr.2
  case qcheck =>
    split at ht
    · cases ht
    · split at ht
      · cases ht
      · cases ht; rfl
  case sign =>
    repeat' split at ht
    all_goals cases ht
    rw [big_setDegen, big_setVal_ne hr.2.2, big_setVal_ne hr.2.1, big_setVal_ne hr.1]
  case verify =>
    repeat' split at ht
    all_goals cases ht
    rw [big_setValid, big_setVal_ne hr]

end Sys2Proof.Machine
end

