-- ==== Sys2Proof/Laws/Step.lean ====
section
/-! SUPPORT. What a step can do: exec answers a next state for every instruction, and the agents' steps case by case. -/

namespace Sys2Proof.Machine

/-- Every instruction answers a next state, in every state. -/
theorem exec_next (i : Instr) (s : State) : ∃ t, exec i s = .next t := by
  cases h : i.opcode with
  | some op =>
    obtain ⟨rule, hr⟩ := exec_command h s
    obtain ⟨e, he⟩ | ⟨t, -, -, ht⟩ := perform_cases op (checksOf i) s rule
    · exact ⟨_, hr.trans he⟩
    · exact ⟨_, hr.trans ht⟩
  | none =>
    cases i <;> simp only [Instr.opcode, reduceCtorEq] at h
    case hashDin v => exact ⟨_, rfl⟩
    case hashDinb v => exact ⟨_, rfl⟩
    case ctrlClockc =>
      simp only [exec, execCtrlClockc]
      split
      · exact ⟨_, rfl⟩
      · split <;> exact ⟨_, rfl⟩
    case ctrlSrst => exact ⟨_, rfl⟩

theorem engineStep_next (s : State) : ∃ t, engineStep s = .next t := by
  unfold engineStep
  split
  · exact ⟨_, rfl⟩
  · split
    · exact exec_next _ _
    · exact ⟨_, rfl⟩

theorem hostWrite_next (off : Nat) (v : Word) (s : State) : ∃ t, hostWrite off v s = .next t := by
  unfold hostWrite
  split
  · exact exec_next _ _
  · exact ⟨_, rfl⟩

/-- The engine's step: none while no command is latched; else exec of the latched command, or E_ILLEGAL. -/
theorem engineStep_cases {s t : State} (h : engineStep s = .next t) :
    (s.pending = none ∧ t = s) ∨
      ∃ w, s.pending = some w ∧
        ((∃ i, decodeCmd w = .ok i ∧ exec i s = .next t) ∨ t = raiseCmd (bits w 7 0) .illegal s) := by
  unfold engineStep at h
  split at h
  · rename_i hp
    injection h with h
    exact .inl ⟨hp, h.symm⟩
  · rename_i w hp
    split at h
    · rename_i i hd
      exact .inr ⟨w, hp, .inl ⟨i, hd, h⟩⟩
    · injection h with h
      exact .inr ⟨w, hp, .inr h.symm⟩

/-- A host access that gives a next state lies in the window: of the wrong shape it raises E_ACCESS, an aligned read is
hostRead, an aligned write is a row of the opcode table or a plain store. -/
theorem hostAccess_cases {a : Access} {s t : State} (h : hostAccess a s = .next t) :
    (∃ off n, a = .read off n ∧ off < 0x2000 ∧
      ((wellShaped off n = true ∧ t = hostRead off s) ∨
        (wellShaped off n = false ∧ t = { accessError off s with rdata := 0 }))) ∨
    (∃ off n v, a = .write off n v ∧ off < 0x2000 ∧
      ((wellShaped off n = true ∧ ((∃ i, decodeWrite off v = .ok i ∧ exec i s = .next t) ∨ t = hostStore off v s)) ∨
        (wellShaped off n = false ∧ t = accessError off s))) := by
  cases a with
  | read off n =>
    simp only [hostAccess] at h
    by_cases ho : Config.window ≤ off
    · rw [if_pos ho] at h; cases h
    · rw [if_neg ho] at h
      refine .inl ⟨off, n, rfl, Nat.not_le.1 ho, ?_⟩
      cases hw : wellShaped off n <;> simp [hw] at h
      · exact .inr ⟨rfl, h.symm⟩
      · exact .inl ⟨rfl, h.symm⟩
  | write off n v =>
    simp only [hostAccess] at h
    by_cases ho : Config.window ≤ off
    · rw [if_pos ho] at h; cases h
    · rw [if_neg ho] at h
      refine .inr ⟨off, n, v, rfl, Nat.not_le.1 ho, ?_⟩
      cases hw : wellShaped off n <;> simp [hw] at h
      · exact .inr ⟨rfl, h.symm⟩
      · refine .inl ⟨rfl, ?_⟩
        unfold hostWrite at h
        split at h
        · rename_i i hd
          exact .inl ⟨i, hd, h⟩
        · injection h with h
          exact .inr h.symm

/-- A step takes the first event, or the engine's turn when none is left. -/
theorem step_cases {s t : State} (h : step s = .next t) :
    (s.inputs = [] ∧ engineStep s = .next t) ∨
      ∃ e rest, s.inputs = e :: rest ∧
        ((e = .engine ∧ engineStep { s with inputs := rest } = .next t) ∨
          (e = .reset ∧ t = coreReset { s with inputs := rest }) ∨
          ∃ a, e = .host a ∧ hostAccess a { s with inputs := rest } = .next t) := by
  unfold step nextEvent at h
  split at h
  · rename_i hi
    exact .inl ⟨hi, h⟩
  · rename_i e rest hi
    refine .inr ⟨e, rest, hi, ?_⟩
    cases e with
    | engine => exact .inl ⟨rfl, h⟩
    | reset => injection h with h; exact .inr (.inl ⟨rfl, h.symm⟩)
    | host a => exact .inr (.inr ⟨a, rfl, h⟩)

end Sys2Proof.Machine
end

