-- ==== Sys2Proof/Laws/Bus.lean ====
section
/-! SUPPORT. The register window: what an access of either shape is, where each offset lies, the data ports, and what a
plain store can do. -/

namespace Sys2Proof.Machine

/-! ## Accesses by shape -/

theorem hostAccess_read {off : Nat} (ho : off < 0x2000) (ha : off % 4 = 0) (s : State) :
    hostAccess (.read off 4) s = .next (hostRead off s) := by
  have h1 : ¬ Config.window ≤ off := Nat.not_le.2 ho
  simp [hostAccess, h1, wellShaped, ha]

theorem hostAccess_write {off : Nat} (ho : off < 0x2000) (ha : off % 4 = 0) (v : Word) (s : State) :
    hostAccess (.write off 4 v) s = hostWrite off v s := by
  have h1 : ¬ Config.window ≤ off := Nat.not_le.2 ho
  simp [hostAccess, h1, wellShaped, ha]

theorem wellShaped_false {off bytes : Nat} (h : bytes ≠ 4 ∨ off % 4 ≠ 0) : wellShaped off bytes = false := by
  unfold wellShaped
  rcases h with h | h <;> simp [h]

/-- A write at an offset of no bus row is a plain store. -/
theorem hostWrite_plain {off : Nat} (h1 : off ≠ 0x040) (h2 : off ≠ 0x044) (h3 : off ≠ 0x008) (v : Word) (s : State) :
    hostWrite off v s = .next (hostStore off v s) := by
  simp [hostWrite, decode, decodeWrite, hashDinOffset, hashDinbOffset, ctrlOffset, h1, h2, h3]

theorem hostWrite_hashDin (v : Word) (s : State) : hostWrite 0x040 v s = exec (.hashDin v) s := rfl

theorem hostWrite_hashDinb (v : Word) (s : State) :
    hostWrite 0x044 v s = exec (.hashDinb (BitVec.ofNat 8 (bits v 7 0))) s := rfl

theorem bit_of_getLsbD (v : Word) (n : Nat) : bits v n n = (v.getLsbD n).toNat := by
  simp only [bits, BitVec.getLsbD, Nat.testBit, Nat.shiftRight_eq_div_pow]
  rw [show n + 1 - n = 1 by omega, Nat.pow_one, Nat.one_and_eq_mod_two]
  rcases Nat.mod_two_eq_zero_or_one (v.toNat / 2 ^ n) with h | h <;> rw [h] <;> rfl

/-- A CTRL write: the soft reset, the curve lock, or nothing (70 R311). -/
theorem hostWrite_ctrl (v : Word) (s : State) : hostWrite 0x008 v s =
    if v.getLsbD 0 = true then .next (coreReset s)
    else if v.getLsbD 1 = true then exec .ctrlClockc s
    else .next s := by
  have h0 := bit_of_getLsbD v 0
  have h1 := bit_of_getLsbD v 1
  cases hb0 : v.getLsbD 0 <;> cases hb1 : v.getLsbD 1 <;> rw [hb0] at h0 <;> rw [hb1] at h1 <;>
    simp [hostWrite, decode, decodeWrite, hashDinOffset, hashDinbOffset, ctrlOffset, h0, h1] <;>
    simp [hostStore, regionOf, storesOnWrite, exec, execCtrlSrst]

/-! ## Data ports -/

theorem dataPort_busy {s : State} (h : s.busy = true) (off : Nat) (bs : List Byte) :
    dataPort off bs s = raiseBus off .busy s := by simp [dataPort, h]

theorem dataPort_err {s : State} (hb : s.busy = false) (he : s.err = true) (off : Nat) (bs : List Byte) :
    dataPort off bs s = s := by simp [dataPort, hb, he]

theorem dataPort_idle {s : State} (hb : s.busy = false) (he : s.err = false) (hs : s.hstate ≠ .absorb) (off : Nat)
    (bs : List Byte) : dataPort off bs s = raiseBus off .hseq s := by simp [dataPort, hb, he, hs]

theorem dataPort_absorb {s : State} {a : Alg} (hb : s.busy = false) (he : s.err = false) (hs : s.hstate = .absorb)
    (ha : s.alg = some a) (off : Nat) (bs : List Byte) :
    dataPort off bs s = { s with run := absorbBytes a s.run bs } := by
  simp [dataPort, hb, he, hs, sessionAbsorb, ha]

/-! ## Plain stores -/

theorem hostStore_status (v : Word) (s : State) :
    hostStore 0x00C v s = { s with done := s.done && !v.getLsbD 1 } := by
  unfold hostStore
  cases hv : v.getLsbD 1 <;> simp [regionOf]

theorem hostStore_ie (v : Word) (s : State) :
    hostStore 0x018 v s = { s with doneIe := v.getLsbD 0, errIe := v.getLsbD 1 } := by
  simp [hostStore, regionOf]

/-- A store to a region that does not store is ignored. -/
theorem hostStore_ignored {off : Nat} {s : State} (h1 : regionOf off ≠ .status) (h2 : regionOf off ≠ .ie)
    (h3 : storesOnWrite (regionOf off) = false) (v : Word) : hostStore off v s = s := by
  simp [hostStore, h1, h2, h3]

theorem hostStore_busy {off : Nat} {s : State} (h : storesOnWrite (regionOf off) = true) (hb : s.busy = true)
    (v : Word) : hostStore off v s = raiseBus off .busy s := by
  have h1 : regionOf off ≠ .status := fun hr => by rw [hr] at h; cases h
  have h2 : regionOf off ≠ .ie := fun hr => by rw [hr] at h; cases h
  simp [hostStore, h1, h2, h, hb]

theorem hostStore_err {off : Nat} {s : State} (h1 : regionOf off ≠ .status) (h2 : regionOf off ≠ .ie)
    (hb : s.busy = false) (he : s.err = true) (v : Word) : hostStore off v s = s := by
  simp [hostStore, h1, h2, hb, he]

theorem hostStore_region {off : Nat} {s : State} (h : storesOnWrite (regionOf off) = true) (hb : s.busy = false)
    (he : s.err = false) (v : Word) : hostStore off v s = storeRegion off (regionOf off) v s := by
  have h1 : regionOf off ≠ .status := fun hr => by rw [hr] at h; cases h
  have h2 : regionOf off ≠ .ie := fun hr => by rw [hr] at h; cases h
  simp [hostStore, h1, h2, h, hb, he]

/-! ## The address map -/

/-- Word j of the stride of BR[i] (20 R62). -/
theorem regionOf_big (i : Reg) (j : Fin 18) : regionOf (0x1000 + 0x80 * i.val + 4 * j.val) = .big i j := by
  have hi := i.isLt
  have hj := j.isLt
  unfold regionOf
  repeat rw [if_neg (by omega)]
  rw [if_pos (by omega)]
  unfold bigRegion
  have h1 : (0x1000 + 0x80 * i.val + 4 * j.val) % 0x80 / 4 = j.val := by omega
  have h2 : (0x1000 + 0x80 * i.val + 4 * j.val - 0x1000) / 0x80 = i.val := by omega
  simp only [h1, h2]
  rw [dif_pos hj]
  congr 1
  exact Fin.ext (Nat.mod_eq_of_lt hi)

theorem regionOf_keybuf {k : Nat} (hk : k < 64) : regionOf (0x200 + 4 * k) = .keybuf ⟨k, hk⟩ := by
  unfold regionOf
  repeat rw [if_neg (by omega)]
  rw [if_pos (by omega)]
  congr 1
  apply Fin.ext
  simp only [Fin.ofNat]
  omega

theorem regionOf_digest {k : Nat} (hk : k < 16) : regionOf (0x100 + 4 * k) = .digest ⟨k, hk⟩ := by
  unfold regionOf
  repeat rw [if_neg (by omega)]
  rw [if_pos (by omega)]
  congr 1
  apply Fin.ext
  simp only [Fin.ofNat]
  omega

/-- The map from offset 0x04C on. -/
theorem regionOf_high {off : Nat} (h : 0x04C ≤ off) : regionOf off =
    if 0x100 ≤ off ∧ off < 0x140 then .digest (Fin.ofNat 16 ((off - 0x100) / 4))
    else if 0x200 ≤ off ∧ off < 0x300 then .keybuf (Fin.ofNat 64 ((off - 0x200) / 4))
    else if 0x1000 ≤ off ∧ off < 0x2000 then bigRegion off
    else .reserved := by
  unfold regionOf
  repeat rw [if_neg (show ¬ off = _ by omega)]

/-- No control register stands at offset 0x04C or above. -/
theorem regionOf_high_cases {off : Nat} (h : 0x04C ≤ off) :
    (∃ k, regionOf off = .digest k) ∨ (∃ k, regionOf off = .keybuf k) ∨ (∃ i j, regionOf off = .big i j) ∨
      regionOf off = .reserved := by
  rw [regionOf_high h]
  split
  · exact .inl ⟨_, rfl⟩
  · split
    · exact .inr (.inl ⟨_, rfl⟩)
    · split
      · unfold bigRegion
        simp only
        split
        · exact .inr (.inr (.inl ⟨_, _, rfl⟩))
        · exact .inr (.inr (.inr rfl))
      · exact .inr (.inr (.inr rfl))

/-- STATUS stands at one offset. -/
theorem regionOf_status_iff (off : Nat) : regionOf off = .status ↔ off = 0x00C := by
  constructor
  · intro h
    by_cases hl : off < 0x04C
    · interval_cases off <;> first | rfl | (simp [regionOf] at h)
    · obtain ⟨k, hk⟩ | ⟨k, hk⟩ | ⟨i, j, hk⟩ | hk := regionOf_high_cases (Nat.not_lt.1 hl) <;> rw [hk] at h <;> cases h
  · rintro rfl; rfl

/-- IE stands at one offset. -/
theorem regionOf_ie_iff (off : Nat) : regionOf off = .ie ↔ off = 0x018 := by
  constructor
  · intro h
    by_cases hl : off < 0x04C
    · interval_cases off <;> first | rfl | (simp [regionOf] at h)
    · obtain ⟨k, hk⟩ | ⟨k, hk⟩ | ⟨i, j, hk⟩ | hk := regionOf_high_cases (Nat.not_lt.1 hl) <;> rw [hk] at h <;> cases h
  · rintro rfl; rfl

end Sys2Proof.Machine
end

