-- ==== Sys2Proof/Laws/Curve.lean ====
section
/-! SUPPORT. The point functions: every result fits a big register, and the second reading of mul. -/

namespace Sys2Proof.Machine

/-- Every coordinate of a triple is below m. -/
def Jac.Below (m : Nat) (q : Jac) : Prop := q.x < m ∧ q.y < m ∧ q.z < m

theorem inf_below {m : Nat} (h : 0 < m) : Jac.inf.Below m := ⟨h, h, h⟩

theorem jdbl_below {p m : Nat} (hp : 0 < p) (hpm : p ≤ m) (a : Nat) (q : Jac) : (jdbl p a q).Below m := by
  unfold jdbl
  split
  · exact inf_below (by omega)
  · exact ⟨(imod_lt _ hp).trans_le hpm, (imod_lt _ hp).trans_le hpm, (Nat.mod_lt _ hp).trans_le hpm⟩

theorem jadd_below {p m : Nat} (hp : 0 < p) (hpm : p ≤ m) (a : Nat) {q1 q2 : Jac} (h1 : q1.Below m)
    (h2 : q2.Below m) : (jadd p a q1 q2).Below m := by
  unfold jadd
  split
  · exact h2
  · split
    · exact h1
    · dsimp only
      split
      · split
        · exact jdbl_below hp hpm a q1
        · exact inf_below (by omega)
      · exact ⟨(imod_lt _ hp).trans_le hpm, (imod_lt _ hp).trans_le hpm, (imod_lt _ hp).trans_le hpm⟩

theorem ladder_below {p m : Nat} (hp : 0 < p) (hpm : p ≤ m) (a : Nat) {q : Jac} (hq : q.Below m) :
    ∀ fuel k, (ladder p a q fuel k).Below m
  | 0, _ => inf_below (by omega)
  | fuel + 1, k => by
    unfold ladder
    split
    · exact inf_below (by omega)
    · split
      · exact hq
      · dsimp only
        split
        · exact jdbl_below hp hpm a _
        · exact jadd_below hp hpm a (jdbl_below hp hpm a _) hq

theorem mul_below {p m : Nat} (hp : 0 < p) (hpm : p ≤ m) (a n : Nat) {q : Jac} (hq : q.Below m) (k : Int) :
    (mul p a n q k).Below m := by
  unfold mul
  split
  · exact inf_below (by omega)
  · split
    · exact hq
    · exact ladder_below hp hpm a hq _ _

theorem fromjac_lt {p : Nat} (hp : 0 < p) (q : Jac) : (fromjac p q).1 < p ∧ (fromjac p q).2 < p :=
  ⟨Nat.mod_lt _ hp, Nat.mod_lt _ hp⟩

theorem pt_below (s : State) (r : Reg) : (s.pt r).Below (2 ^ 576) :=
  ⟨val_lt s _, val_lt s _, val_lt s _⟩

theorem pt_eq (s : State) {r r1 r2 : Reg} (h1 : r1.val = r.val + 1) (h2 : r2.val = r.val + 2) :
    s.pt r = ⟨s.val r, s.val r1, s.val r2⟩ := by
  simp only [State.pt, groupReg_eq h1, groupReg_eq h2]

theorem aff_eq (s : State) {r r1 : Reg} (h1 : r1.val = r.val + 1) : s.aff r = (s.val r, s.val r1) := by
  simp only [State.aff, groupReg_eq h1]

/-! ## Fuel and bits of the scalar multiplier -/

theorem bitlen_eq_size (v : Nat) : bitlen v = Nat.size v := by
  unfold bitlen
  split
  · next h => subst h; rfl
  · next h =>
    apply Nat.le_antisymm
    · exact Nat.lt_size.2 (by rw [Nat.log2_eq_log_two]; exact Nat.pow_log_le_self 2 h)
    · exact Nat.size_le.2 Nat.lt_log2_self

/-- The halving steps do not depend on the fuel once it bounds the bits of the scalar. -/
theorem ladder_fuel (p a : Nat) (q : Jac) : ∀ f g k, k < 2 ^ f → k < 2 ^ g →
    ladder p a q (f + 1) k = ladder p a q (g + 1) k
  | 0, g, k, hf, _ => by
    have : k = 0 := by simpa using hf
    subst this
    simp [ladder]
  | f + 1, 0, k, _, hg => by
    have : k = 0 := by simpa using hg
    subst this
    simp [ladder]
  | f + 1, g + 1, k, hf, hg => by
    have h1 : k / 2 < 2 ^ f := by rw [pow_succ] at hf; omega
    have h2 : k / 2 < 2 ^ g := by rw [pow_succ] at hg; omega
    have ih := ladder_fuel p a q f g (k / 2) h1 h2
    unfold ladder
    rw [ih]

end Sys2Proof.Machine
end

