-- ==== Sys2Proof/Laws/Hash.lean ====
section
/-! SUPPORT. The streaming hash: shapes and lengths, what absorbing bytes does, and the whole blocks of a message. -/

namespace Sys2Proof.Machine

/-! ## Shapes -/

theorem length_lanes (f : Nat → Nat → BitVec 64) : (lanes f).length = 25 := by simp [lanes]

theorem length_keccakRound (a : List (BitVec 64)) (rc : BitVec 64) : (keccakRound a rc).length = 25 := by
  simp [keccakRound, keccakIota, keccakChi, length_lanes]

theorem length_foldl_keccakRound (rcs : List (BitVec 64)) {a : List (BitVec 64)} (h : a.length = 25) :
    (rcs.foldl keccakRound a).length = 25 := by
  induction rcs generalizing a with
  | nil => exact h
  | cons rc rcs ih => exact ih (length_keccakRound a rc)

theorem length_keccakCompress (n : Nat) (a : List (BitVec 64)) (block : List Byte) :
    (keccakCompress n a block).length = 25 := length_foldl_keccakRound _ (by simp)

theorem chainShape_hashIv (a : Alg) : chainShape a (hashIv a) := by cases a <;> exact ⟨rfl, rfl⟩

/-- A compression gives a chaining value of its algorithm's shape. -/
theorem chainShape_compress (a : Alg) (cv : Chain) (block : List Byte) : chainShape a (compress a cv block) := by
  cases a
  case sha3_224 | sha3_256 | sha3_384 | sha3_512 | shake128 | shake256 => exact ⟨rfl, length_keccakCompress _ _ _⟩
  all_goals exact ⟨rfl, rfl⟩

theorem block_pos (a : Alg) : 0 < a.block := by cases a <;> decide

theorem digestSize_le_block (a : Alg) : a.digestSize.toNat ≤ a.block := by cases a <;> decide

theorem digestSize_le (a : Alg) : a.digestSize.toNat ≤ 64 := by cases a <;> decide

/-! ## Absorbing -/

/-- What a session's BUF and CV always are: a partial block and a chaining value of the right shape. -/
def Partial (a : Alg) (r : HashRun) : Prop := r.buf.length < a.block ∧ chainShape a r.cv

theorem partial_hashStart (a : Alg) : Partial a (hashStart a) := ⟨block_pos a, chainShape_hashIv a⟩

theorem partial_absorbByte {a : Alg} {r : HashRun} (h : Partial a r) (b : Byte) : Partial a (absorbByte a r b) := by
  unfold absorbByte
  split
  · exact ⟨block_pos a, chainShape_compress _ _ _⟩
  · rename_i hn
    refine ⟨?_, h.2⟩
    have := h.1
    simp only [List.length_append, List.length_cons, List.length_nil]
    omega

theorem partial_absorbBytes {a : Alg} (bs : List Byte) {r : HashRun} (h : Partial a r) :
    Partial a (absorbBytes a r bs) := by
  induction bs generalizing r with
  | nil => exact h
  | cons b bs ih => exact ih (partial_absorbByte h b)

theorem count_absorbByte (a : Alg) (r : HashRun) (b : Byte) : (absorbByte a r b).count = r.count + 1 := by
  unfold absorbByte; split <;> rfl

theorem count_absorbBytes (a : Alg) (bs : List Byte) (r : HashRun) :
    (absorbBytes a r bs).count = r.count + BitVec.ofNat 64 bs.length := by
  induction bs generalizing r with
  | nil => simp [absorbBytes]
  | cons b bs ih =>
    show (absorbBytes a (absorbByte a r b) bs).count = _
    rw [ih, count_absorbByte, List.length_cons, BitVec.add_assoc]
    congr 1
    rw [Nat.add_comm, BitVec.ofNat_add]
    rfl

theorem absorbBytes_append (a : Alg) (r : HashRun) (xs ys : List Byte) :
    absorbBytes a r (xs ++ ys) = absorbBytes a (absorbBytes a r xs) ys := by
  simp [absorbBytes, List.foldl_append]

/-- Bytes that do not fill the buffer are appended to it. -/
theorem absorbBytes_short (a : Alg) (bs : List Byte) (r : HashRun) (h : r.buf.length + bs.length < a.block) :
    (absorbBytes a r bs).buf = r.buf ++ bs ∧ (absorbBytes a r bs).cv = r.cv := by
  induction bs generalizing r with
  | nil => simp [absorbBytes]
  | cons b bs ih =>
    rw [List.length_cons] at h
    have hb : absorbByte a r b = { r with buf := r.buf ++ [b], count := r.count + 1 } := by
      unfold absorbByte; rw [if_neg (by omega)]
    show (absorbBytes a (absorbByte a r b) bs).buf = _ ∧ (absorbBytes a (absorbByte a r b) bs).cv = _
    rw [hb]
    have := ih { r with buf := r.buf ++ [b], count := r.count + 1 } (by simp; omega)
    simpa using this

/-- Bytes that exactly fill the buffer are compressed. -/
theorem absorbBytes_fill (a : Alg) (bs : List Byte) (r : HashRun) (h0 : bs ≠ [])
    (h : r.buf.length + bs.length = a.block) :
    (absorbBytes a r bs).buf = [] ∧ (absorbBytes a r bs).cv = compress a r.cv (r.buf ++ bs) := by
  obtain ⟨xs, b, rfl⟩ := List.eq_nil_or_concat bs |>.resolve_left h0
  rw [List.concat_eq_append] at h ⊢
  rw [List.length_append, List.length_cons, List.length_nil] at h
  rw [absorbBytes_append]
  obtain ⟨h1, h2⟩ := absorbBytes_short a xs r (by omega)
  show (absorbByte a (absorbBytes a r xs) b).buf = _ ∧ (absorbByte a (absorbBytes a r xs) b).cv = _
  unfold absorbByte
  rw [if_pos (by rw [h1, List.length_append]; omega), h1, h2]
  simp

/-! ## Lengths of digests and padding -/

theorem length_leBytes {w : Nat} (n : Nat) (x : BitVec w) : (leBytes n x).length = n := by simp [leBytes]

theorem length_beBytes {w : Nat} (n : Nat) (x : BitVec w) : (beBytes n x).length = n := by
  simp [beBytes, length_leBytes]

/-- The padding of SHA-2 and RIPEMD, the length field included, fills one or two blocks. -/
theorem length_padZeros {block m k n : Nat} (hm : m + k = block) (hn : n < block) (hk : 1 < block) (hk0 : 0 < k) :
    n + ((padZeros block m n).length + k) = block ∨ n + ((padZeros block m n).length + k) = 2 * block := by
  simp only [padZeros, List.length_cons, List.length_replicate]
  by_cases h1 : n + 1 < block
  · rw [Nat.mod_eq_of_lt h1]
    by_cases h2 : n + 1 ≤ m
    · left
      have : (block + m - (n + 1)) % block = m - (n + 1) := by
        rw [show block + m - (n + 1) = m - (n + 1) + block by omega, Nat.add_mod_right,
          Nat.mod_eq_of_lt (by omega)]
      omega
    · right
      have : (block + m - (n + 1)) % block = block + m - (n + 1) := Nat.mod_eq_of_lt (by omega)
      omega
  · right
    have h2 : n + 1 = block := by omega
    have h3 : (n + 1) % block = 0 := by rw [h2, Nat.mod_self]
    have : (block + m - (n + 1) % block) % block = m := by
      rw [h3, Nat.sub_zero, Nat.add_mod_left, Nat.mod_eq_of_lt (by omega)]
    omega

theorem length_padSponge {block n : Nat} (d : Byte) (hn : n < block) :
    n + (padSponge block d n).length = block := by
  simp only [padSponge]
  split
  · simp; omega
  · simp; omega

/-- The padded tail is one or two blocks (47 R217). -/
theorem length_hashPad (a : Alg) {n : Nat} (c : BitVec 64) (hn : n < a.block) :
    n + (hashPad a n c).length = a.block ∨ n + (hashPad a n c).length = 2 * a.block := by
  cases a <;> simp only [hashPad, Alg.block, List.length_append, length_beBytes, length_leBytes] at hn ⊢
  case sha3_224 | sha3_256 | sha3_384 | sha3_512 | shake128 | shake256 => exact .inl (length_padSponge _ hn)
  all_goals exact length_padZeros (by decide) hn (by decide) (by decide)

theorem length_flatMap_const {α : Type} {f : α → List Byte} {n : Nat} (hf : ∀ x, (f x).length = n) (xs : List α) :
    (xs.flatMap f).length = n * xs.length := by
  induction xs with
  | nil => simp
  | cons x xs ih => simp only [List.flatMap_cons, List.length_append, hf, ih, List.length_cons, Nat.mul_succ]; omega

/-- The chaining value serialises to at least the digest of the table, and for SHAKE to at least 64 bytes. -/
theorem length_serialise {a : Alg} {cv : Chain} (h : chainShape a cv) :
    a.digestSize.toNat ≤ (serialise a cv).length ∧ (a.isShake = true → 64 ≤ (serialise a cv).length) := by
  cases cv with
  | words32 ws =>
    obtain ⟨h1, h2⟩ := h
    cases a <;> simp [isWide] at h1 <;>
      simp only [serialise, chainWords32, length_flatMap_const (length_beBytes 4),
        length_flatMap_const (length_leBytes 4), h2] <;> decide
  | words64 ws =>
    obtain ⟨h1, h2⟩ := h
    cases a <;> simp [isWide] at h1 <;>
      simp only [serialise, chainWords64, length_flatMap_const (length_beBytes 8),
        length_flatMap_const (length_leBytes 8), h2] <;> decide

/-- Compressing blocks gives a chaining value of the right shape. -/
theorem chainShape_compressBlocks (a : Alg) (n : Nat) {cv : Chain} (h : chainShape a cv) (data : List Byte) :
    chainShape a (compressBlocks a n cv data) := by
  induction n generalizing cv data with
  | zero => exact h
  | succ n ih =>
    unfold compressBlocks
    split
    · exact h
    · exact ih (chainShape_compress _ _ _) _

/-- A finalisation gives exactly the bytes asked for. -/
theorem length_hashFinal {a : Alg} {r : HashRun} {n : Nat} (h : chainShape a r.cv)
    (hn : n ≤ a.digestSize.toNat ∨ (a.isShake = true ∧ n ≤ 64)) : (hashFinal a r n).length = n := by
  obtain ⟨h1, h2⟩ := length_serialise (chainShape_compressBlocks a 2 h (r.buf ++ hashPad a r.buf.length r.count))
  rw [hashFinal, List.length_take, Nat.min_eq_left]
  rcases hn with hn | ⟨hs, hn⟩
  · omega
  · have := h2 hs; omega

theorem length_hashAll (a : Alg) (m : List Byte) : (hashAll a m).length = a.digestSize.toNat :=
  length_hashFinal (partial_absorbBytes m (partial_hashStart a)).2 (.inl (Nat.le_refl _))

/-- K0 is one block (49 R270). -/
theorem length_hmacK0 (a : Alg) (key : List Byte) : (hmacK0 a key).length = a.block := by
  have h1 := length_hashAll a key
  have h2 := digestSize_le_block a
  unfold hmacK0
  by_cases hk : a.block < key.length
  · simp only [if_pos hk, List.length_append, List.length_replicate]; omega
  · simp only [if_neg hk, List.length_append, List.length_replicate]; omega

end Sys2Proof.Machine
end

