-- ==== Sys2Proof/Laws/Inv.lean ====
section
/-! SUPPORT. The invariant and the shared operations: each update of State keeps State.Inv. -/

namespace Sys2Proof.Machine

/-- The invariant of a state whose hash fields are those of a state that has it, once its own control fields obey it. -/
theorem State.Inv.of_hash_fields {s t : State} (h : s.Inv)
    (hash : { s with
      br := t.br, curveLock := t.curveLock, done := t.done, err := t.err, errcode := t.errcode, flags := t.flags
      doneIe := t.doneIe, errIe := t.errIe, curveId := t.curveId, dtag := t.dtag, qtag := t.qtag, klen := t.klen
      keybuf := t.keybuf, pending := t.pending, rdata := t.rdata, drawn := t.drawn, inputs := t.inputs } = t)
    (h1 : t.pending.isSome = true → t.done = false ∧ t.err = false)
    (h2 : t.err = false → t.errcode = 0) (h3 : t.err = true → t.errcode.toNat % 256 ≠ 0) : t.Inv := by
  refine ⟨fun hp => (h1 hp).1, fun hp => (h1 hp).2, h2, h3, ?_, ?_, ?_, ?_, ?_, ?_, ?_, ?_, ?_, ?_, ?_⟩ <;> rw [← hash]
  · exact h.algIdle
  · exact h.outlenIdle
  · exact h.outlenSession
  · exact h.dlenDone
  · exact h.digestTail
  · exact h.macDone
  · exact h.hmacSession
  · exact h.keyValid
  · exact h.keyBlocks
  · exact h.noKey
  · exact h.partialBlock

/-- The control fields of a state that has the invariant. -/
theorem State.Inv.control {s : State} (h : s.Inv) : s.pending.isSome = true → s.done = false ∧ s.err = false :=
  fun hp => ⟨h.busyNotDone hp, h.busyNotErr hp⟩

theorem State.Inv.raise {s : State} (h : s.Inv) (e : Err) (eop : BitVec 8) (eoff : BitVec 16) :
    (raise e eop eoff s).Inv := by
  refine h.of_hash_fields rfl (by simp) (by simp) ?_
  intro _
  rw [raise_errcode]
  cases he : s.err with
  | true => exact h.codeSet he
  | false =>
    have h1 := errNum_ne_zero e
    have h2 := (errNum e).isLt
    simp only [Bool.false_eq_true, if_false, errWord_toNat]
    omega

/-- Setting DONE with no command latched, and changing what no clause speaks of. -/
theorem State.Inv.completed {s t : State} (h : s.Inv)
    (hash : { s with
      br := t.br, curveLock := t.curveLock, done := t.done, flags := t.flags, qtag := t.qtag
      pending := t.pending } = t)
    (hp : t.pending = none) : t.Inv := by
  have e1 : t.err = s.err := by rw [← hash]
  have e2 : t.errcode = s.errcode := by rw [← hash]
  refine h.of_hash_fields ?_ (by simp [hp]) (by rw [e1, e2]; exact h.codeZero) (by rw [e1, e2]; exact h.codeSet)
  rw [← hash]

theorem State.Inv.coreReset (s : State) : (coreReset s).Inv := by
  refine ⟨?_, ?_, ?_, ?_, ?_, ?_, ?_, ?_, ?_, ?_, ?_, ?_, ?_, ?_, ?_⟩ <;>
    simp [Machine.coreReset, State.reset, Vector.get_eq_getElem]

/-- An event leaving the list changes nothing the invariant speaks of. -/
theorem State.Inv.withInputs {s : State} (h : s.Inv) (l : List Event) : { s with inputs := l }.Inv :=
  h.of_hash_fields rfl h.control h.codeZero h.codeSet

/-! ## The states the hash commands leave -/

theorem digest_clear (i : Fin 64) : (Vector.replicate 64 (0 : Byte)).get i = 0 := by simp [Vector.get_eq_getElem]

theorem digest_write (n : Nat) (out : List Byte) (i : Fin 64) :
    (Vector.ofFn (n := 64) fun i => if i.val < n then out.getD i.val 0 else (0 : Byte)).get i =
      if i.val < n then out.getD i.val 0 else 0 := by
  simp [Vector.get_eq_getElem]

/-- A session open for the algorithm a. -/
theorem State.Inv.opened {s t : State} {a : Alg} (h : s.Inv)
    (hash : { s with
      run := t.run, alg := some a, outlen := t.outlen, hstate := .absorb, hmact := t.hmact
      digest := Vector.replicate 64 0, dlen := 0, dkind := .hash, pending := none, done := t.done } = t)
    (hr : Partial a t.run) (ho : t.outlen.toNat ≤ 64 ∧ (a.isShake = false → t.outlen = a.digestSize))
    (hm : t.hmact = true → s.halg = some a ∧ s.hkv = true) : t.Inv := by
  rw [← hash]
  refine ⟨by simp, by simp, h.codeZero, h.codeSet, by simp, by simp, ?_, by simp, ?_, by simp, ?_, h.keyValid,
    h.keyBlocks, h.noKey, ?_⟩
  · intro b hb
    cases hb
    exact ho
  · intro i _; exact digest_clear i
  · intro hh
    exact ⟨rfl, (hm hh).1.symm, (hm hh).2⟩
  · intro _ b hb
    cases hb
    exact hr

/-- A session finished. -/
theorem State.Inv.finished {s : State} (h : s.Inv) (hs : s.hstate = .absorb) (r : HashRun) (out : List Byte)
    (k : DKind) (d : Bool) (p : Option Word) (hp : p = none) :
    { writeDigest out k { s with run := r, hmact := false } with pending := p, done := d }.Inv := by
  have ha : s.alg ≠ none := fun hn => by
    have := h.algIdle.2 hn
    rw [hs] at this
    cases this
  subst hp
  refine ⟨by simp, by simp, h.codeZero, h.codeSet, ?_, by simp, h.outlenSession, by simp, ?_, by simp, by simp,
    h.keyValid, h.keyBlocks, h.noKey, by simp⟩
  · simpa using ha
  · intro i hi
    have : i.val < s.outlen.toNat → False := fun hlt => by simp at hi; omega
    simp only [writeDigest]
    rw [digest_write, if_neg this]

end Sys2Proof.Machine
end

