-- ==== Sys2Proof/Laws/PerInstr.lean ====
section
/-! SUPPORT. One fact of every instruction as syntax: what carries it to CORE. A command is carried by a command word
whose low byte is its opcode (30 R90, R97); a bus row by a write at its offset (10 R27, R37). -/

namespace Sys2Proof.Laws.Carried

open Sys2Proof

/-- The encoding of i is a command word with its opcode in bits [7:0], or a write to CTRL, HASH_DIN or HASH_DINB. -/
def Statement (i : Instr) : Prop :=
  match i.opcode with
  | some op => ∃ w, encode i = .cmd w ∧ bits w 7 0 = op
  | none => ∃ off v, encode i = .write off v ∧ (off = 0x008 ∨ off = 0x040 ∨ off = 0x044)

theorem formatR_cmd {op : Nat} (hop : op < 256) (rd ra rb rm : Reg) {x : Nat} (hx : x < 16) :
    bits (formatR op rd ra rb rm x) 7 0 = op := formatR_opcode hop hx rd ra rb rm

theorem nop : Statement .nop := ⟨_, rfl, (formatN_fields (by decide)).1⟩

theorem mov (rd : Reg) (ra : Reg) : Statement (.mov rd ra) :=
  ⟨_, rfl, formatR_cmd (by decide) rd ra 0 0 (by decide)⟩

theorem ldi (rd : Reg) (imm : BitVec 16) : Statement (.ldi rd imm) :=
  ⟨_, rfl, (formatL_fields (by decide) rd imm).1⟩

theorem cmp (ra : Reg) (rb : Reg) : Statement (.cmp ra rb) :=
  ⟨_, rfl, formatR_cmd (by decide) 0 ra rb 0 (by decide)⟩

theorem modadd (rd : Reg) (ra : Reg) (rb : Reg) (rm : Reg) : Statement (.modadd rd ra rb rm) :=
  ⟨_, rfl, formatR_cmd (by decide) rd ra rb rm (by decide)⟩

theorem modsub (rd : Reg) (ra : Reg) (rb : Reg) (rm : Reg) : Statement (.modsub rd ra rb rm) :=
  ⟨_, rfl, formatR_cmd (by decide) rd ra rb rm (by decide)⟩

theorem modred (rd : Reg) (ra : Reg) (rm : Reg) : Statement (.modred rd ra rm) :=
  ⟨_, rfl, formatR_cmd (by decide) rd ra 0 rm (by decide)⟩

theorem modmul (rd : Reg) (ra : Reg) (rb : Reg) (rm : Reg) : Statement (.modmul rd ra rb rm) :=
  ⟨_, rfl, formatR_cmd (by decide) rd ra rb rm (by decide)⟩

theorem montmul (rd : Reg) (ra : Reg) (rb : Reg) (rm : Reg) : Statement (.montmul rd ra rb rm) :=
  ⟨_, rfl, formatR_cmd (by decide) rd ra rb rm (by decide)⟩

theorem montrr (rd : Reg) (rm : Reg) : Statement (.montrr rd rm) :=
  ⟨_, rfl, formatR_cmd (by decide) rd 0 0 rm (by decide)⟩

theorem modinv (rd : Reg) (ra : Reg) (rm : Reg) : Statement (.modinv rd ra rm) :=
  ⟨_, rfl, formatR_cmd (by decide) rd ra 0 rm (by decide)⟩

theorem tojac (rd : Reg) (ra : Reg) : Statement (.tojac rd ra) :=
  ⟨_, rfl, formatR_cmd (by decide) rd ra 0 0 (by decide)⟩

theorem fromjac (rd : Reg) (ra : Reg) : Statement (.fromjac rd ra) :=
  ⟨_, rfl, formatR_cmd (by decide) rd ra 0 0 (by decide)⟩

theorem pdbl (rd : Reg) (ra : Reg) : Statement (.pdbl rd ra) :=
  ⟨_, rfl, formatR_cmd (by decide) rd ra 0 0 (by decide)⟩

theorem padd (rd : Reg) (ra : Reg) (rb : Reg) : Statement (.padd rd ra rb) :=
  ⟨_, rfl, formatR_cmd (by decide) rd ra rb 0 (by decide)⟩

theorem smul (neg : Bool) (rd : Reg) (ra : Reg) (rb : Reg) : Statement (.smul neg rd ra rb) :=
  ⟨_, rfl, formatR_cmd (by decide) rd ra rb 0 (by cases neg <;> decide)⟩

theorem oncurve (ra : Reg) : Statement (.oncurve ra) := ⟨_, rfl, formatR_cmd (by decide) 0 ra 0 0 (by decide)⟩

theorem isinf (ra : Reg) : Statement (.isinf ra) := ⟨_, rfl, formatR_cmd (by decide) 0 ra 0 0 (by decide)⟩

theorem keygen : Statement .keygen := ⟨_, rfl, (formatN_fields (by decide)).1⟩

theorem qcheck : Statement .qcheck := ⟨_, rfl, (formatN_fields (by decide)).1⟩

theorem sign : Statement .sign := ⟨_, rfl, (formatN_fields (by decide)).1⟩

theorem verify : Statement .verify := ⟨_, rfl, (formatN_fields (by decide)).1⟩

theorem hinit (alg : BitVec 5) (olen : BitVec 7) : Statement (.hinit alg olen) :=
  ⟨_, rfl, (formatH_fields (by decide) alg olen).1⟩

theorem hfinal : Statement .hfinal := ⟨_, rfl, (formatN_fields (by decide)).1⟩

theorem hmkey (alg : BitVec 5) : Statement (.hmkey alg) := ⟨_, rfl, (formatH_fields (by decide) alg 0).1⟩

theorem hmstart : Statement .hmstart := ⟨_, rfl, (formatN_fields (by decide)).1⟩

theorem hmfinal : Statement .hmfinal := ⟨_, rfl, (formatN_fields (by decide)).1⟩

theorem hashDin (v : Word) : Statement (.hashDin v) := ⟨_, _, rfl, by decide⟩

theorem hashDinb (b : Byte) : Statement (.hashDinb b) := ⟨_, _, rfl, by decide⟩

theorem ctrlClockc : Statement .ctrlClockc := ⟨_, _, rfl, by decide⟩

theorem ctrlSrst : Statement .ctrlSrst := ⟨_, _, rfl, by decide⟩

end Sys2Proof.Laws.Carried
end

