-- ==== Sys2Proof/Laws/Results.lean ====
section
/-! SUPPORT. What a command that passes its checks leaves: one lemma per shape of result (one register, a pair, a
triple). -/

namespace Sys2Proof.Machine

/-- The checks of a command with one destination register and no curve. -/
theorem checks_dest {s : State} {rd : Reg} (h : Writable s rd) : commonChecks { dests := [rd] } s = none := by
  rw [commonChecks_none_iff]
  refine ⟨rfl, ?_, by simp, by simp⟩
  cases hl : s.curveLock
  · simp [destLocked, hl]
  · have := h hl
    simp [destLocked, isCurveReg]
    omega

/-- The checks of a command whose destinations are the group of rd, none of them protected. -/
theorem checks_group {s : State} {rd : Reg} {c : Checks} (hg : groupsOk c = true) (h : Writable s rd)
    (hd : ∀ r ∈ c.dests, rd.val ≤ r.val) (hc : c.curve = true → CurveReady s)
    (ho : c.order = true → s.val regN ≠ 0) : commonChecks c s = none := by
  rw [commonChecks_none_iff]
  refine ⟨hg, ?_, hc, ho⟩
  cases hl : s.curveLock
  · simp [destLocked, hl]
  · have hw := h hl
    rw [Bool.eq_false_iff]
    intro hd'
    obtain ⟨-, r, hr, h6⟩ := (destLocked_iff c s).1 hd'
    have := hd r hr
    omega

/-- One register and ZERO. -/
theorem complete_writeResult {s : State} {rd : Reg} {v : Nat} (h : v < 2 ^ 576) :
    complete (writeResult rd v s) = { s.setBig rd (BitVec.ofNat 576 v) with
      flags := { s.flags with zero := decide (BitVec.ofNat 576 v = 0) }, pending := none, done := true } := by
  have := ofNat_eq_zero_iff h
  simp only [this]
  rfl

/-- A pair and INF. -/
theorem complete_writeAff {s : State} {rd rd1 : Reg} {q : Nat × Nat} (h1 : rd1.val = rd.val + 1)
    (hy : q.2 < 2 ^ 576) :
    complete (writeAff rd q s) = { (s.setBig rd (BitVec.ofNat 576 q.1)).setBig rd1 (BitVec.ofNat 576 q.2) with
      flags := { s.flags with inf := decide (BitVec.ofNat 576 q.2 = 0) }, pending := none, done := true } := by
  have := ofNat_eq_zero_iff hy
  simp only [this, writeAff, State.setAff, groupReg_eq h1]
  rfl

/-- A triple and INF. -/
theorem complete_writePt {s : State} {rd rd1 rd2 : Reg} {q : Jac} (h1 : rd1.val = rd.val + 1)
    (h2 : rd2.val = rd.val + 2) (hy : q.y < 2 ^ 576) :
    complete (writePt rd q s) =
      { ((s.setBig rd (BitVec.ofNat 576 q.x)).setBig rd1 (BitVec.ofNat 576 q.y)).setBig rd2 (BitVec.ofNat 576 q.z) with
        flags := { s.flags with inf := decide (BitVec.ofNat 576 q.y = 0) }, pending := none, done := true } := by
  have := ofNat_eq_zero_iff hy
  simp only [this, writePt, State.setPt, groupReg_eq h1, groupReg_eq h2]
  rfl

/-- A modular command with a writable destination, a modulus that is not 0, and a reduced result. -/
theorem modular_form {op : Nat} {s : State} {rd rm : Reg} {v : Nat} (hw : Writable s rd) (hm : s.val rm ≠ 0)
    (h : v < s.val rm) :
    perform op { dests := [rd] } s (modularRule rd rm v s) = .next { s.setBig rd (BitVec.ofNat 576 v) with
      flags := { s.flags with zero := decide (BitVec.ofNat 576 v = 0) }, pending := none, done := true } := by
  rw [modularRule, if_neg hm, perform_ok (checks_dest hw), complete_writeResult (h.trans (val_lt s rm))]

theorem tripleRegs_ge {rd rd1 rd2 : Reg} (h1 : rd1.val = rd.val + 1) (h2 : rd2.val = rd.val + 2) :
    ∀ r ∈ tripleRegs rd, rd.val ≤ r.val := by
  intro r hr
  rw [mem_tripleRegs (by omega)] at hr
  exact hr.1

theorem pairRegs_ge {rd rd1 : Reg} (h1 : rd1.val = rd.val + 1) : ∀ r ∈ pairRegs rd, rd.val ≤ r.val := by
  intro r hr
  rw [mem_pairRegs (by omega)] at hr
  exact hr.1

end Sys2Proof.Machine
end

