-- ==== Sys2Proof/Laws/Streaming.lean ====
section
/-! SUPPORT. The streaming of a message: absorbing its bytes one by one is compressing its whole blocks in order. -/

namespace Sys2Proof.Machine

/-- The blocks of a byte string do not depend on the bound once it is large enough. -/
theorem chunks_fuel {size : Nat} (hs : 0 < size) : ∀ (n n' : Nat) (m : List Byte), m.length ≤ n * size →
    m.length ≤ n' * size → chunks size n m = chunks size n' m
  | 0, n', m, h, _ => by
    have : m = [] := by simpa using h
    subst this
    cases n' <;> simp [chunks, hs]
  | n + 1, 0, m, _, h => by
    have : m = [] := by simpa using h
    subst this
    simp [chunks, hs]
  | n + 1, n' + 1, m, h, h' => by
    unfold chunks
    rw [Nat.succ_mul] at h h'
    rw [chunks_fuel hs n n' (m.drop size) (by rw [List.length_drop]; omega) (by rw [List.length_drop]; omega)]

/-- Compressing block after block is folding over the blocks. -/
theorem compressBlocks_chunks (a : Alg) : ∀ n cv data,
    compressBlocks a n cv data = (chunks a.block n data).foldl (compress a) cv
  | 0, _, _ => rfl
  | n + 1, cv, data => by
    unfold compressBlocks chunks
    split
    · rfl
    · rw [compressBlocks_chunks a n]; rfl

/-- A whole block at the front is the first block. -/
theorem chunks_block {size : Nat} (hs : 0 < size) (x y : List Byte) (hx : x.length = size) :
    chunks size (x ++ y).length (x ++ y) = x :: chunks size y.length y := by
  obtain ⟨n, hn⟩ : ∃ n, (x ++ y).length = n + 1 := ⟨(x ++ y).length - 1, by rw [List.length_append]; omega⟩
  rw [hn]
  have hu : chunks size (n + 1) (x ++ y) = (x ++ y).take size :: chunks size n ((x ++ y).drop size) := by
    rw [chunks, if_neg (by rw [List.length_append]; omega)]
  rw [hu]
  have h1 : (x ++ y).take size = x := by rw [← hx]; simp
  have h2 : (x ++ y).drop size = y := by rw [← hx]; simp
  rw [h1, h2]
  congr 1
  apply chunks_fuel hs
  · rw [List.length_append] at hn
    have : y.length ≤ n := by omega
    exact this.trans (Nat.le_mul_of_pos_right n hs)
  · exact Nat.le_mul_of_pos_right _ hs

/-- Absorbing bytes before a tail leaves the chaining value of the blocks they complete. -/
theorem chunks_absorbBytes (a : Alg) (tail : List Byte) : ∀ (bs : List Byte) (r : HashRun), Partial a r →
    (chunks a.block (r.buf ++ bs ++ tail).length (r.buf ++ bs ++ tail)).foldl (compress a) r.cv =
      (chunks a.block ((absorbBytes a r bs).buf ++ tail).length ((absorbBytes a r bs).buf ++ tail)).foldl
        (compress a) (absorbBytes a r bs).cv
  | [], r, h => by simp [absorbBytes]
  | b :: bs, r, h => by
    have ih := chunks_absorbBytes a tail bs (absorbByte a r b) (partial_absorbByte h b)
    have e0 : absorbBytes a r (b :: bs) = absorbBytes a (absorbByte a r b) bs := rfl
    rw [e0, ← ih]
    by_cases hb : r.buf.length + 1 = a.block
    · have e : absorbByte a r b = { cv := compress a r.cv (r.buf ++ [b]), buf := [], count := r.count + 1 } := by
        rw [absorbByte, if_pos hb]
      rw [e]
      have e2 : r.buf ++ b :: bs ++ tail = (r.buf ++ [b]) ++ (bs ++ tail) := by simp
      rw [e2, chunks_block (block_pos a) _ _ (by simpa using hb)]
      simp
    · have e : absorbByte a r b = { r with buf := r.buf ++ [b], count := r.count + 1 } := by
        rw [absorbByte, if_neg hb]
      rw [e]
      simp

/-- BUF holds what no whole block took. -/
theorem length_buf_absorbBytes (a : Alg) : ∀ (bs : List Byte) (r : HashRun), Partial a r →
    (absorbBytes a r bs).buf.length = (r.buf.length + bs.length) % a.block
  | [], r, h => by
    show r.buf.length = _
    rw [List.length_nil, Nat.add_zero, Nat.mod_eq_of_lt h.1]
  | b :: bs, r, h => by
    have ih := length_buf_absorbBytes a bs (absorbByte a r b) (partial_absorbByte h b)
    show (absorbBytes a (absorbByte a r b) bs).buf.length = _
    rw [ih]
    by_cases hb : r.buf.length + 1 = a.block
    · rw [absorbByte, if_pos hb]
      have : r.buf.length + (b :: bs).length = bs.length + a.block := by simp; omega
      rw [this, Nat.add_mod_right]; simp
    · rw [absorbByte, if_neg hb]
      congr 1; simp; omega

end Sys2Proof.Machine
end

