-- ==== Sys2Proof/Laws/Words.lean ====
section
/-! SUPPORT. Words on the bus: the 32-bit words of a big register, the bytes of a bus word, and the fields of a status
word. -/

namespace Sys2Proof.Machine

/-! ## Words of a big register (20 R62) -/

theorem toNat_bigWord (v : Big) (j : Fin 18) : (bigWord v j).toNat = v.toNat / 2 ^ (32 * j.val) % 2 ^ 32 := by
  rw [bigWord, BitVec.extractLsb'_toNat, Nat.shiftRight_eq_div_pow]

theorem getLsbD_wordMask (i : Nat) : BitVec.getLsbD (0xFFFFFFFF#576) i = decide (i < 32) := by
  have h : (0xFFFFFFFF#576) = BitVec.setWidth 576 (BitVec.allOnes 32) := by
    rw [BitVec.toNat_eq, BitVec.toNat_setWidth, BitVec.toNat_allOnes, BitVec.toNat_ofNat]
  rw [h, BitVec.getLsbD_setWidth, BitVec.getLsbD_allOnes]
  by_cases h : i < 32
  · have : i < 576 := by omega
    simp [h, this]
  · simp [h]

theorem getLsbD_setBigWord (v : Big) (j : Fin 18) (w : Word) {n : Nat} (hn : n < 576) :
    (setBigWord v j w).getLsbD n =
      if 32 * j.val ≤ n ∧ n < 32 * j.val + 32 then w.getLsbD (n - 32 * j.val) else v.getLsbD n := by
  unfold setBigWord
  rw [BitVec.getLsbD_or, BitVec.getLsbD_and, BitVec.getLsbD_not, BitVec.getLsbD_shiftLeft, BitVec.getLsbD_shiftLeft,
    getLsbD_wordMask, BitVec.getLsbD_setWidth]
  by_cases h1 : n < 32 * j.val
  · have h6 : ¬ 32 * j.val ≤ n := by omega
    simp [hn, h1, h6]
  · have h6 : 32 * j.val ≤ n := by omega
    by_cases h2 : n < 32 * j.val + 32
    · have h3 : n - 32 * j.val < 32 := by omega
      have h4 : n - 32 * j.val < 576 := by omega
      simp [hn, h1, h3, h4, h2, h6]
    · have h3 : ¬ n - 32 * j.val < 32 := by omega
      have h5 : w.getLsbD (n - 32 * j.val) = false := BitVec.getLsbD_of_ge w _ (by omega)
      simp [hn, h1, h3, h2, h5]

/-- Replacing word j leaves the other words. -/
theorem bigWord_setBigWord (v : Big) (j : Fin 18) (w : Word) (k : Fin 18) :
    bigWord (setBigWord v j w) k = if k = j then w else bigWord v k := by
  apply BitVec.eq_of_getLsbD_eq
  intro i hi
  have hk := k.isLt
  have hj := j.isLt
  rw [bigWord, BitVec.getLsbD_extractLsb']
  simp only [hi, decide_true, Bool.true_and]
  rw [getLsbD_setBigWord _ _ _ (by omega)]
  by_cases h : k = j
  · subst h
    rw [if_pos (by omega), if_pos rfl]
    congr 1
    omega
  · have : k.val ≠ j.val := fun h' => h (Fin.ext h')
    rw [if_neg (by omega), if_neg h, bigWord, BitVec.getLsbD_extractLsb']
    simp [hi]

/-! ## Bytes of a bus word (20 R61) -/

theorem toNat_busWord (b0 b1 b2 b3 : Byte) :
    (busWord b0 b1 b2 b3).toNat = b0.toNat + 2 ^ 8 * b1.toNat + 2 ^ 16 * b2.toNat + 2 ^ 24 * b3.toNat := by
  have h0 := b0.isLt
  have h1 := b1.isLt
  have h2 := b2.isLt
  simp only [busWord, BitVec.toNat_append]
  rw [← Nat.shiftLeft_add_eq_or_of_lt h0, ← Nat.shiftLeft_add_eq_or_of_lt h1, ← Nat.shiftLeft_add_eq_or_of_lt h2]
  simp only [Nat.shiftLeft_eq]
  omega

theorem toNat_wordByte (w : Word) (b : Nat) : (wordByte w b).toNat = w.toNat / 2 ^ (8 * b) % 2 ^ 8 := by
  rw [wordByte, BitVec.extractLsb'_toNat, Nat.shiftRight_eq_div_pow]

theorem digestByte_get (s : State) (i : Fin 64) : s.digestByte i.val = s.digest.get i := by
  simp [State.digestByte, Vector.get_eq_getElem, List.getD_eq_getElem?_getD]

theorem keybufByte_get (s : State) (i : Fin 256) : s.keybufByte i.val = s.keybuf.get i := by
  simp [State.keybufByte, Vector.get_eq_getElem, List.getD_eq_getElem?_getD]

/-! ## Fields of a status word -/

/-- A field that stands above every bit of x adds to it. -/
theorem toNat_or_ofNat {x : Word} {m n : Nat} (hx : x.toNat < 2 ^ n) (hm : m * 2 ^ n < 2 ^ 32) :
    (x ||| BitVec.ofNat 32 (m * 2 ^ n)).toNat = x.toNat + m * 2 ^ n := by
  rw [BitVec.toNat_or, BitVec.toNat_ofNat, Nat.mod_eq_of_lt hm, Nat.or_comm, ← Nat.shiftLeft_eq,
    ← Nat.shiftLeft_add_eq_or_of_lt hx, Nat.add_comm]

theorem toNat_or_bitAt {x : Word} {n : Nat} (b : Bool) (hx : x.toNat < 2 ^ n) (hn : n < 32) :
    (x ||| bitAt b n).toNat = x.toNat + b.toNat * 2 ^ n := by
  refine toNat_or_ofNat hx ?_
  have h1 : b.toNat ≤ 1 := Bool.toNat_le b
  have h2 : b.toNat * 2 ^ n ≤ 1 * 2 ^ n := Nat.mul_le_mul_right _ h1
  rw [Nat.one_mul] at h2
  exact h2.trans_lt (Nat.pow_lt_pow_right (by omega) hn)

end Sys2Proof.Machine
end

