-- ==== Sys2Proof/WellFormed.lean ====
section
/-! DEFINITION. Well-formed instructions: every operand lies in the range the spec gives it. CORE decodes an
ill-formed command and refuses it with an error (60 R285), so these checks are static, not the decoder's. -/

namespace Sys2Proof

/-- A pair operand needs a base of at most 30 (30 R96). -/
def pairInRange (r : Reg) : Bool := r.val ≤ 30

/-- A triple operand needs a base of at most 29 (30 R96). -/
def tripleInRange (r : Reg) : Bool := r.val ≤ 29

/-- HINIT: a known algorithm; olen 0 but for SHAKE, and at most 64 there (47 R213). -/
def hinitOperandsOk (alg : BitVec 5) (olen : BitVec 7) : Bool :=
  match Alg.ofCode alg with
  | none => false
  | some a => if a.isShake then olen.toNat ≤ Config.digestBytes else olen == 0

/-- HMKEY: a known algorithm other than SHAKE (49 R270). -/
def hmkeyOperandsOk (alg : BitVec 5) : Bool :=
  match Alg.ofCode alg with
  | none => false
  | some a => !a.isShake

/-- Every operand in the range the spec gives it. -/
def Instr.wellFormed : Instr → Bool
  | .tojac rd ra => tripleInRange rd && pairInRange ra
  | .fromjac rd ra => pairInRange rd && tripleInRange ra
  | .pdbl rd ra => tripleInRange rd && tripleInRange ra
  | .padd rd ra rb => tripleInRange rd && tripleInRange ra && tripleInRange rb
  | .smul _ rd ra _ => tripleInRange rd && tripleInRange ra
  | .oncurve ra => pairInRange ra
  | .isinf ra => pairInRange ra
  | .hinit alg olen => hinitOperandsOk alg olen
  | .hmkey alg => hmkeyOperandsOk alg
  | .nop | .mov _ _ | .ldi _ _ | .cmp _ _ => true
  | .modadd _ _ _ _ | .modsub _ _ _ _ | .modred _ _ _ => true
  | .modmul _ _ _ _ | .montmul _ _ _ _ | .montrr _ _ | .modinv _ _ _ => true
  | .keygen | .qcheck | .sign | .verify => true
  | .hfinal | .hmstart | .hmfinal => true
  | .hashDin _ | .hashDinb _ | .ctrlClockc | .ctrlSrst => true

/-- A host access reaches CORE only at an offset inside the window (20 R60; log entry 6). -/
def Access.inWindow : Access → Bool
  | .read off _ => off < Config.window
  | .write off _ _ => off < Config.window

end Sys2Proof
end

