-- ==== Sys2Proof/Tests/Slice0.lean ====
section
/-! SUPPORT. Tests. Decoding: words written out from the encodings of 30 R97 and the examples of 30 R101. Meanings: one
step on a small state, with the values of spec/95_test_vectors.md (the row is named beside each test). Witnesses: for
every statement with hypotheses, concrete states and operands that meet them. -/

namespace Sys2Proof.Tests

-- The proofs of this file are checked one after the other: many at once need more memory than the build has.
set_option Elab.async false

open Sys2Proof Sys2Proof.Machine

/-! ## Decoding, bit by bit (30 R91 to R97) -/

theorem test_decode_nop : decodeCmd 0b00000000_00000000_00000000_00000001#32 = .ok .nop := by rfl
theorem test_decode_mov : decodeCmd 0b0000_00000_00000_00111_10100_00000010#32 = .ok (.mov 20 7) := by rfl
theorem test_decode_ldi : decodeCmd 0b1000000000010111_000_10000_00000011#32 = .ok (.ldi 16 0x8017) := by rfl
theorem test_decode_cmp : decodeCmd 0b0000_00000_11000_10111_00000_00000100#32 = .ok (.cmp 23 24) := by rfl
theorem test_decode_modadd :
    decodeCmd 0b0000_10000_10010_10001_10011_00010000#32 = .ok (.modadd 19 17 18 16) := by rfl
theorem test_decode_modsub :
    decodeCmd 0b0000_10000_10001_10010_10100_00010001#32 = .ok (.modsub 20 18 17 16) := by rfl
theorem test_decode_modred : decodeCmd 0b0000_00101_00000_01110_01100_00010010#32 = .ok (.modred 12 14 5) := by rfl
theorem test_decode_modmul :
    decodeCmd 0b0000_10000_10010_10001_10101_00011000#32 = .ok (.modmul 21 17 18 16) := by rfl
theorem test_decode_montmul :
    decodeCmd 0b0000_10000_11001_10001_11010_00011001#32 = .ok (.montmul 26 17 25 16) := by rfl
theorem test_decode_montrr : decodeCmd 0b0000_10000_00000_00000_11001_00011010#32 = .ok (.montrr 25 16) := by rfl
theorem test_decode_modinv : decodeCmd 0b0000_10000_00000_10001_10110_00011100#32 = .ok (.modinv 22 17 16) := by rfl
theorem test_decode_tojac : decodeCmd 0b0000_00000_00000_00011_10000_00100000#32 = .ok (.tojac 16 3) := by rfl
theorem test_decode_fromjac : decodeCmd 0b0000_00000_00000_10110_11001_00100001#32 = .ok (.fromjac 25 22) := by rfl
theorem test_decode_pdbl : decodeCmd 0b0000_00000_00000_10000_10011_00100010#32 = .ok (.pdbl 19 16) := by rfl
theorem test_decode_padd : decodeCmd 0b0000_00000_10000_10011_10110_00100011#32 = .ok (.padd 22 19 16) := by rfl
theorem test_decode_smul :
    decodeCmd 0b0000_00000_11011_10000_11100_00100100#32 = .ok (.smul false 28 16 27) := by rfl
theorem test_decode_smul_neg :
    decodeCmd 0b0001_00000_11011_10000_10011_00100100#32 = .ok (.smul true 19 16 27) := by rfl
theorem test_decode_oncurve : decodeCmd 0b0000_00000_00000_11001_00000_00100101#32 = .ok (.oncurve 25) := by rfl
theorem test_decode_isinf : decodeCmd 0b0000_00000_00000_10110_00000_00100110#32 = .ok (.isinf 22) := by rfl
theorem test_decode_keygen : decodeCmd 0b00000000_00000000_00000000_00110000#32 = .ok .keygen := by rfl
theorem test_decode_qcheck : decodeCmd 0b00000000_00000000_00000000_00110001#32 = .ok .qcheck := by rfl
theorem test_decode_sign : decodeCmd 0b00000000_00000000_00000000_00110010#32 = .ok .sign := by rfl
theorem test_decode_verify : decodeCmd 0b00000000_00000000_00000000_00110011#32 = .ok .verify := by rfl
theorem test_decode_hinit : decodeCmd 0b000000000000_1000001_01100_01000000#32 = .ok (.hinit 0x0C 65) := by rfl
theorem test_decode_hfinal : decodeCmd 0b00000000_00000000_00000000_01000001#32 = .ok .hfinal := by rfl
theorem test_decode_hmkey : decodeCmd 0b000000000000_0000000_10001_01001000#32 = .ok (.hmkey 0x11) := by rfl
theorem test_decode_hmstart : decodeCmd 0b00000000_00000000_00000000_01001001#32 = .ok .hmstart := by rfl
theorem test_decode_hmfinal : decodeCmd 0b00000000_00000000_00000000_01001010#32 = .ok .hmfinal := by rfl
theorem test_decode_hash_din : decodeWrite 0x040 0x00636261 = .ok (.hashDin 0x00636261) := by rfl
theorem test_decode_hash_dinb : decodeWrite 0x044 0xFFFFFF61 = .ok (.hashDinb 0x61) := by rfl
theorem test_decode_clockc : decodeWrite 0x008 0xFFFFFFFE = .ok .ctrlClockc := by rfl
theorem test_decode_srst : decodeWrite 0x008 0x00000003 = .ok .ctrlSrst := by rfl

/-- S2, S5, S10, S14, K17, A17, M21, H24, T15: a reserved field that is not 0. -/
theorem test_reserved_fields :
    ([0x00000101, 0x0004F402, 0x00013003, 0x00082504, 0x206E1C24, 0x028DCC12, 0x0800391A, 0x00100240,
      0x00002248] : List Word).all (fun w => decodeCmd w matches .error .reservedField) = true := by rfl

/-- S15 to S17: undefined opcodes. -/
theorem test_undefined_opcodes :
    ([0x00000000, 0x00000005, 0x000000FF] : List Word).all
      (fun w => decodeCmd w matches .error .undefinedOpcode) = true := by rfl

/-! ## Well-formed terms: each check refuses an ill-formed term -/

theorem test_wf_pair_base : (Instr.oncurve 31).wellFormed = false ∧ (Instr.oncurve 30).wellFormed = true := by decide
theorem test_wf_isinf : (Instr.isinf 31).wellFormed = false := by decide
theorem test_wf_tojac :
    (Instr.tojac 30 3).wellFormed = false ∧ (Instr.tojac 16 31).wellFormed = false ∧
      (Instr.tojac 29 30).wellFormed = true := by decide
theorem test_wf_fromjac :
    (Instr.fromjac 31 3).wellFormed = false ∧ (Instr.fromjac 3 30).wellFormed = false := by decide
theorem test_wf_pdbl : (Instr.pdbl 30 3).wellFormed = false ∧ (Instr.pdbl 3 30).wellFormed = false := by decide
theorem test_wf_padd :
    (Instr.padd 30 3 3).wellFormed = false ∧ (Instr.padd 3 30 3).wellFormed = false ∧
      (Instr.padd 3 3 30).wellFormed = false := by decide
theorem test_wf_smul :
    (Instr.smul false 30 3 31).wellFormed = false ∧ (Instr.smul true 3 30 31).wellFormed = false ∧
      (Instr.smul true 29 29 31).wellFormed = true := by decide
theorem test_wf_hinit :
    (Instr.hinit 0x05 0).wellFormed = false ∧ (Instr.hinit 0x02 1).wellFormed = false ∧
      (Instr.hinit 0x0C 65).wellFormed = false ∧ (Instr.hinit 0x0C 64).wellFormed = true := by decide
theorem test_wf_hmkey : (Instr.hmkey 0x00).wellFormed = false ∧ (Instr.hmkey 0x0C).wellFormed = false := by decide
theorem test_wf_access :
    (Access.read 0x2000 4).inWindow = false ∧ (Access.write 0x2000 4 0).inWindow = false ∧
      (Access.read 0x1FFC 4).inWindow = true := by decide

/-! ## Small states -/

/-- s with values in some big registers. -/
def regs (l : List (Reg × Nat)) (s : State := State.reset) : State := l.foldl (fun t p => t.setVal p.1 p.2) s

/-- The toy curve of spec/95 section 1, loaded and not locked. -/
def toyOpen : State :=
  { regs [(0, 17), (1, 2), (2, 2), (3, 5), (4, 1), (5, 19), (6, 1)] with curveId := 0x2A }

/-- The toy curve, locked. -/
def toy : State := { toyOpen with curveLock := true }

/-- The toy curve with a finished hash digest that begins with the byte b (the one byte e is made of). -/
def toyHashed (b : Byte) : State :=
  { toy with
    dtag := 0x2A
    qtag := 0x2A
    hstate := .done
    alg := some .sha256
    outlen := 32
    dlen := 32
    digest := Vector.ofFn fun i => if i.val = 0 then b else 0 }

/-- An open hash session of a, with the bytes m in BUF. -/
def session (a : Alg) (m : List Byte) : State :=
  { State.reset with
    hstate := .absorb
    alg := some a
    outlen := a.digestSize
    run := { cv := hashIv a, buf := m, count := BitVec.ofNat 64 m.length } }

/-- A command latched. -/
def busyState : State := { State.reset with pending := some 0x00000001 }

/-- An error recorded (B2). -/
def errState : State := raise .access 0xFF 2 State.reset

/-- Does exec give a next state with the property p? -/
def answers (i : Instr) (s : State) (p : State → Bool) : Bool :=
  match exec i s with
  | .next t => p t
  | .fault _ => false
  | .refused _ => false

/-- The same of the step. -/
def stepAnswers (s : State) (p : State → Bool) : Bool :=
  match step s with
  | .next t => p t
  | .fault _ => false
  | .refused _ => false

/-! ## Meanings (spec/95 section 3) -/

/-- S1. -/
theorem test_nop : answers .nop State.reset (fun t => t.statusWord == 2 && t.flags.word == 0) = true := by
  decide +kernel

/-- S4. -/
theorem test_mov : answers (.mov 20 7) (regs [(20, 9)]) (fun t => t.val 20 == 0 && t.flags.word == 0x008) = true := by
  decide +kernel

/-- S6. -/
theorem test_mov_locked : answers (.mov 3 7) toy (fun t => t.errcode == 0x00000203 && t.val 3 == 5) = true := by
  decide +kernel

/-- S8. -/
theorem test_ldi : answers (.ldi 16 0xFFFF) State.reset (fun t => t.val 16 == 65535 && t.flags.word == 0) = true := by
  decide +kernel

/-- S12. -/
theorem test_cmp : answers (.cmp 1 2) (regs [(1, 1), (2, 2 ^ 575)]) (fun t => t.flags.word == 0x002) = true := by
  decide +kernel

/-- A3. -/
theorem test_modadd :
    answers (.modadd 4 1 2 3) (regs [(1, 2 ^ 576 - 1), (2, 2 ^ 576 - 1), (3, 23)]) (fun t => t.val 4 == 7) = true := by
  decide +kernel

/-- A8. -/
theorem test_modsub : answers (.modsub 4 1 2 3) (regs [(1, 3), (2, 50), (3, 23)]) (fun t => t.val 4 == 22) = true := by
  decide +kernel

/-- A12. -/
theorem test_modred : answers (.modred 12 14 5) (regs [(14, 40), (5, 19)]) (fun t => t.val 12 == 2) = true := by
  decide +kernel

/-- M4. -/
theorem test_modmul :
    answers (.modmul 4 1 2 3) (regs [(1, 2 ^ 576 - 1), (2, 2 ^ 576 - 1), (3, 2 ^ 521 - 1)])
      (fun t => t.val 4 == 0x3FFFFFFFFFFFFF00000000000001) = true := by
  decide +kernel

/-- M7. -/
theorem test_montmul :
    answers (.montmul 26 17 25 16) (regs [(17, 13), (25, 3), (16, 23)]) (fun t => t.val 26 == 1) = true := by
  decide +kernel

/-- M10. -/
theorem test_montmul_even :
    answers (.montmul 4 1 2 3) (regs [(1, 5), (2, 7), (3, 22)]) (fun t => t.errcode == 0x00001906) = true := by
  decide +kernel

/-- M18. -/
theorem test_montrr : answers (.montrr 25 16) (regs [(16, 12)]) (fun t => t.val 25 == 4) = true := by decide +kernel

/-- I1. -/
theorem test_modinv : answers (.modinv 22 17 16) (regs [(17, 13), (16, 23)]) (fun t => t.val 22 == 16) = true := by
  decide +kernel

/-- I9. -/
theorem test_modinv_none :
    answers (.modinv 4 1 3) (regs [(1, 6), (3, 12)]) (fun t => t.val 4 == 0 && t.flags.word == 0x108) = true := by
  decide +kernel

/-- J2. -/
theorem test_tojac :
    answers (.tojac 16 3) (regs [(3, 22)]) (fun t => t.pt 16 == ⟨22, 0, 1⟩ && t.flags.word == 0x010) = true := by
  decide +kernel

/-- J8. -/
theorem test_fromjac :
    answers (.fromjac 25 22) (regs [(22, 22), (23, 18), (24, 1)] toy) (fun t => t.aff 25 == (5, 1)) = true := by
  decide +kernel

/-- J12. -/
theorem test_pdbl :
    answers (.pdbl 19 16) (regs [(16, 5), (17, 17), (18, 1)] toy)
      (fun t => t.pt 19 == ⟨13, 2, 0⟩ && t.flags.word == 0) = true := by
  decide +kernel

/-- J14. -/
theorem test_pdbl_operand : answers (.pdbl 30 16) toy (fun t => t.errcode == 0x00002202) = true := by decide +kernel

/-- J22. -/
theorem test_padd :
    answers (.padd 22 19 16) (regs [(19, 7), (20, 7), (21, 2), (16, 3), (17, 8), (18, 2)] toy)
      (fun t => t.pt 22 == ⟨7, 10, 4⟩) = true := by
  decide +kernel

/-- J21. -/
theorem test_padd_infinity :
    answers (.padd 22 19 16) (regs [(16, 7), (18, 3)] toy)
      (fun t => t.pt 22 == ⟨7, 0, 3⟩ && t.flags.word == 0x010) = true := by
  decide +kernel

/-- K16. -/
theorem test_smul :
    answers (.smul false 16 16 17) (regs [(16, 5), (17, 1), (18, 1)] toy) (fun t => t.pt 16 == ⟨5, 1, 1⟩) = true := by
  decide +kernel

/-- K10. -/
theorem test_smul_neg :
    answers (.smul true 28 16 27) (regs [(16, 5), (17, 1), (18, 1), (27, 7)] toy)
      (fun t => t.pt 28 == ⟨0, 14, 15⟩) = true := by
  decide +kernel

/-- J24. -/
theorem test_oncurve : answers (.oncurve 25) (regs [(25, 6), (26, 3)] toy) (fun t => t.flags.word == 0x020) = true := by
  decide +kernel

/-- J26. -/
theorem test_oncurve_range : answers (.oncurve 25) (regs [(25, 22), (26, 1)] toy) (fun t => t.flags.word == 0) = true := by
  decide +kernel

/-- J31. -/
theorem test_isinf : answers (.isinf 22) (regs [(22, 9), (24, 4)]) (fun t => t.flags.word == 0x010) = true := by
  decide +kernel

/-- E3. -/
theorem test_keygen :
    answers .keygen { regs [(7, 18)] toy with dtag := 0x2A }
      (fun t => t.aff 8 == (5, 16) && t.qtag == 0x2A && t.flags.word == 0) = true := by
  decide +kernel

/-- E9. -/
theorem test_qcheck : answers .qcheck { regs [(9, 6)] toy with qtag := 0x2A } (fun t => t.statusWord == 2) = true := by
  decide +kernel

/-- E12. -/
theorem test_qcheck_bad :
    answers .qcheck { regs [(8, 17), (9, 6)] toy with qtag := 0x2A } (fun t => t.errcode == 0x00003112) = true := by
  decide +kernel

/-- E14. -/
theorem test_sign :
    answers .sign (regs [(7, 7), (10, 10)] (toyHashed 0xBA))
      (fun t => t.val 11 == 186 && t.val 12 == 7 && t.val 13 == 14 && t.flags.word == 0) = true := by
  decide +kernel

/-- E15. -/
theorem test_sign_degenerate :
    answers .sign (regs [(7, 7), (10, 7)] (toyHashed 0xBA))
      (fun t => t.val 12 == 0 && t.val 13 == 13 && t.flags.word == 0x080) = true := by
  decide +kernel

/-- E21. -/
theorem test_verify :
    answers .verify (regs [(9, 6), (12, 7), (13, 14)] (toyHashed 0xBA))
      (fun t => t.val 11 == 186 && t.flags.word == 0x040) = true := by
  decide +kernel

/-- E24. -/
theorem test_verify_range :
    answers .verify (regs [(9, 6), (12, 7), (13, 19)] (toyHashed 0xBA))
      (fun t => t.val 11 == 186 && t.flags.word == 0) = true := by
  decide +kernel

/-- H1. -/
theorem test_hinit : answers (.hinit 0x02 0) State.reset (fun t => t.hstatWord == 0x20000201) = true := by
  decide +kernel

/-- H23. -/
theorem test_hinit_length : answers (.hinit 0x0C 65) State.reset (fun t => t.errcode == 0x00004022) = true := by
  decide +kernel

/-- H3: the digest of "abc" under SHA-256. -/
theorem test_hfinal :
    answers .hfinal (session .sha256 [0x61, 0x62, 0x63])
      (fun t => t.hstatWord == 0x20000202 && t.dlen == 32 && beInt (t.digest.toList.take 32) ==
        0xba7816bf8f01cfea414140de5dae2223b00361a396177a9cb410ff61f20015ad) = true := by
  decide +kernel

/-- H13: the digest of "abc" under RIPEMD-160. -/
theorem test_hfinal_ripemd160 :
    answers .hfinal (session .ripemd160 [0x61, 0x62, 0x63])
      (fun t => beInt (t.digest.toList.take 20) == 0x8eb208f7e05d987a9b044a8e98c6b087f15a0bfc) = true := by
  decide +kernel

/-- T1, with K0 = "Jefe" and zero bytes. -/
theorem test_hmkey :
    answers (.hmkey 0x02) ({ State.reset with klen := 4 }.setKeybufWord 0 0x6566654A)
      (fun t => t.hstatWord == 0x00020008 && t.ipk.take 5 == [0x7C, 0x53, 0x50, 0x53, 0x36] && t.ipk.length == 64 &&
        t.opk.take 5 == [0x16, 0x39, 0x3A, 0x39, 0x5C]) = true := by
  decide +kernel

/-- T12. -/
theorem test_hmkey_length :
    answers (.hmkey 0x02) { State.reset with klen := 257 } (fun t => t.errcode == 0x00004822) = true := by
  decide +kernel

/-- T2. -/
theorem test_hmstart :
    answers .hmstart { State.reset with hkv := true, halg := some .sha256, ipk := List.replicate 64 0x36 }
      (fun t => t.hstatWord == 0x2002020D && t.run.count == 64) = true := by
  decide +kernel

/-- T10. -/
theorem test_hmstart_no_key : answers .hmstart State.reset (fun t => t.errcode == 0x00004920) = true := by
  decide +kernel

/-- T6: the tag of the empty message under the empty key, the inner session over IPK open. -/
theorem test_hmfinal :
    answers .hmfinal { session .sha256 [] with
        hmact := true, hkv := true, halg := some .sha256, opk := List.replicate 64 0x5C,
        run := absorbBytes .sha256 (hashStart .sha256) (List.replicate 64 0x36) }
      (fun t => t.hstatWord == 0x2002021A && t.run.count == 96 && beInt (t.digest.toList.take 32) ==
        0xb613679a0814d9ec772f95d778c35fc5ff1697c493715653c6c712144292c5ad) = true := by
  decide +kernel

/-- T14. -/
theorem test_hmfinal_no_session :
    answers .hmfinal (session .sha256 []) (fun t => t.errcode == 0x00004A20) = true := by
  decide +kernel

/-- H4. -/
theorem test_hash_din :
    answers (.hashDin 0x00636261) (session .sha256 [])
      (fun t => t.run.buf == [0x61, 0x62, 0x63, 0x00] && t.run.count == 4) = true := by
  decide +kernel

/-- H17. -/
theorem test_hash_din_no_session :
    answers (.hashDin 0x61616161) State.reset (fun t => t.errcode == 0x0040FF20) = true := by
  decide +kernel

/-- H15, its last byte: the 64th byte fills the block and is compressed. -/
theorem test_hash_dinb :
    answers (.hashDinb 0x61) (session .sha256 (List.replicate 63 0x61))
      (fun t => t.run.buf == [] && t.run.count == 64 && t.run.cv != hashIv .sha256) = true := by
  decide +kernel

/-- 20 R73, and B6. -/
theorem test_clockc :
    answers .ctrlClockc State.reset (fun t => t.ctrlWord == 2) = true ∧
      answers .ctrlClockc busyState (fun t => t.errcode == 0x0008FF07 && !t.curveLock) = true := by
  decide +kernel

/-- B17. -/
theorem test_srst : answers .ctrlSrst errState (fun t => t == State.reset) = true := by decide +kernel

/-! ## Hash functions (spec/95 section 3.8) -/

/-- H6. -/
theorem test_sha224 :
    beInt (hashAll .sha224 []) = 0xd14a028c2a3a2bc9476102bb288234c415a2b01f828ea62ac5b3e42f := by decide +kernel

/-- H7. -/
theorem test_sha384 : beInt (hashAll .sha384 []) =
    0x38b060a751ac96384cd9327eb1b1e36a21fdb71114be07434c0cc7bf63f6e1da274edebfe76f65fbd51ad2f14898b95b := by
  decide +kernel

/-- H5. -/
theorem test_sha512 : beInt (hashAll .sha512 [0x61, 0x62, 0x63]) =
    0xddaf35a193617abacc417349ae20413112e6fa4e89a97ea20a9eeee64b55d39a2192992a274fc1a836ba3c23a3feebbd454d4423643ce80e2a9ac94fa54ca49f := by
  decide +kernel

/-- H8. -/
theorem test_sha3_256 : beInt (hashAll .sha3_256 []) =
    0xa7ffc6f8bf1ed76651c14756a061d662f580ff4de43b49fa82d80a4b80f8434a := by decide +kernel

/-- 48 R249's table, a column at a time: every fourth constant. -/
theorem test_keccakRc_column0 : (List.range 6).map (fun i => keccakRc.getD (4 * i) 0) =
    [1, 0x808B, 0x8A, 0x8000808B, 0x8000000000008002, 0x8000000080008081] := by decide +kernel

theorem test_keccakRc_column1 : (List.range 6).map (fun i => keccakRc.getD (4 * i + 1) 0) =
    [0x8082, 0x80000001, 0x88, 0x800000000000008B, 0x8000000000000080, 0x8000000000008080] := by decide +kernel

theorem test_keccakRc_column2 : (List.range 6).map (fun i => keccakRc.getD (4 * i + 2) 0) =
    [0x800000000000808A, 0x8000000080008081, 0x80008009, 0x8000000000008089, 0x800A, 0x80000001] := by decide +kernel

theorem test_keccakRc_column3 : (List.range 6).map (fun i => keccakRc.getD (4 * i + 3) 0) =
    [0x8000000080008000, 0x8000000000008009, 0x8000000A, 0x8000000000008003, 0x800000008000000A,
      0x8000000080008008] := by decide +kernel

/-- H10. -/
theorem test_shake128 : beInt (hashAll .shake128 []) =
    0x7f9c2ba4e88f827d616045507605853ed73b8093f6efbc88eb1a6eacfa66ef26 := by decide +kernel

/-- H14. -/
theorem test_ripemd128 : beInt (hashAll .ripemd128 []) = 0xcdf26213a150dc3ecb610f18f6b38b46 := by decide +kernel

/-- H16: 56 bytes force a second padding block. -/
theorem test_sha256_two_blocks : beInt (hashAll .sha256 (List.replicate 56 0x61)) =
    0xb35439a4ac6f0948b6d6f9e3c6af0f5f590ce20f1bde7090ef7970686ec6738a := by decide +kernel

/-! ## The step, and the table's words -/

/-- S1 by the step. -/
theorem test_step_command :
    stepAnswers (State.reset.withFetchWord 32 0x00000001) (fun t => t.statusWord == 2 && t.pending == none) = true := by
  decide +kernel

/-- S15 by the step. -/
theorem test_step_illegal : stepAnswers { State.reset with pending := some 0 }
    (fun t => t.statusWord == 4 && t.errcode == 0x00000001) = true := by
  decide +kernel

/-- The rows of the opcode table: a command word, HASH_DIN, HASH_DINB, CTRL.CLOCKC, CTRL.SRST. -/
theorem test_table_words :
    decodeTableWord 32 0x084A3310 = some (.modadd 19 17 18 16) ∧ decodeTableWord 32 0 = some (.hashDin 0) ∧
      decodeTableWord 8 0 = some (.hashDinb 0) ∧ decodeTableWord 8 2 = some .ctrlClockc ∧
      decodeTableWord 8 1 = some .ctrlSrst := by
  decide +kernel

/-- H17 and 20 R73 by the step. -/
theorem test_step_bus_rows :
    stepAnswers (State.reset.withFetchWord 32 0) (fun t => t.errcode == 0x0040FF20) = true ∧
      stepAnswers (State.reset.withFetchWord 8 2) (fun t => t.ctrlWord == 2) = true := by
  decide +kernel

/-- B1 and B2. -/
theorem test_host_read :
    stepAnswers { State.reset with inputs := [.host (.read 0x000 4)] } (fun t => t.rdata == 0x434F5245) = true ∧
      stepAnswers { State.reset with inputs := [.host (.read 0x002 4)] }
        (fun t => t.rdata == 0 && t.errcode == 0x0002FF08) = true := by
  decide +kernel

/-- B4 and B10. -/
theorem test_host_write :
    stepAnswers { busyState with inputs := [.host (.write 0x1000 4 7)] }
        (fun t => t.errcode == 0x1000FF07 && t.pending == none) = true ∧
      stepAnswers { toy with inputs := [.host (.write 0x10C4 4 7)] }
        (fun t => t.errcode == 0x10C4FF03 && t.val 1 == 2) = true := by
  decide +kernel

/-! ## Witnesses: the hypotheses of each statement are met -/

/-- An open inner HMAC session, right after HMSTART with the empty key. -/
def macSession : State :=
  { session .sha256 [] with
    hmact := true, hkv := true, halg := some .sha256
    ipk := List.replicate 64 0x36, opk := List.replicate 64 0x5C }

theorem inv_busyState : busyState.Inv where
  busyNotDone := by decide
  busyNotErr := by decide
  codeZero := by decide
  codeSet := by decide
  algIdle := by decide
  outlenIdle := by decide
  outlenSession := by intro a h; cases h
  dlenDone := by decide
  digestTail := by decide +kernel
  macDone := by decide
  hmacSession := by decide
  keyValid := by decide
  keyBlocks := by intro a h; cases h
  noKey := by decide
  partialBlock := fun h => absurd h (by decide)

theorem inv_errState : errState.Inv where
  busyNotDone := by decide
  busyNotErr := by decide
  codeZero := by decide
  codeSet := by decide +kernel
  algIdle := by decide
  outlenIdle := by decide
  outlenSession := by intro a h; cases h
  dlenDone := by decide
  digestTail := by decide +kernel
  macDone := by decide
  hmacSession := by decide
  keyValid := by decide
  keyBlocks := by intro a h; cases h
  noKey := by decide
  partialBlock := fun h => absurd h (by decide)

theorem witness_EncodeOfDecodedCommand : decodeCmd 0x106E1324 = .ok (.smul true 19 16 27) := by rfl

/-- An instruction carried by a command word has the word's low byte as its opcode. -/
theorem opcode_of_encode {i : Instr} {w : Word} (h : encode i = .cmd w) : i.opcode = some (bits w 7 0) := by
  have hc : Laws.Carried.Statement i := by
    cases i with
    | nop => exact Laws.Carried.nop
    | mov _ _ => exact Laws.Carried.mov _ _
    | ldi _ _ => exact Laws.Carried.ldi _ _
    | cmp _ _ => exact Laws.Carried.cmp _ _
    | modadd _ _ _ _ => exact Laws.Carried.modadd _ _ _ _
    | modsub _ _ _ _ => exact Laws.Carried.modsub _ _ _ _
    | modred _ _ _ => exact Laws.Carried.modred _ _ _
    | modmul _ _ _ _ => exact Laws.Carried.modmul _ _ _ _
    | montmul _ _ _ _ => exact Laws.Carried.montmul _ _ _ _
    | montrr _ _ => exact Laws.Carried.montrr _ _
    | modinv _ _ _ => exact Laws.Carried.modinv _ _ _
    | tojac _ _ => exact Laws.Carried.tojac _ _
    | fromjac _ _ => exact Laws.Carried.fromjac _ _
    | pdbl _ _ => exact Laws.Carried.pdbl _ _
    | padd _ _ _ => exact Laws.Carried.padd _ _ _
    | smul _ _ _ _ => exact Laws.Carried.smul _ _ _ _
    | oncurve _ => exact Laws.Carried.oncurve _
    | isinf _ => exact Laws.Carried.isinf _
    | keygen => exact Laws.Carried.keygen
    | qcheck => exact Laws.Carried.qcheck
    | sign => exact Laws.Carried.sign
    | verify => exact Laws.Carried.verify
    | hinit _ _ => exact Laws.Carried.hinit _ _
    | hfinal => exact Laws.Carried.hfinal
    | hmkey _ => exact Laws.Carried.hmkey _
    | hmstart => exact Laws.Carried.hmstart
    | hmfinal => exact Laws.Carried.hmfinal
    | hashDin _ => exact Laws.Carried.hashDin _
    | hashDinb _ => exact Laws.Carried.hashDinb _
    | ctrlClockc => exact Laws.Carried.ctrlClockc
    | ctrlSrst => exact Laws.Carried.ctrlSrst
  unfold Laws.Carried.Statement at hc
  split at hc
  · next op ho =>
    obtain ⟨w', hw, hb⟩ := hc
    rw [h] at hw
    injection hw with hw
    rw [ho, hw, hb]
  · obtain ⟨off, v, hw, -⟩ := hc
    rw [h] at hw
    cases hw

theorem witness_UnencodedWordIsIllegal :
    ({ State.reset with pending := some 0 }).pending = some 0 ∧ (∀ i : Instr, encode i ≠ .cmd 0) ∧
      ∀ n ∈ [0x00, 0x05, 0x0F, 0x4B, 0xFF], n ∉ [0x01, 0x02, 0x03, 0x04, 0x10, 0x11, 0x12, 0x18, 0x19, 0x1A, 0x1C,
        0x20, 0x21, 0x22, 0x23, 0x24, 0x25, 0x26, 0x30, 0x31, 0x32, 0x33, 0x40, 0x41, 0x48, 0x49, 0x4A] := by
  refine ⟨rfl, fun i h => ?_, by decide⟩
  have h0 := opcode_of_encode h
  have hb : bits 0 7 0 = 0 := by decide
  rw [hb] at h0
  cases i <;> simp [Instr.opcode, Opcode.nop, Opcode.mov, Opcode.ldi, Opcode.cmp, Opcode.modadd, Opcode.modsub,
    Opcode.modred, Opcode.modmul, Opcode.montmul, Opcode.montrr, Opcode.modinv, Opcode.tojac, Opcode.fromjac,
    Opcode.pdbl, Opcode.padd, Opcode.smul, Opcode.oncurve, Opcode.isinf, Opcode.keygen, Opcode.qcheck, Opcode.sign,
    Opcode.verify, Opcode.hinit, Opcode.hfinal, Opcode.hmkey, Opcode.hmstart, Opcode.hmfinal] at h0

theorem witness_StepRunsDecodedInstruction :
    busyState.pending = some 1 ∧ decode (.cmd 1) = .ok .nop ∧ busyState.inputs = [] ∧
      ({ busyState with inputs := [.engine] }).inputs = [.engine] ∧
      decode (.write 0x008 2) = .ok .ctrlClockc ∧
      ({ toyOpen with inputs := [.host (.write 0x008 4 2)] }).inputs = [.host (.write 0x008 4 2)] := by
  exact ⟨rfl, rfl, rfl, rfl, rfl, rfl⟩

theorem witness_LatchedCommandEnds :
    busyState.pending.isSome = true ∧ busyState.inputs = [] ∧
      ({ busyState with inputs := [.engine, .reset] }).inputs = [.engine, .reset] := by
  exact ⟨rfl, rfl, rfl⟩

theorem witness_StepKeepsInv : busyState.Inv ∧ ∃ t, step busyState = .next t := ⟨inv_busyState, _, rfl⟩

theorem witness_LockProtectsCurveUntilReset :
    toy.curveLock = true ∧ toy.resetsNext = false ∧ ∃ t, step toy = .next t := ⟨rfl, rfl, _, rfl⟩

theorem witness_ErrorStateIsLeftOnlyByReset :
    errState.Inv ∧ errState.err = true ∧ errState.resetsNext = false ∧ ∃ t, step errState = .next t :=
  ⟨inv_errState, rfl, rfl, _, rfl⟩

theorem witness_HiddenStateIsNotReadable :
    (∃ t, hostAccess (.read 0x014 4) State.reset = .next t) ∧
      ∃ t, hostAccess (.read 0x014 4) busyState = .next t := ⟨⟨_, rfl⟩, ⟨_, rfl⟩⟩

theorem witness_CommandsChangeOnlyTheirDestinations :
    Instr.sign.opcode = some 0x32 ∧ (∃ t, exec .sign toy = .next t) ∧ (10 : Reg) ∉ destRegs .sign ∧
      Instr.sign ≠ .keygen ∧ isHashCommand .sign = false ∧ isHashCommand .hmstart = true ∧
      ∃ t, exec .hmstart State.reset = .next t := by
  exact ⟨rfl, exec_next _ _, by decide, by decide, rfl, rfl, exec_next _ _⟩

theorem witness_FlagsChangeOnlyByTheirCommands :
    answers (.cmp 1 2) State.reset (fun t => t.flags.eq != State.reset.flags.eq) = true ∧
      answers (.ldi 1 0) State.reset (fun t => t.flags.zero != State.reset.flags.zero) = true ∧
      answers (.isinf 1) State.reset (fun t => t.flags.inf != State.reset.flags.inf) = true ∧
      answers (.oncurve 3) toy (fun t => t.flags.onc != toy.flags.onc) = true ∧
      answers .verify (regs [(9, 6), (12, 7), (13, 14)] (toyHashed 0xBA)) (fun t => t.flags.valid) = true ∧
      answers .sign (regs [(7, 7), (10, 7)] (toyHashed 0xBA)) (fun t => t.flags.degen) = true ∧
      answers (.modinv 4 1 3) (regs [(1, 6), (3, 12)]) (fun t => t.flags.noninv) = true := by
  decide +kernel

theorem witness_CommandCompletesOrOnlyRaises :
    Instr.nop.opcode = some 0x01 ∧ Instr.hmfinal.opcode = some 0x4A := ⟨rfl, rfl⟩

theorem witness_CommonChecksInOrder :
    ¬ GroupsInRange (.tojac 30 3) ∧ ¬ GroupsInRange (.oncurve 31) ∧
      (GroupsInRange (.mov 6 7) ∧ DestProtected (.mov 6 7) toy) ∧
      (GroupsInRange (.fromjac 30 29) ∧ ¬ DestProtected (.fromjac 30 29) toyOpen ∧
        isCurveCommand (.fromjac 30 29) = true ∧ toyOpen.curveLock = false) ∧
      (GroupsInRange .qcheck ∧ ¬ DestProtected .qcheck { State.reset with curveLock := true } ∧
        isCurveCommand .qcheck = true ∧ State.reset.val regP = 0) ∧
      (GroupsInRange .keygen ∧ ¬ DestProtected .keygen (regs [(5, 0)] toy) ∧ needsOrder .keygen = true ∧
        (regs [(5, 0)] toy).val regN = 0) := by
  unfold GroupsInRange DestProtected
  and_intros <;> decide +kernel

theorem witness_ModularModulusErrors :
    Writable State.reset 0 ∧ Writable toy 7 ∧ State.reset.val 3 = 0 ∧ (regs [(3, 22)]).val 3 ≠ 0 ∧
      (regs [(3, 22)]).val 3 % 2 = 0 := by
  unfold Writable
  and_intros <;> decide +kernel

theorem witness_EcdsaOwnErrors :
    CurveReady toy ∧ 0 < toy.val regN ∧ toy.qtag ≠ toy.curveId ∧ toy.dtag ≠ toy.curveId ∧
      (let s := toyHashed 0xBA;
        CurveReady s ∧ s.qtag = s.curveId ∧ s.dtag = s.curveId ∧ s.val regQY = 0 ∧
        ¬ OnCurve s (s.val regQX) (s.val regQY) ∧ ¬ (1 ≤ s.val regD ∧ s.val regD ≤ s.val regN - 1)) ∧
      (let s := regs [(7, 18), (10, 19)] (toyHashed 0xBA);
        CurveReady s ∧ s.dtag = s.curveId ∧ (1 ≤ s.val regD ∧ s.val regD ≤ s.val regN - 1) ∧
        ¬ (1 ≤ s.val regK ∧ s.val regK ≤ s.val regN - 1)) ∧
      (let s : State := { regs [(7, 18), (8, 5), (9, 1), (10, 18)] (toyHashed 0xBA) with dkind := .mac };
        CurveReady s ∧ (1 ≤ s.val regD ∧ s.val regD ≤ s.val regN - 1) ∧
        (1 ≤ s.val regK ∧ s.val regK ≤ s.val regN - 1) ∧ OnCurve s (s.val regQX) (s.val regQY) ∧
        ¬ (s.hstate = .done ∧ s.dkind = .hash)) := by
  unfold CurveReady OnCurve
  and_intros <;> decide +kernel

theorem witness_HashOwnErrors :
    Alg.ofCode 0x05 = none ∧ Alg.ofCode 0x02 = some .sha256 ∧ Alg.isShake .sha256 = false ∧ (1 : BitVec 7) ≠ 0 ∧
      Alg.ofCode 0x0D = some .shake256 ∧ Alg.isShake .shake256 = true ∧ 64 < (65 : BitVec 7).toNat ∧
      256 < ({ State.reset with klen := 257 }).klen.toNat ∧ State.reset.hstate ≠ .absorb ∧ macSession.hmact = true ∧
      State.reset.hkv = false ∧ (session .sha256 []).hmact = false := by
  decide

theorem witness_BusyReads :
    busyState.busy = true ∧ (0x01C < 0x2000 ∧ 0x01C % 4 = 0) ∧ (0x1FFC < 0x2000 ∧ 0x1FFC % 4 = 0) ∧
      0x014 ∉ [0x000, 0x004, 0x008, 0x00C, 0x010, 0x018, 0x01C] := by
  decide

theorem witness_BusyWrites :
    busyState.Inv ∧ busyState.busy = true ∧ (0x1FC4 < 0x2000 ∧ 0x1FC4 % 4 = 0 ∧ WritableOffset 0x1FC4) ∧
      WritableOffset 0x048 ∧ (1 : Word).getLsbD 0 = true ∧ ((2 : Word).getLsbD 0 = false ∧ (2 : Word).getLsbD 1 = true) ∧
      ((4 : Word).getLsbD 0 = false ∧ (4 : Word).getLsbD 1 = false) ∧ ReadOnlyOffset 0x13C ∧
      (0x1FFC < 0x2000 ∧ 0x1FFC % 4 = 0 ∧ ReservedOffset 0x1FFC) ∧ ReservedOffset 0x1FC8 := by
  unfold WritableOffset ReadOnlyOffset ReservedOffset
  exact ⟨inv_busyState, by and_intros <;> decide⟩

theorem witness_ErrorIgnoresWrites :
    errState.Inv ∧ errState.err = true ∧ (0x01C < 0x2000 ∧ 0x01C % 4 = 0 ∧ 0x01C ≠ 0x008 ∧ 0x01C ≠ 0x00C ∧
      0x01C ≠ 0x018) ∧ (1 : Word).getLsbD 0 = true ∧ (2 : Word).getLsbD 0 = false :=
  ⟨inv_errState, by decide⟩

theorem witness_MisshapenAccessRaisesAccess :
    (0x1FFF < 0x2000 ∧ 0x1FFF % 4 ≠ 0) ∧ 2 ≠ 4 ∧ State.reset.err = false ∧ errState.err = true := by decide

theorem witness_ReservedAndReadOnlyOffsets :
    (ReservedOffset 0x02C ∧ 0x02C % 4 = 0) ∧ ReservedOffset 0x04C ∧ ReservedOffset 0x0FC ∧ ReservedOffset 0x140 ∧
      ReservedOffset 0x1FC ∧ ReservedOffset 0x300 ∧ ReservedOffset 0xFFC ∧ ReservedOffset 0x1048 ∧
      State.reset.busy = false ∧ (ReadOnlyOffset 0x000 ∧ 0x000 % 4 = 0) ∧ ReadOnlyOffset 0x100 ∧
      ReadOnlyOffset 0x13C := by
  unfold ReservedOffset ReadOnlyOffset
  and_intros <;> decide

theorem witness_BigRegisterWords :
    17 < 18 ∧ 0x1FC4 = 0x1000 + 0x80 * (31 : Reg).val + 4 * 17 ∧ 0x1000 = 0x1000 + 0x80 * (0 : Reg).val + 4 * 0 ∧
      State.reset.busy = false ∧ State.reset.err = false ∧ Writable State.reset 0 ∧ Writable toy 31 ∧
      toy.busy = false ∧ toy.err = false := by
  unfold Writable
  and_intros <;> decide

theorem witness_CmdWriteLatches : State.reset.err = false ∧ State.reset.busy = false := ⟨rfl, rfl⟩

theorem witness_LockedHostWrites :
    toy.busy = false ∧ toy.err = false ∧ toy.curveLock = true ∧ toyOpen.curveLock = false ∧ 0x020 % 4 = 0 ∧
      (0x1000 ≤ 0x1344 ∧ 0x1344 < 0x1380 ∧ 0x1344 % 0x80 < 0x48 ∧ 0x1344 % 4 = 0 ∧ 0x1344 ≠ 0x020) ∧
      (0x1000 < 0x1380 ∧ 0x1000 % 0x80 < 0x48 ∧ 0x1000 % 4 = 0) ∧ 0x1344 = 0x1000 + 0x80 * (6 : Reg).val + 4 * 17 := by
  decide

theorem witness_ControlAndKeyWrites : State.reset.busy = false ∧ State.reset.err = false ∧ 63 < 64 := by decide

theorem witness_RegisterReads :
    State.reset.busy = false ∧ (15 < 16 ∧ (60 : Fin 64).val = 4 * 15 ∧ (63 : Fin 64).val = 4 * 15 + 3) ∧
      (63 < 64 ∧ (252 : Fin 256).val = 4 * 63 ∧ (255 : Fin 256).val = 4 * 63 + 3) := by
  decide

theorem witness_ClockcLocksTheCurve :
    (toy.err = false ∧ toy.busy = false) ∧ (busyState.err = false ∧ busyState.busy = true) ∧ errState.err = true := by
  decide

theorem witness_ResetsLeaveTheResetState :
    (3 : Word).getLsbD 0 = true ∧ ({ errState with inputs := [.reset] }).inputs = [.reset] := by
  exact ⟨by decide, rfl⟩

theorem witness_SupportCommands : Writable State.reset 0 ∧ Writable toy 7 := by
  unfold Writable
  and_intros <;> decide

theorem witness_ModularAdderResults : Writable toy 7 ∧ toy.val 0 ≠ 0 ∧ (regs [(3, 1)]).val 3 ≠ 0 := by
  unfold Writable
  and_intros <;> decide +kernel

theorem witness_ModularMultiplierResults : Writable State.reset 31 ∧ (regs [(31, 2 ^ 575)]).val 31 ≠ 0 := by
  unfold Writable
  and_intros <;> decide +kernel

theorem witness_MontgomeryProductResult :
    Writable State.reset 4 ∧ (regs [(3, 1)]).val 3 % 2 = 1 ∧ (regs [(3, 2 ^ 576 - 1)]).val 3 % 2 = 1 := by
  unfold Writable
  and_intros <;> decide +kernel

theorem witness_InverseFunction :
    5 % 1 = 0 ∧ (6 % 12 ≠ 0 ∧ Nat.gcd (6 % 12) 12 ≠ 1) ∧ (5 % 12 ≠ 0 ∧ Nat.gcd (5 % 12) 12 = 1) := by decide

theorem witness_ModinvResult :
    Writable State.reset 4 ∧
      (let s := regs [(1, 6), (3, 12)]; s.val 3 ≠ 0 ∧ Nat.gcd (s.val 1) (s.val 3) ≠ 1) ∧
      (let s := regs [(1, 0), (3, 17)]; s.val 3 ≠ 0 ∧ s.val 1 % s.val 3 = 0) ∧
      (let s := regs [(1, 13), (3, 23)]; s.val 1 % s.val 3 ≠ 0 ∧ Nat.gcd (s.val 1) (s.val 3) = 1) := by
  unfold Writable
  and_intros <;> decide +kernel

theorem witness_LiftAndPointTests :
    (31 : Reg).val = (30 : Reg).val + 1 ∧ (31 : Reg).val = (29 : Reg).val + 2 ∧ Writable toy 29 ∧ CurveReady toy ∧
      OnCurve toy 5 1 := by
  unfold Writable CurveReady OnCurve
  and_intros <;> decide +kernel

theorem witness_FromjacResult :
    (31 : Reg).val = (30 : Reg).val + 1 ∧ (31 : Reg).val = (29 : Reg).val + 2 ∧ CurveReady toy ∧ Writable toy 30 := by
  unfold Writable CurveReady
  and_intros <;> decide +kernel

theorem witness_PdblResult :
    (30 : Reg).val = (29 : Reg).val + 1 ∧ (31 : Reg).val = (29 : Reg).val + 2 ∧ CurveReady toy ∧ Writable toy 29 ∧
      (toy.val 7 : Int) = 0 ∧ (toy.val 4 : Int) ≠ 0 := by
  unfold Writable CurveReady
  and_intros <;> decide +kernel

/-- J19 (first at infinity), J20 (second), J18 (opposite points), J23 (equal points), J22 (neither). -/
theorem witness_PaddResult :
    CurveReady toy ∧ Writable toy 22 ∧ (toy.val 20 : Int) = 0 ∧
      (let s := regs [(16, 5), (17, 1), (18, 1), (19, 7), (20, 0), (21, 3)] toy; s.val 17 ≠ 0 ∧ s.val 20 = 0) ∧
      (let s := regs [(16, 5), (17, 1), (18, 1), (19, 5), (20, 16), (21, 1)] toy;
        s.val 17 ≠ 0 ∧ s.val 20 ≠ 0 ∧ (s.val 16 * s.val 21 * s.val 21) % 17 = (s.val 19 * s.val 18 * s.val 18) % 17 ∧
        (s.val 17 * s.val 21 ^ 3) % 17 ≠ (s.val 20 * s.val 18 ^ 3) % 17) ∧
      (let s := regs [(16, 5), (17, 1), (18, 1), (19, 3), (20, 8), (21, 2)] toy;
        (s.val 16 * s.val 21 * s.val 21) % 17 = (s.val 19 * s.val 18 * s.val 18) % 17 ∧
        (s.val 17 * s.val 21 ^ 3) % 17 = (s.val 20 * s.val 18 ^ 3) % 17) ∧
      (let s := regs [(16, 7), (17, 7), (18, 2), (19, 3), (20, 8), (21, 2)] toy;
        (s.val 16 * s.val 21 * s.val 21) % 17 ≠ (s.val 19 * s.val 18 * s.val 18) % 17) := by
  unfold Writable CurveReady
  and_intros <;> decide +kernel

theorem witness_SmulResult :
    (30 : Reg).val = (29 : Reg).val + 1 ∧ (31 : Reg).val = (29 : Reg).val + 2 ∧ OrderReady toy ∧ Writable toy 29 := by
  unfold Writable OrderReady CurveReady
  and_intros <;> decide +kernel

theorem witness_ScalarMultiplicationLoop : 0 < 19 := by decide

theorem witness_PointLaws : 0 < 17 ∧ 0 < 19 ∧ (⟨5, 1, 1⟩ : Jac).y ≠ 0 ∧ ((19 : Nat) ≠ 1 ∨ (1 : Int) ≠ 1) := by decide

/-- E1 and E9. -/
theorem witness_KeyCommands :
    (let s : State := { regs [(7, 18)] toy with dtag := 0x2A };
      OrderReady s ∧ s.dtag = s.curveId ∧ 1 ≤ s.val regD ∧ s.val regD ≤ s.val regN - 1) ∧
      (let s : State := { regs [(9, 6)] toy with qtag := 0x2A };
        CurveReady s ∧ s.qtag = s.curveId ∧ s.val regQY ≠ 0 ∧ OnCurve s (s.val regQX) (s.val regQY)) := by
  unfold OrderReady CurveReady OnCurve
  and_intros <;> decide +kernel

/-- E14. -/
theorem witness_SignResult :
    let s := regs [(7, 7), (10, 10)] (toyHashed 0xBA)
    OrderReady s ∧ s.dtag = s.curveId ∧ 1 ≤ s.val regD ∧ s.val regD ≤ s.val regN - 1 ∧ 1 ≤ s.val regK ∧
      s.val regK ≤ s.val regN - 1 ∧ s.hstate = .done ∧ s.dkind = .hash ∧ Nat.gcd (s.val regK) (s.val regN) = 1 := by
  unfold OrderReady CurveReady
  and_intros <;> decide +kernel

/-- E21. -/
theorem witness_VerifyResult :
    let s := regs [(9, 6), (12, 7), (13, 14)] (toyHashed 0xBA)
    OrderReady s ∧ s.qtag = s.curveId ∧ OnCurve s (s.val regQX) (s.val regQY) ∧ s.hstate = .done ∧
      s.dkind = .hash := by
  unfold OrderReady CurveReady OnCurve
  and_intros <;> decide +kernel

theorem witness_HinitResult :
    (Alg.ofCode 0x13 = some .ripemd320 ∧ Alg.isShake .ripemd320 = false) ∧
      (Alg.ofCode 0x0C = some .shake128 ∧ Alg.isShake .shake128 = true ∧ (64 : BitVec 7).toNat ≤ 64) := by
  decide

theorem witness_DataPortWrites :
    (let s := session .sha256 [];
      s.busy = false ∧ s.err = false ∧ s.hstate = .absorb ∧ s.alg = some .sha256) ∧
      busyState.busy = true ∧ (errState.busy = false ∧ errState.err = true) ∧
      (State.reset.busy = false ∧ State.reset.err = false ∧ State.reset.hstate ≠ .absorb) ∧
      (session .sha256 []).run.buf.length + 1 < Alg.block .sha256 ∧
      (session .sha256 (List.replicate 63 0)).run.buf.length + 1 = Alg.block .sha256 := by
  decide

theorem witness_HfinalResult :
    let s := session .sha512 []
    s.hstate = .absorb ∧ s.hmact = false ∧ s.alg = some .sha512 := ⟨rfl, rfl, rfl⟩

theorem witness_StreamingGivesTheMessageDigest :
    20 ≤ (Alg.digestSize .ripemd160).toNat ∧ (Alg.isShake .shake256 = true ∧ 64 ≤ 64) := by decide

theorem witness_HashSessionGivesTheDigest :
    busyState.err = false ∧ Alg.ofCode 0x01 = some .sha224 ∧ Alg.isShake .sha224 = false ∧
      (Alg.ofCode 0x0D = some .shake256 ∧ (64 : BitVec 7).toNat ≤ 64) := by
  decide

theorem witness_Sha2CompressionRule :
    (Alg.sha224 = .sha224 ∨ Alg.sha224 = .sha256) ∧ (Alg.sha512 = .sha384 ∨ Alg.sha512 = .sha512) := by decide

theorem witness_KeccakRoundRule : (List.replicate 25 (0 : BitVec 64)).length = 25 ∧ 4 < 5 ∧ 23 < 24 := by decide

theorem witness_HmkeyResult :
    Alg.ofCode 0x04 = some .sha512 ∧ Alg.isShake .sha512 = false ∧
      ({ State.reset with klen := 256 }).klen.toNat ≤ 256 := by
  decide

theorem witness_HmstartAndHmfinalResults :
    macSession.halg = some .sha256 ∧ macSession.hkv = true ∧ macSession.hstate = .absorb ∧
      macSession.hmact = true ∧ macSession.alg = some .sha256 := ⟨rfl, rfl, rfl, rfl, rfl⟩

theorem witness_HmacSessionGivesTheTag :
    State.reset.err = false ∧ Alg.ofCode 0x02 = some .sha256 ∧ Alg.isShake .sha256 = false ∧
      State.reset.klen.toNat ≤ 256 := by
  decide

end Sys2Proof.Tests
end

/-! PROOFS. 00_scope.md: a step is exec of the instruction that decodes, and what the host reads of each register while
BUSY = 0. -/

namespace Sys2Proof.Machine

/-! ## A step is exec of the decoded instruction -/

theorem step_of_inputs_nil {s : State} (h : s.inputs = []) : step s = engineStep s := by
  simp only [step, nextEvent, h]

theorem step_of_inputs_cons {s : State} {e : Event} {rest : List Event} (h : s.inputs = e :: rest) :
    step s = takeEvent e { s with inputs := rest } := by
  simp only [step, nextEvent, h]

theorem engineStep_of_decode {s : State} {w : Word} {i : Instr} (hp : s.pending = some w)
    (hd : decode (.cmd w) = .ok i) : engineStep s = exec i s := by
  simp only [engineStep, hp, hd]

/-- A write that is a row of the opcode table is aligned and lies in the window, so the access performs the row. -/
theorem hostAccess_write_of_decode {off : Nat} {v : Word} {i : Instr} (hd : decode (.write off v) = .ok i)
    (s : State) : hostAccess (.write off 4 v) s = exec i s := by
  obtain ⟨ho, ha⟩ : off < 0x2000 ∧ off % 4 = 0 := by
    obtain rfl | rfl | rfl := decodeWrite_offset hd <;> decide
  rw [hostAccess_write ho ha]
  simp only [hostWrite, hd]

/-- Settles O5: the event at the head of the list names the agent, and the agent performs what decodes. -/
theorem stepRunsDecodedInstruction : Obligations.StepRunsDecodedInstruction := by
  intro s i rest
  refine ⟨fun w hp hd => ⟨fun hin => ?_, fun hin => ?_⟩, fun off v hd hin => ?_⟩
  · exact (step_of_inputs_cons hin).trans (engineStep_of_decode hp hd)
  · exact (step_of_inputs_nil hin).trans (engineStep_of_decode hp hd)
  · exact (step_of_inputs_cons hin).trans (hostAccess_write_of_decode hd _)

/-! ## A register word as the sum of its fields

Each field stands above every bit of the word made so far (toNat_or_bitAt, toNat_or_field), and the two bounds below say
that the word with the field stays below the field's own end. -/

theorem toNat_bitAt (b : Bool) {n : Nat} (hn : n < 32) : (bitAt b n).toNat = b.toNat * 2 ^ n := by
  have h := toNat_or_bitAt (x := 0#32) b (Nat.two_pow_pos n) hn
  rwa [BitVec.zero_or, BitVec.toNat_zero, Nat.zero_add] at h

theorem or_bitAt_lt {x : Word} {n : Nat} (b : Bool) (hx : x.toNat < 2 ^ n) (hn : n < 32) :
    (x ||| bitAt b n).toNat < 2 ^ (n + 1) := by
  rw [toNat_or_bitAt b hx hn, Nat.pow_succ]
  cases b <;> simp <;> omega

theorem bitAt_zero_lt (b : Bool) : (bitAt b 0).toNat < 2 ^ 1 := by cases b <;> decide

/-- A field of w bits whose lowest bit is n. -/
theorem setWidth_shiftLeft_eq_ofNat {w n : Nat} (v : BitVec w) (hn : w + n ≤ 32) :
    v.setWidth 32 <<< n = BitVec.ofNat 32 (v.toNat * 2 ^ n) := by
  apply BitVec.eq_of_toNat_eq
  have hv : v.toNat < 2 ^ 32 := v.isLt.trans_le (Nat.pow_le_pow_right (by decide) (by omega))
  rw [BitVec.toNat_shiftLeft, BitVec.toNat_setWidth, Nat.mod_eq_of_lt hv, Nat.shiftLeft_eq, BitVec.toNat_ofNat]

theorem field_lt {w : Nat} (v : BitVec w) (n : Nat) : v.toNat * 2 ^ n < 2 ^ (w + n) := by
  rw [Nat.pow_add]
  exact Nat.mul_lt_mul_of_pos_right v.isLt (Nat.two_pow_pos n)

theorem toNat_or_field {x : Word} {w n : Nat} (v : BitVec w) (hx : x.toNat < 2 ^ n) (hn : w + n ≤ 32) :
    (x ||| v.setWidth 32 <<< n).toNat = x.toNat + v.toNat * 2 ^ n := by
  rw [setWidth_shiftLeft_eq_ofNat v hn]
  exact toNat_or_ofNat hx ((field_lt v n).trans_le (Nat.pow_le_pow_right (by decide) hn))

theorem or_field_lt {x : Word} {w n : Nat} (v : BitVec w) (hx : x.toNat < 2 ^ n) (hn : w + n ≤ 32) :
    (x ||| v.setWidth 32 <<< n).toNat < 2 ^ (w + n) := by
  rw [setWidth_shiftLeft_eq_ofNat v hn, BitVec.toNat_or, BitVec.toNat_ofNat]
  exact Nat.or_lt_two_pow (hx.trans_le (Nat.pow_le_pow_right (by decide) (Nat.le_add_left n w)))
    ((Nat.mod_le _ _).trans_lt (field_lt v n))

/-! ## The status registers (10 R27 to R34) -/

theorem toNat_ctrlWord (s : State) : s.ctrlWord.toNat = 2 * s.curveLock.toNat := by
  rw [State.ctrlWord, toNat_bitAt _ (by decide)]
  omega

theorem toNat_statusWord (s : State) :
    s.statusWord.toNat = s.busy.toNat + 2 * s.done.toNat + 4 * s.err.toNat := by
  have h0 := bitAt_zero_lt s.busy
  have h1 := or_bitAt_lt s.done h0 (by decide)
  rw [State.statusWord, toNat_or_bitAt _ h1 (by decide), toNat_or_bitAt _ h0 (by decide), toNat_bitAt _ (by decide)]
  omega

theorem toNat_ieWord (s : State) : s.ieWord.toNat = s.doneIe.toNat + 2 * s.errIe.toNat := by
  rw [State.ieWord, toNat_or_bitAt _ (bitAt_zero_lt s.doneIe) (by decide), toNat_bitAt _ (by decide)]
  omega

theorem toNat_flagsWord (f : Flags) :
    f.word.toNat = f.eq.toNat + 2 * f.lt.toNat + 4 * f.gt.toNat + 8 * f.zero.toNat + 16 * f.inf.toNat +
      32 * f.onc.toNat + 64 * f.valid.toNat + 128 * f.degen.toNat + 256 * f.noninv.toNat := by
  have h0 := bitAt_zero_lt f.eq
  have h1 := or_bitAt_lt f.lt h0 (by decide)
  have h2 := or_bitAt_lt f.gt h1 (by decide)
  have h3 := or_bitAt_lt f.zero h2 (by decide)
  have h4 := or_bitAt_lt f.inf h3 (by decide)
  have h5 := or_bitAt_lt f.onc h4 (by decide)
  have h6 := or_bitAt_lt f.valid h5 (by decide)
  have h7 := or_bitAt_lt f.degen h6 (by decide)
  rw [Flags.word, toNat_or_bitAt _ h7 (by decide), toNat_or_bitAt _ h6 (by decide), toNat_or_bitAt _ h5 (by decide),
    toNat_or_bitAt _ h4 (by decide), toNat_or_bitAt _ h3 (by decide), toNat_or_bitAt _ h2 (by decide),
    toNat_or_bitAt _ h1 (by decide), toNat_or_bitAt _ h0 (by decide), toNat_bitAt _ (by decide)]
  omega

theorem toNat_hstateNum (h : HState) : (BitVec.ofNat 32 (hstateNum h)).toNat = hstateNum h := by cases h <;> rfl

theorem hstateNum_lt (h : HState) : hstateNum h < 2 ^ 2 := by cases h <;> decide

theorem toNat_hstatWord (s : State) :
    s.hstatWord.toNat = hstateNum s.hstate + 4 * s.hmact.toNat + 8 * s.hkv.toNat + 16 * (dkindBit s.dkind).toNat +
      2 ^ 8 * (Alg.codeOf s.alg).toNat + 2 ^ 16 * (Alg.codeOf s.halg).toNat + 2 ^ 24 * s.outlen.toNat := by
  have h2 : (BitVec.ofNat 32 (hstateNum s.hstate)).toNat < 2 ^ 2 := (toNat_hstateNum _).trans_lt (hstateNum_lt _)
  have h3 := or_bitAt_lt s.hmact h2 (by decide)
  have h4 := or_bitAt_lt s.hkv h3 (by decide)
  have h5 := or_bitAt_lt (dkindBit s.dkind) h4 (by decide)
  have h8 := h5.trans (show 2 ^ 5 < 2 ^ 8 by decide)
  have h16 := (or_field_lt (Alg.codeOf s.alg) h8 (by decide)).trans (show 2 ^ (5 + 8) < 2 ^ 16 by decide)
  have h24 := (or_field_lt (Alg.codeOf s.halg) h16 (by decide)).trans (show 2 ^ (5 + 16) < 2 ^ 24 by decide)
  rw [State.hstatWord, toNat_or_field _ h24 (by decide), toNat_or_field _ h16 (by decide),
    toNat_or_field _ h8 (by decide), toNat_or_bitAt _ h4 (by decide), toNat_or_bitAt _ h3 (by decide),
    toNat_or_bitAt _ h2 (by decide), toNat_hstateNum]
  omega

/-! ## Words of DIGEST and KEYBUF (10 R39, R40) -/

theorem toNat_digestWord (s : State) {k : Nat} {d0 d1 d2 d3 : Fin 64} (h0 : d0.val = 4 * k) (h1 : d1.val = 4 * k + 1)
    (h2 : d2.val = 4 * k + 2) (h3 : d3.val = 4 * k + 3) :
    (s.digestWord k).toNat = (s.digest.get d0).toNat + 2 ^ 8 * (s.digest.get d1).toNat +
      2 ^ 16 * (s.digest.get d2).toNat + 2 ^ 24 * (s.digest.get d3).toNat := by
  rw [State.digestWord, toNat_busWord, ← h1, ← h2, ← h3, ← h0]
  simp only [digestByte_get]

theorem toNat_keybufWord (s : State) {k : Nat} {d0 d1 d2 d3 : Fin 256} (h0 : d0.val = 4 * k)
    (h1 : d1.val = 4 * k + 1) (h2 : d2.val = 4 * k + 2) (h3 : d3.val = 4 * k + 3) :
    (s.keybufWord k).toNat = (s.keybuf.get d0).toNat + 2 ^ 8 * (s.keybuf.get d1).toNat +
      2 ^ 16 * (s.keybuf.get d2).toNat + 2 ^ 24 * (s.keybuf.get d3).toNat := by
  rw [State.keybufWord, toNat_busWord, ← h1, ← h2, ← h3, ← h0]
  simp only [keybufByte_get]

/-! ## What the host reads while BUSY = 0 -/

theorem hostRead_idle {s : State} (hb : s.busy = false) (off : Nat) :
    hostRead off s = { s with rdata := regionValue (regionOf off) s } := by
  simp [hostRead, hb]

/-- An aligned read in the window returns the number that the value of its region stands for. -/
theorem hostAccess_read_idle {s : State} (hb : s.busy = false) {off v : Nat} (ho : off < 0x2000) (ha : off % 4 = 0)
    (hv : (regionValue (regionOf off) s).toNat = v) :
    v < 2 ^ 32 ∧ hostAccess (.read off 4) s = .next { s with rdata := BitVec.ofNat 32 v } := by
  subst hv
  refine ⟨BitVec.isLt _, ?_⟩
  rw [hostAccess_read ho ha, hostRead_idle hb, BitVec.ofNat_toNat, BitVec.setWidth_eq]

/-- Settles O30: an idle read returns the value of its region, and the lemmas above give each such word as the sum of
its fields or bytes. -/
theorem registerReads : Obligations.RegisterReads := by
  intro s hb reads
  have read {off v : Nat} (ho : off < 0x2000) (ha : off % 4 = 0)
      (hv : (regionValue (regionOf off) s).toNat = v) : reads off v := hostAccess_read_idle hb ho ha hv
  have hstatus : s.statusWord.toNat = 2 * s.done.toNat + 4 * s.err.toNat := by
    rw [toNat_statusWord, hb, Bool.toNat_false, Nat.zero_add]
  have hlo : (s.run.count.extractLsb' 0 32).toNat = s.run.count.toNat % 2 ^ 32 := by
    rw [BitVec.extractLsb'_toNat, Nat.shiftRight_zero]
  have hhi : (s.run.count.extractLsb' 32 32).toNat = s.run.count.toNat / 2 ^ 32 := by
    rw [BitVec.extractLsb'_toNat, Nat.shiftRight_eq_div_pow]
    omega
  refine ⟨read (by decide) rfl rfl, read (by decide) rfl rfl, read (by decide) rfl rfl, read (by decide) rfl rfl,
    read (by decide) rfl rfl, read (by decide) rfl (toNat_ctrlWord s), read (by decide) rfl hstatus,
    read (by decide) rfl rfl, read (by decide) rfl (toNat_flagsWord s.flags), read (by decide) rfl (toNat_ieWord s),
    read (by decide) rfl (BitVec.toNat_setWidth_of_le (by decide)),
    read (by decide) rfl (BitVec.toNat_setWidth_of_le (by decide)),
    read (by decide) rfl (BitVec.toNat_setWidth_of_le (by decide)), read (by decide) rfl (toNat_hstatWord s),
    read (by decide) rfl (BitVec.toNat_setWidth_of_le (by decide)), read (by decide) rfl hlo, read (by decide) rfl hhi,
    read (by decide) rfl (BitVec.toNat_setWidth_of_le (by decide)), ?digest, ?keybuf⟩
  case digest =>
    intro k hk d0 d1 d2 d3 h0 h1 h2 h3
    refine read (by omega) (by omega) ?_
    rw [regionOf_digest hk]
    exact toNat_digestWord s h0 h1 h2 h3
  case keybuf =>
    intro k hk d0 d1 d2 d3 h0 h1 h2 h3
    refine read (by omega) (by omega) ?_
    rw [regionOf_keybuf hk]
    exact toNat_keybufWord s h0 h1 h2 h3

end Sys2Proof.Machine

/-! PROOFS. 10_state.md: the invariant of every run, what a host read can show, which command writes which bit of FLAGS,
the host's writes to the control and key registers, and the reset values. -/

namespace Sys2Proof.Machine

/-! ## Every step keeps the invariant

Errors, resets and plain commands are covered by the lemmas of Laws/Inv; what is left are the five hash commands, the
data ports and the host's stores, one lemma each. -/

/-- A store to what no clause of the invariant speaks of. -/
theorem State.Inv.of_stored {s t : State} (h : s.Inv)
    (frame : { s with
      br := t.br, curveLock := t.curveLock, doneIe := t.doneIe, errIe := t.errIe, curveId := t.curveId
      dtag := t.dtag, qtag := t.qtag, klen := t.klen, keybuf := t.keybuf, rdata := t.rdata, drawn := t.drawn } = t) :
    t.Inv := by
  rw [← frame]
  exact h.of_hash_fields rfl h.control h.codeZero h.codeSet

/-- A command outside the hash engine that completes changes no hash state, so Inv.completed covers it. -/
theorem State.Inv.plain_command {i : Instr} {op : Nat} {s u : State} (h : s.Inv) (ho : i.opcode = some op)
    (hi : isHashCommand i = false) (hu : exec i s = .next u) : u.Inv := by
  obtain ⟨e, rfl⟩ | ⟨hframe, hp, -⟩ := plain_command_next ho hi hu
  · exact h.raise _ _ _
  · refine h.completed ?_ hp
    rw [← hframe]

/-- What an HINIT that passes the checks of 47 R213 leaves in OUTLEN. -/
theorem outlen_le_and_eq_digestSize {a : Alg} {olen : BitVec 7}
    (hl : ¬ (a.isShake && decide (Config.digestBytes < olen.toNat)) = true) :
    (a.outlen olen).toNat ≤ 64 ∧ (a.isShake = false → a.outlen olen = a.digestSize) := by
  unfold Alg.outlen
  split
  · rename_i hs
    simp only [Bool.and_eq_true, bne_iff_ne] at hs
    have hle : ¬ 64 < olen.toNat := fun hlt => hl (by simp [hs.1, Config.digestBytes, hlt])
    exact ⟨Nat.not_lt.1 hle, by simp [hs.1]⟩
  · exact ⟨digestSize_le a, fun _ => rfl⟩

theorem State.Inv.hinit {alg : BitVec 5} {olen : BitVec 7} {s u : State} (h : s.Inv)
    (hu : exec (.hinit alg olen) s = .next u) : u.Inv := by
  obtain ⟨e, rfl⟩ | ⟨t, ht, -, rfl⟩ := perform_next hu
  · exact h.raise _ _ _
  · split at ht
    · cases ht
    · rename_i a _
      split at ht
      · cases ht
      · split at ht
        · cases ht
        · rename_i hl
          cases ht
          exact h.opened (a := a) rfl (partial_hashStart a) (outlen_le_and_eq_digestSize hl) nofun

theorem State.Inv.hfinal {s u : State} (h : s.Inv) (hu : exec .hfinal s = .next u) : u.Inv := by
  obtain ⟨e, rfl⟩ | ⟨t, ht, -, rfl⟩ := perform_next hu
  · exact h.raise _ _ _
  · split at ht
    · cases ht
    · rename_i hc
      cases ht
      simp only [not_or, not_not, Bool.not_eq_true] at hc
      obtain ⟨habsorb, hmact⟩ := hc
      have hs : s = { s with hmact := false } := by rw [← hmact]
      have hfin := h.finished habsorb s.run (sessionFinal s) .hash true none rfl
      rw [← hs] at hfin
      exact hfin

/-- The state HMKEY leaves: no session, and a key of one block for the algorithm a (49 R270). -/
theorem State.Inv.keyed {a : Alg} {s : State} (h : s.Inv) (ha : a.isShake = false) :
    (complete (setHmacKey a s)).Inv := by
  have hpad (c : Byte) : (xorPad c (hmacK0 a (s.keybuf.toList.take s.klen.toNat))).length = a.block := by
    rw [xorPad, List.length_map, length_hmacK0]
  refine ⟨nofun, nofun, h.codeZero, h.codeSet, by simp [setHmacKey], fun _ => rfl, nofun, rfl, ?_, nofun, nofun,
    by simp [setHmacKey], ?_, nofun, nofun⟩
  · intro i _
    exact digest_clear i
  · intro b hb
    cases hb
    exact ⟨ha, hpad _, hpad _⟩

theorem State.Inv.hmkey {alg : BitVec 5} {s u : State} (h : s.Inv) (hu : exec (.hmkey alg) s = .next u) : u.Inv := by
  obtain ⟨e, rfl⟩ | ⟨t, ht, -, rfl⟩ := perform_next hu
  · exact h.raise _ _ _
  · split at ht
    · cases ht
    · split at ht
      · cases ht
      · rename_i hshake
        split at ht
        · cases ht
        · cases ht
          exact h.keyed (Bool.eq_false_iff.2 hshake)

theorem State.Inv.hmstart {s u : State} (h : s.Inv) (hu : exec .hmstart s = .next u) : u.Inv := by
  obtain ⟨e, rfl⟩ | ⟨t, ht, -, rfl⟩ := perform_next hu
  · exact h.raise _ _ _
  · split at ht
    · cases ht
    · rename_i hkey
      split at ht
      · rename_i a ha
        cases ht
        exact h.opened (a := a) rfl (partial_absorbBytes _ (partial_hashStart a)) ⟨digestSize_le a, fun _ => rfl⟩
          (fun _ => ⟨ha, Bool.eq_true_of_not_eq_false hkey⟩)
      · cases ht

theorem State.Inv.hmfinal {s u : State} (h : s.Inv) (hu : exec .hmfinal s = .next u) : u.Inv := by
  obtain ⟨e, rfl⟩ | ⟨t, ht, -, rfl⟩ := perform_next hu
  · exact h.raise _ _ _
  · split at ht
    · cases ht
    · rename_i hc
      simp only [not_or, not_not] at hc
      split at ht
      · cases ht
        exact h.finished hc.1 _ _ .mac true none rfl
      · cases ht

theorem State.Inv.hash_command {i : Instr} {s u : State} (h : s.Inv) (hi : isHashCommand i = true)
    (hu : exec i s = .next u) : u.Inv := by
  cases i <;> simp only [isHashCommand, Bool.false_eq_true] at hi
  case hinit => exact h.hinit hu
  case hfinal => exact h.hfinal hu
  case hmkey => exact h.hmkey hu
  case hmstart => exact h.hmstart hu
  case hmfinal => exact h.hmfinal hu

/-- Absorbing message bytes changes CV, BUF and HCOUNT alone, and keeps BUF a partial block. -/
theorem State.Inv.absorbed {s : State} (h : s.Inv) (bs : List Byte) : (sessionAbsorb bs s).Inv := by
  unfold sessionAbsorb
  split
  · rename_i a ha
    refine { h with partialBlock := ?_ }
    intro hs b hb
    cases ha.symm.trans hb
    exact partial_absorbBytes bs (h.partialBlock hs a ha)
  · exact h

theorem State.Inv.dataPort {s : State} (h : s.Inv) (off : Nat) (bs : List Byte) : (dataPort off bs s).Inv := by
  unfold Machine.dataPort
  split
  · exact h.raise _ _ _
  · split
    · exact h
    · split
      · exact h.raise _ _ _
      · exact h.absorbed bs

theorem State.Inv.ctrlClockc {s u : State} (h : s.Inv) (hu : exec .ctrlClockc s = .next u) : u.Inv := by
  simp only [exec, execCtrlClockc] at hu
  split at hu
  · cases hu; exact h
  · split at hu
    · cases hu; exact h.raise _ _ _
    · cases hu; exact h.of_stored rfl

/-- Every instruction keeps the invariant: a command by its unit, a bus row by its port. -/
theorem State.Inv.exec {i : Instr} {s u : State} (h : s.Inv) (hu : exec i s = .next u) : u.Inv := by
  cases ho : i.opcode with
  | some op =>
    cases hi : isHashCommand i with
    | false => exact h.plain_command ho hi hu
    | true => exact h.hash_command hi hu
  | none =>
    cases i <;> simp only [Instr.opcode, reduceCtorEq] at ho
    case hashDin => cases hu; exact h.dataPort _ _
    case hashDinb => cases hu; exact h.dataPort _ _
    case ctrlClockc => exact h.ctrlClockc hu
    case ctrlSrst => cases hu; exact State.Inv.coreReset s

theorem State.Inv.engineStep {s u : State} (h : s.Inv) (hu : engineStep s = .next u) : u.Inv := by
  obtain ⟨-, rfl⟩ | ⟨w, -, ⟨i, -, hx⟩ | rfl⟩ := engineStep_cases hu
  · exact h
  · exact h.exec hx
  · exact h.raise _ _ _

theorem State.Inv.ifUnlocked {s t : State} (h : s.Inv) (ht : t.Inv) (off : Nat) : (ifUnlocked off t s).Inv := by
  unfold Machine.ifUnlocked
  split
  · exact h.raise _ _ _
  · exact ht

theorem State.Inv.setBig {s : State} (h : s.Inv) (i : Reg) (v : Big) : (s.setBig i v).Inv :=
  h.of_stored rfl

theorem State.Inv.setKeybufWord {s : State} (h : s.Inv) (k : Nat) (v : Word) : (s.setKeybufWord k v).Inv := by
  unfold State.setKeybufWord
  exact h.of_stored rfl

/-- A CMD write latches only while ERR = 0; every other store touches no field the invariant speaks of. -/
theorem State.Inv.storeRegion {s : State} (h : s.Inv) (he : s.err = false) (off : Nat) (r : Region) (v : Word) :
    (storeRegion off r v s).Inv := by
  cases r <;> simp only [Machine.storeRegion]
  case cmd => exact h.of_hash_fields rfl (fun _ => ⟨rfl, he⟩) h.codeZero h.codeSet
  case curveId => exact h.ifUnlocked (t := { s with curveId := v.setWidth 8 }) (h.of_stored rfl) off
  case dtag | qtag | klen => exact h.of_stored rfl
  case keybuf => exact h.setKeybufWord _ _
  case big i j =>
    split
    · exact h.ifUnlocked (h.setBig _ _) off
    · exact h.setBig _ _
  all_goals exact h

theorem State.Inv.hostStore {s : State} (h : s.Inv) (off : Nat) (v : Word) : (hostStore off v s).Inv := by
  unfold Machine.hostStore
  dsimp only
  split
  · split
    · exact h.of_hash_fields rfl (fun hp => ⟨rfl, h.busyNotErr hp⟩) h.codeZero h.codeSet
    · exact h
  · split
    · exact h.of_stored rfl
    · split
      · split
        · exact h.raise _ _ _
        · split
          · exact h
          · rename_i he
            exact h.storeRegion (Bool.eq_false_iff.2 he) off _ v
      · exact h

theorem State.Inv.hostRead {s : State} (h : s.Inv) (off : Nat) : (hostRead off s).Inv := by
  unfold Machine.hostRead
  dsimp only
  split
  · exact h.of_stored rfl
  · split
    · exact h.of_stored rfl
    · exact h.of_stored rfl

theorem State.Inv.accessError {s : State} (h : s.Inv) (off : Nat) : (accessError off s).Inv := by
  unfold Machine.accessError
  split
  · exact h
  · exact h.raise _ _ _

theorem State.Inv.hostAccess {a : Access} {s u : State} (h : s.Inv) (hu : hostAccess a s = .next u) : u.Inv := by
  obtain ⟨off, n, -, -, ⟨-, rfl⟩ | ⟨-, rfl⟩⟩ | ⟨off, n, v, -, -, ⟨-, ⟨i, -, hx⟩ | rfl⟩ | ⟨-, rfl⟩⟩ :=
    hostAccess_cases hu
  · exact h.hostRead off
  · exact (h.accessError off).of_stored rfl
  · exact h.exec hx
  · exact h.hostStore off v
  · exact h.accessError off

/-- Settles O8: a step is the engine's turn, the reset input or a host access, and each keeps the invariant. -/
theorem stepKeepsInv : Obligations.StepKeepsInv := by
  intro s t h ht
  obtain ⟨-, hstep⟩ | ⟨e, rest, -, ⟨-, hstep⟩ | ⟨-, rfl⟩ | ⟨a, -, hstep⟩⟩ := step_cases ht
  · exact h.engineStep hstep
  · exact (h.withInputs rest).engineStep hstep
  · exact State.Inv.coreReset _
  · exact (h.withInputs rest).hostAccess hstep

/-- Settles O9: the reset state is what a reset leaves of itself. -/
theorem resetHasInv : Obligations.ResetHasInv := State.Inv.coreReset State.reset

/-! ## What a host read can show (10 R41) -/

/-- s with other values in CV, BUF, IPK and OPK, and another word in PENDING where one is latched. -/
def State.withHidden (s : State) (cv : Chain) (buf ipk opk : List Byte) (w : Word) : State :=
  { s with run := { s.run with cv := cv, buf := buf }, ipk := ipk, opk := opk, pending := s.pending.map fun _ => w }

section Hidden

variable (s : State) (cv : Chain) (buf ipk opk : List Byte) (w : Word)

@[simp] theorem busy_withHidden : (s.withHidden cv buf ipk opk w).busy = s.busy := Option.isSome_map

/-- STATUS alone shows PENDING, and only whether it is full. -/
@[simp] theorem regionValue_withHidden (r : Region) :
    regionValue r (s.withHidden cv buf ipk opk w) = regionValue r s := by
  cases r
  case status => simp only [regionValue, State.statusWord, busy_withHidden]; rfl
  all_goals rfl

theorem rdata_hostRead (off : Nat) : (hostRead off s).rdata =
    if !s.busy || readableWhileBusy (regionOf off) then regionValue (regionOf off) s
    else if regionOf off = .errcode then 0 else Config.unspecifiedRead s.drawn := by
  unfold hostRead
  dsimp only
  split
  · rfl
  · split <;> rfl

theorem rdata_hostRead_withHidden (off : Nat) :
    (hostRead off (s.withHidden cv buf ipk opk w)).rdata = (hostRead off s).rdata := by
  rw [rdata_hostRead, rdata_hostRead, busy_withHidden, regionValue_withHidden]
  rfl

end Hidden

/-- A read in the window, of either shape. -/
theorem hostAccess_read_window {off : Nat} (ho : off < 0x2000) (n : Nat) (s : State) :
    hostAccess (.read off n) s =
      .next (if wellShaped off n then hostRead off s else { accessError off s with rdata := 0 }) := by
  have hw : ¬ Config.window ≤ off := Nat.not_le.2 ho
  rw [hostAccess, if_neg hw]
  split <;> rfl

/-- Settles O12: an aligned read depends on BUSY, the value of its region and the count of draws; one of the wrong shape
returns 0. -/
theorem hiddenStateIsNotReadable : Obligations.HiddenStateIsNotReadable := by
  intro s t off bytes cv buf ipk opk w h
  have ho : off < 0x2000 := by
    obtain ⟨_, _, ha, ho, -⟩ | ⟨_, _, _, ha, -⟩ := hostAccess_cases h <;> cases ha
    exact ho
  rw [hostAccess_read_window ho] at h
  cases h
  refine ⟨_, hostAccess_read_window ho bytes (s.withHidden cv buf ipk opk w), ?_⟩
  split
  · exact rdata_hostRead_withHidden s cv buf ipk opk w off
  · rfl

/-! ## Which command writes which bit of FLAGS (10 R30) -/

/-- What a command can leave in FLAGS when it finds f there: a row for each set of bits written together. -/
inductive FlagsWritten (f : Flags) : Instr → Flags → Prop
  | kept (i : Instr) : FlagsWritten f i f
  | compare (ra rb : Reg) (eq lt gt : Bool) : FlagsWritten f (.cmp ra rb) { f with eq := eq, lt := lt, gt := gt }
  | zero (i : Instr) (b : Bool) (h : writesZero i = true) : FlagsWritten f i { f with zero := b }
  | inf (i : Instr) (b : Bool) (h : writesInf i = true) : FlagsWritten f i { f with inf := b }
  | onc (ra : Reg) (b : Bool) : FlagsWritten f (.oncurve ra) { f with onc := b }
  | valid (b : Bool) : FlagsWritten f .verify { f with valid := b }
  | degen (b : Bool) : FlagsWritten f .sign { f with degen := b }
  | zeroNoninv (rd ra rm : Reg) (z b : Bool) : FlagsWritten f (.modinv rd ra rm) { f with zero := z, noninv := b }

theorem flagsWritten_modularRule {i : Instr} {rd rm : Reg} {v : Nat} {s t : State}
    (h : modularRule rd rm v s = .ok t) (hi : writesZero i = true) : FlagsWritten s.flags i t.flags := by
  unfold modularRule at h
  split at h
  · cases h
  · cases h; exact .zero i _ hi

theorem flagsWritten_plain_command {i : Instr} {op : Nat} {s u : State} (h : i.opcode = some op)
    (hi : isHashCommand i = false) (hu : exec i s = .next u) : FlagsWritten s.flags i u.flags := by
  cases i <;>
    simp only [Instr.opcode, Option.some.injEq, reduceCtorEq, isHashCommand, Bool.true_eq_false] at h hi <;>
    subst h <;>
    simp only [exec, execNop, execMov, execLdi, execCmp, execModadd, execModsub, execModred, execModmul, execMontmul,
      execMontrr, execModinv, execTojac, execFromjac, execPdbl, execPadd, execSmul, execOncurve, execIsinf,
      execKeygen, execQcheck, execSign, execVerify] at hu <;>
    obtain ⟨e, rfl⟩ | ⟨t, ht, -, rfl⟩ := perform_next hu
  all_goals try exact .kept _
  all_goals rw [complete_flags]
  case modadd | modsub | modred | modmul | montrr => exact flagsWritten_modularRule ht rfl
  case mov | ldi => cases ht; exact .zero _ _ rfl
  case nop => cases ht; exact .kept _
  case cmp => cases ht; exact .compare _ _ _ _ _
  case oncurve => cases ht; exact .onc _ _
  case tojac | fromjac | pdbl | padd | smul | isinf => cases ht; exact .inf _ _ rfl
  case montmul =>
    split at ht
    · cases ht
    · split at ht
      · cases ht
      · cases ht; exact .zero _ _ rfl
  case modinv =>
    split at ht
    · cases ht
    · cases ht; exact .zeroNoninv _ _ _ _ _
  case keygen =>
    split at ht
    · cases ht
    · split at ht
      · cases ht
      · cases ht; exact .inf _ _ rfl
  case qcheck =>
    split at ht
    · cases ht
    · split at ht
      · cases ht
      · cases ht; exact .kept _
  case sign =>
    repeat' split at ht
    all_goals cases ht
    exact .degen _
  case verify =>
    repeat' split at ht
    all_goals cases ht
    exact .valid _

/-- A hash command keeps FLAGS whole. -/
theorem flags_hash_command {i : Instr} {op : Nat} {s u : State} (h : i.opcode = some op)
    (hi : isHashCommand i = true) (hu : exec i s = .next u) : u.flags = s.flags := by
  obtain ⟨e, rfl⟩ | ⟨hframe, -, -⟩ := hash_command_next h hi hu
  · rfl
  · rw [← hframe]

theorem flagsWritten_command {i : Instr} {op : Nat} {s u : State} (h : i.opcode = some op)
    (hu : exec i s = .next u) : FlagsWritten s.flags i u.flags := by
  cases hi : isHashCommand i with
  | false => exact flagsWritten_plain_command h hi hu
  | true => rw [flags_hash_command h hi hu]; exact .kept i

/-- Settles O14: each row of FlagsWritten changes only bits its command is listed for. -/
theorem flagsChangeOnlyByTheirCommands : Obligations.FlagsChangeOnlyByTheirCommands := by
  intro i op s t h ht
  generalize hf : t.flags = f
  have hw : FlagsWritten s.flags i f := hf ▸ flagsWritten_command h ht
  cases hw with
  | kept => simp
  | compare => simp
  | zero _ _ hz => simp [hz]
  | inf _ _ hinf => simp [hinf]
  | onc => simp
  | valid => simp
  | degen => simp
  | zeroNoninv => simp [writesZero]

/-! ## Host writes to the control and key registers -/

/-- An aligned write in the window, at an offset of no bus row, is a plain store in every state. -/
theorem hostAccess_write_plain {off : Nat} (ho : off < 0x2000) (ha : off % 4 = 0) (h1 : off ≠ 0x040)
    (h2 : off ≠ 0x044) (h3 : off ≠ 0x008) (v : Word) (s : State) :
    hostAccess (.write off 4 v) s = .next (hostStore off v s) :=
  (hostAccess_write ho ha v s).trans (hostWrite_plain h1 h2 h3 v s)

/-- An accepted write to a storing register of the window. -/
theorem hostAccess_write_region {off : Nat} {r : Region} (hr : regionOf off = r) (hst : storesOnWrite r = true)
    (ho : off < 0x2000) (ha : off % 4 = 0) {s : State} (hb : s.busy = false) (he : s.err = false) (v : Word) :
    hostAccess (.write off 4 v) s = .next (storeRegion off r v s) := by
  subst hr
  rw [hostAccess_write_plain ho ha, hostStore_region hst hb he]
  all_goals
    rintro rfl
    cases hst

/-- Byte i of KEYBUF after a store to word k. -/
theorem keybuf_setKeybufWord (s : State) (k : Nat) (v : Word) (i : Fin 256) :
    (s.setKeybufWord k v).keybuf.get i = if i.val / 4 = k then wordByte v (i.val % 4) else s.keybuf.get i := by
  simp [State.setKeybufWord, Vector.get_eq_getElem]

theorem setKeybufWord_frame (s : State) (k : Nat) (v : Word) :
    { s.setKeybufWord k v with keybuf := s.keybuf } = s := by
  unfold State.setKeybufWord
  rfl

theorem irq_iff (s : State) :
    s.irq = true ↔ (s.done = true ∧ s.doneIe = true) ∨ (s.err = true ∧ s.errIe = true) := by
  simp [State.irq]

/-- Settles O29: STATUS and IE by the two stores that act in every state, the others by the store to their region. -/
theorem controlAndKeyWrites : Obligations.ControlAndKeyWrites := by
  intro s v
  refine ⟨?status, ⟨_, ?ie, rfl, irq_iff _⟩, fun hb he => ⟨?dtag, ?qtag, ?klen, fun k hk => ?keybuf⟩⟩
  case status =>
    rw [hostAccess_write_plain (by decide) rfl (by decide) (by decide) (by decide), hostStore_status]
  case ie =>
    rw [hostAccess_write_plain (by decide) rfl (by decide) (by decide) (by decide), hostStore_ie]
  case dtag => exact hostAccess_write_region (r := .dtag) rfl rfl (by decide) rfl hb he v
  case qtag => exact hostAccess_write_region (r := .qtag) rfl rfl (by decide) rfl hb he v
  case klen => exact hostAccess_write_region (r := .klen) rfl rfl (by decide) rfl hb he v
  case keybuf =>
    refine ⟨s.setKeybufWord k v, ?_, setKeybufWord_frame s k v, fun b => ?_⟩
    · exact hostAccess_write_region (regionOf_keybuf hk) rfl (by omega) (by omega) hb he v
    · rw [keybuf_setKeybufWord]
      split
      · exact toNat_wordByte v _
      · rfl

/-! ## The reset values (10 R43) -/

theorem big_reset (r : Reg) : State.reset.big r = 0 := by simp [State.big, State.reset, Vector.get_eq_getElem]

theorem keybuf_reset (i : Fin 256) : State.reset.keybuf.get i = 0 := by
  simp [State.reset, Vector.get_eq_getElem]

theorem cv_reset {ws : List (BitVec 64)} (h : State.reset.run.cv = .words64 ws) : ∀ w ∈ ws, w = 0 := by
  cases h
  exact fun _ => List.eq_of_mem_replicate

/-- Settles O33: the registers held as vectors or lists by the lemmas above, every other value by its definition. -/
theorem resetValues : Obligations.ResetValues := by
  refine ⟨big_reset, rfl, rfl, rfl, rfl, rfl, rfl, rfl, rfl, rfl, rfl, rfl, rfl, rfl, rfl, rfl, rfl, rfl, rfl, rfl,
    digest_clear, keybuf_reset, rfl, fun _ => cv_reset, nofun, rfl, rfl, rfl, rfl, rfl, rfl, rfl⟩

end Sys2Proof.Machine

/-! PROOFS. 20_memory.md: what a step that is no reset can do, the curve lock and the error state under it, and the host
accesses of the register window while BUSY = 1, while ERR = 1, and while both are 0. -/

namespace Sys2Proof.Machine

/-! ## The address map by class of offset (20 R60 to R63, R66) -/

/-- An aligned offset of a defined word of the BR window is word j of the stride of one BR[i]. -/
theorem exists_bigOffset {off : Nat} (ha : off % 4 = 0) (hlo : 0x1000 ≤ off) (hhi : off < 0x2000)
    (hw : off % 0x80 < 0x48) : ∃ (i : Reg) (j : Fin 18), off = 0x1000 + 0x80 * i.val + 4 * j.val :=
  ⟨⟨(off - 0x1000) / 0x80, by omega⟩, ⟨off % 0x80 / 4, by omega⟩, by simp only; omega⟩

theorem regionOf_reserved {off : Nat} (h : ReservedOffset off) : regionOf off = .reserved := by
  rcases h with rfl | h | h | h | ⟨hlo, hhi, hw⟩
  · rfl
  iterate 3 · rw [regionOf_high (by omega), if_neg (by omega), if_neg (by omega), if_neg (by omega)]
  · rw [regionOf_high (by omega), if_neg (by omega), if_neg (by omega), if_pos ⟨hlo, hhi⟩]
    exact dif_neg (by omega)

theorem storesOnWrite_of_readOnly {off : Nat} (h : ReadOnlyOffset off) : storesOnWrite (regionOf off) = false := by
  rcases h with rfl | rfl | rfl | rfl | rfl | rfl | rfl | rfl | hdigest
  iterate 8 · rfl
  · rw [regionOf_high (by omega), if_pos hdigest]
    rfl

/-- A writable offset is a data port or stands in a storing region. -/
theorem storesOnWrite_of_writable {off : Nat} (ha : off % 4 = 0) (h : WritableOffset off) :
    off = 0x040 ∨ off = 0x044 ∨ storesOnWrite (regionOf off) = true := by
  rcases h with rfl | rfl | rfl | rfl | rfl | rfl | rfl | ⟨hlo, hhi⟩ | ⟨hlo, hhi, hw⟩
  iterate 7 · decide
  · rw [regionOf_high (by omega), if_neg (by omega), if_pos ⟨hlo, hhi⟩]
    exact .inr (.inr rfl)
  · obtain ⟨i, j, rfl⟩ := exists_bigOffset ha hlo hhi hw
    rw [regionOf_big]
    exact .inr (.inr rfl)

/-- The offsets at which a read while BUSY = 1 is specified (20 R72) are the seven of the rule. -/
theorem unspecified_while_busy {off : Nat} (ha : off % 4 = 0)
    (h : off ∉ [0x000, 0x004, 0x008, 0x00C, 0x010, 0x018, 0x01C]) :
    readableWhileBusy (regionOf off) = false ∧ regionOf off ≠ .errcode := by
  have low : ∀ o < 0x04C, o % 4 = 0 → o ∉ [0x000, 0x004, 0x008, 0x00C, 0x010, 0x018, 0x01C] →
      readableWhileBusy (regionOf o) = false ∧ regionOf o ≠ .errcode := by decide
  by_cases hl : off < 0x04C
  · exact low off hl ha h
  · obtain ⟨k, hr⟩ | ⟨k, hr⟩ | ⟨i, j, hr⟩ | hr := regionOf_high_cases (Nat.not_lt.1 hl) <;> rw [hr] <;>
      exact ⟨rfl, nofun⟩

/-! ## Host accesses by what the offset does -/

/-- A write in the window, of either shape. -/
theorem hostAccess_write_window {off : Nat} (ho : off < 0x2000) (n : Nat) (v : Word) (s : State) :
    hostAccess (.write off n v) s = if wellShaped off n then hostWrite off v s else .next (accessError off s) := by
  have hw : ¬ Config.window ≤ off := Nat.not_le.2 ho
  rw [hostAccess, if_neg hw]

theorem accessError_of_err {s : State} (h : s.err = true) (off : Nat) : accessError off s = s := by
  rw [accessError, if_pos h]

theorem accessError_of_not_err {s : State} (h : s.err = false) (off : Nat) :
    accessError off s = raiseBus off .access s := by simp [accessError, h]

/-- A write to a read-only or reserved offset is ignored in every state (20 R66, R71, R75). -/
theorem hostAccess_write_ignored {off : Nat} (ha : off % 4 = 0) (h : ReadOnlyOffset off ∨ ReservedOffset off)
    (v : Word) (s : State) : hostAccess (.write off 4 v) s = .next s := by
  have hstore : storesOnWrite (regionOf off) = false := by
    rcases h with h | h
    · exact storesOnWrite_of_readOnly h
    · rw [regionOf_reserved h]; rfl
  have hoff : off < 0x2000 ∧ off ≠ 0x008 ∧ off ≠ 0x00C ∧ off ≠ 0x018 ∧ off ≠ 0x040 ∧ off ≠ 0x044 := by
    unfold ReadOnlyOffset ReservedOffset at h
    omega
  obtain ⟨ho, hctrl, hstatus, hie, hdin, hdinb⟩ := hoff
  rw [hostAccess_write_plain ho ha hdin hdinb hctrl,
    hostStore_ignored (mt (regionOf_status_iff off).1 hstatus) (mt (regionOf_ie_iff off).1 hie) hstore]

theorem hostAccess_write_status (v : Word) (s : State) :
    hostAccess (.write 0x00C 4 v) s = .next { s with done := s.done && !v.getLsbD 1 } := by
  rw [hostAccess_write_plain (by decide) rfl (by decide) (by decide) (by decide), hostStore_status]

theorem hostAccess_write_ie (v : Word) (s : State) :
    hostAccess (.write 0x018 4 v) s = .next { s with doneIe := v.getLsbD 0, errIe := v.getLsbD 1 } := by
  rw [hostAccess_write_plain (by decide) rfl (by decide) (by decide) (by decide), hostStore_ie]

theorem hostAccess_write_srst {v : Word} (h0 : v.getLsbD 0 = true) (s : State) :
    hostAccess (.write 0x008 4 v) s = .next (coreReset s) := by
  rw [hostAccess_write (by decide) rfl, hostWrite_ctrl, if_pos h0]

theorem hostAccess_write_clockc {v : Word} (h0 : v.getLsbD 0 = false) (h1 : v.getLsbD 1 = true) (s : State) :
    hostAccess (.write 0x008 4 v) s = exec .ctrlClockc s := by
  rw [hostAccess_write (by decide) rfl, hostWrite_ctrl, if_neg (Bool.eq_false_iff.1 h0), if_pos h1]

theorem hostAccess_write_ctrl_ignored {v : Word} (h0 : v.getLsbD 0 = false) (h1 : v.getLsbD 1 = false) (s : State) :
    hostAccess (.write 0x008 4 v) s = .next s := by
  rw [hostAccess_write (by decide) rfl, hostWrite_ctrl, if_neg (Bool.eq_false_iff.1 h0),
    if_neg (Bool.eq_false_iff.1 h1)]

/-! ## CLOCKC (20 R73, R71, R75) -/

theorem exec_ctrlClockc_of_err {s : State} (he : s.err = true) : exec .ctrlClockc s = .next s := by
  simp [exec, execCtrlClockc, he]

theorem exec_ctrlClockc_of_busy {s : State} (he : s.err = false) (hb : s.busy = true) :
    exec .ctrlClockc s = .next (raiseBus 0x008 .busy s) := by simp [exec, execCtrlClockc, he, hb, ctrlOffset]

theorem exec_ctrlClockc_idle {s : State} (he : s.err = false) (hb : s.busy = false) :
    exec .ctrlClockc s = .next { s with curveLock := true } := by simp [exec, execCtrlClockc, he, hb]

/-- Settles O31: the three cases of CLOCKC. -/
theorem clockcLocksTheCurve : Obligations.ClockcLocksTheCurve := fun _ =>
  ⟨exec_ctrlClockc_idle, exec_ctrlClockc_of_busy, exec_ctrlClockc_of_err⟩

/-! ## What a step that is no reset can do -/

/-- The rows of the opcode table a write decodes to; SRST is one at CTRL with bit 0 set. -/
theorem decodeWrite_row {off : Nat} {v : Word} {i : Instr} (h : decodeWrite off v = .ok i) :
    (∃ w, i = .hashDin w) ∨ (∃ b, i = .hashDinb b) ∨ i = .ctrlClockc ∨
      (i = .ctrlSrst ∧ off = 0x008 ∧ v.getLsbD 0 = true) := by
  unfold decodeWrite at h
  split at h
  · cases h; exact .inl ⟨_, rfl⟩
  · split at h
    · cases h; exact .inr (.inl ⟨_, rfl⟩)
    · split at h
      · rename_i hoff
        split at h
        · rename_i hbit
          cases h
          rw [bit_of_getLsbD, Bool.toNat_eq_one] at hbit
          exact .inr (.inr (.inr ⟨rfl, hoff, hbit⟩))
        · split at h
          · cases h; exact .inr (.inr (.inl rfl))
          · cases h
      · cases h

/-- The ways of a step that is no reset, from s with its event taken off the list. -/
inductive NonReset (s : State) : State → Prop
  | engine {t : State} (h : engineStep s = .next t) : NonReset s t
  | read (off : Nat) : NonReset s (hostRead off s)
  | port (off : Nat) (bs : List Byte) : NonReset s (dataPort off bs s)
  | clockc {t : State} (h : exec .ctrlClockc s = .next t) : NonReset s t
  | store (off : Nat) (v : Word) : NonReset s (hostStore off v s)
  | misshapenRead (off : Nat) : NonReset s { accessError off s with rdata := 0 }
  | misshapenWrite (off : Nat) : NonReset s (accessError off s)

theorem nonReset_of_hostAccess {a : Access} {s t : State} (h : hostAccess a s = .next t)
    (hreset : ∀ v, a = .write 0x008 4 v → v.getLsbD 0 = false) : NonReset s t := by
  obtain ⟨off, n, -, -, ⟨-, rfl⟩ | ⟨-, rfl⟩⟩ | ⟨off, n, v, rfl, -, ⟨hw, ⟨i, hd, hx⟩ | rfl⟩ | ⟨-, rfl⟩⟩ :=
    hostAccess_cases h
  · exact .read off
  · exact .misshapenRead off
  · obtain ⟨w, rfl⟩ | ⟨b, rfl⟩ | rfl | ⟨-, rfl, hbit⟩ := decodeWrite_row hd
    · cases hx; exact .port _ _
    · cases hx; exact .port _ _
    · exact .clockc hx
    · have hn : n = 4 := by simpa [wellShaped] using hw
      exact absurd hbit (Bool.eq_false_iff.1 (hreset v (by rw [hn])))
  · exact .store off v
  · exact .misshapenWrite off

theorem nonReset_of_step {s t : State} (hreset : s.resetsNext = false) (h : step s = .next t) :
    ∃ rest, NonReset { s with inputs := rest } t := by
  obtain ⟨hin, hx⟩ | ⟨e, rest, hin, ⟨rfl, hx⟩ | ⟨rfl, -⟩ | ⟨a, rfl, hx⟩⟩ := step_cases h
  · exact ⟨[], .engine (by rw [← hin]; exact hx)⟩
  · exact ⟨rest, .engine hx⟩
  · simp [State.resetsNext, hin] at hreset
  · refine ⟨rest, nonReset_of_hostAccess hx ?_⟩
    rintro v rfl
    simpa [State.resetsNext, hin] using hreset

/-- A read changes the data of the last read and the count of free draws alone. -/
theorem hostRead_frame (off : Nat) (s : State) :
    ∃ w n, hostRead off s = { s with rdata := w, drawn := n } := by
  unfold hostRead
  dsimp only
  split
  · exact ⟨_, s.drawn, rfl⟩
  · split
    · exact ⟨_, s.drawn, rfl⟩
    · exact ⟨_, _, rfl⟩

/-- A store acts on STATUS.DONE and IE alone, or raises E_BUSY, or is accepted while BUSY = 0 and ERR = 0. -/
theorem hostStore_cases (off : Nat) (v : Word) (s : State) :
    (∃ d a b, hostStore off v s = { s with done := d, doneIe := a, errIe := b }) ∨
      (s.busy = true ∧ hostStore off v s = raiseBus off .busy s) ∨
      (s.busy = false ∧ s.err = false ∧ hostStore off v s = storeRegion off (regionOf off) v s) := by
  by_cases hstatus : off = 0x00C
  · subst hstatus
    exact .inl ⟨_, s.doneIe, s.errIe, hostStore_status v s⟩
  by_cases hie : off = 0x018
  · subst hie
    exact .inl ⟨s.done, _, _, hostStore_ie v s⟩
  have hr1 := mt (regionOf_status_iff off).1 hstatus
  have hr2 := mt (regionOf_ie_iff off).1 hie
  cases hst : storesOnWrite (regionOf off) with
  | false => exact .inl ⟨s.done, s.doneIe, s.errIe, hostStore_ignored hr1 hr2 hst v⟩
  | true =>
    cases hb : s.busy with
    | true => exact .inr (.inl ⟨rfl, hostStore_busy hst hb v⟩)
    | false =>
      by_cases he : s.err = true
      · exact .inl ⟨s.done, s.doneIe, s.errIe, hostStore_err hr1 hr2 hb he v⟩
      · have he := Bool.eq_false_iff.2 he
        exact .inr (.inr ⟨rfl, he, hostStore_region hst hb he v⟩)

/-! ## The curve lock (20 R74) -/

/-- t has the lock, CURVE_ID and BR0 to BR6 of s. -/
structure KeepsCurve (s t : State) : Prop where
  lock : t.curveLock = s.curveLock
  id : t.curveId = s.curveId
  params : ∀ r : Reg, r.val ≤ 6 → t.big r = s.big r

/-- A change that leaves the lock, CURVE_ID and every big register. -/
theorem KeepsCurve.of_br {s t : State} (hl : t.curveLock = s.curveLock) (hid : t.curveId = s.curveId)
    (hbr : t.br = s.br) : KeepsCurve s t := ⟨hl, hid, fun r _ => by rw [State.big, State.big, hbr]⟩

theorem keepsCurve_raise (e : Err) (eop : BitVec 8) (eoff : BitVec 16) (s : State) :
    KeepsCurve s (raise e eop eoff s) := .of_br rfl rfl rfl

/-- No command changes the lock or CURVE_ID. -/
theorem command_keeps_lock {i : Instr} {op : Nat} {s t : State} (ho : i.opcode = some op)
    (ht : exec i s = .next t) : t.curveLock = s.curveLock ∧ t.curveId = s.curveId := by
  cases hi : isHashCommand i with
  | false =>
    obtain ⟨e, rfl⟩ | ⟨hframe, -, -⟩ := plain_command_next ho hi ht
    · exact ⟨rfl, rfl⟩
    · exact ⟨by rw [← hframe], by rw [← hframe]⟩
  | true =>
    obtain ⟨e, rfl⟩ | ⟨hframe, -, -⟩ := hash_command_next ho hi ht
    · exact ⟨rfl, rfl⟩
    · exact ⟨by rw [← hframe], by rw [← hframe]⟩

theorem command_keeps_registers {i : Instr} {op : Nat} {s t : State} (ho : i.opcode = some op)
    (ht : exec i s = .next t) {r : Reg} (hr : r ∉ destRegs i) : t.big r = s.big r := by
  cases hi : isHashCommand i with
  | false => exact plain_command_keeps_registers ho hi ht hr
  | true => exact hash_command_keeps_registers ho hi ht r

/-- While the curve is locked a command that passes its checks has no destination in BR0 to BR6 (60 R285 step 4). -/
theorem command_keepsCurve {i : Instr} {op : Nat} {s t : State} (ho : i.opcode = some op)
    (hlock : s.curveLock = true) (ht : exec i s = .next t) : KeepsCurve s t := by
  obtain ⟨rule, hrule⟩ := exec_command ho s
  obtain ⟨e, rfl⟩ | ⟨-, -, hc, -⟩ := perform_next (hrule.symm.trans ht)
  · exact keepsCurve_raise _ _ _ s
  · obtain ⟨hl, hid⟩ := command_keeps_lock ho ht
    refine ⟨hl, hid, fun r hr => command_keeps_registers ho ht fun hmem => ?_⟩
    obtain ⟨-, hdest, -, -⟩ := (commonChecks_none_iff _ s).1 hc
    rw [(destLocked_iff _ s).2 ⟨hlock, r, hmem, hr⟩] at hdest
    cases hdest

theorem engineStep_keepsCurve {s t : State} (hlock : s.curveLock = true) (ht : engineStep s = .next t) :
    KeepsCurve s t := by
  obtain ⟨-, rfl⟩ | ⟨w, -, ⟨i, hd, hx⟩ | rfl⟩ := engineStep_cases ht
  · exact .of_br rfl rfl rfl
  · exact command_keepsCurve (decodeCmd_is_command hd) hlock hx
  · exact keepsCurve_raise _ _ _ s

theorem dataPort_keepsCurve (off : Nat) (bs : List Byte) (s : State) : KeepsCurve s (dataPort off bs s) := by
  unfold dataPort sessionAbsorb
  repeat' split
  all_goals exact .of_br rfl rfl rfl

theorem ctrlClockc_keepsCurve {s t : State} (hlock : s.curveLock = true) (ht : exec .ctrlClockc s = .next t) :
    KeepsCurve s t := by
  simp only [exec, execCtrlClockc] at ht
  split at ht
  · cases ht; exact .of_br rfl rfl rfl
  · split at ht
    · cases ht; exact keepsCurve_raise _ _ _ s
    · cases ht; exact .of_br hlock.symm rfl rfl

theorem accessError_keepsCurve (off : Nat) (s : State) : KeepsCurve s (accessError off s) := by
  unfold accessError
  split <;> exact .of_br rfl rfl rfl

theorem ifUnlocked_locked {s : State} (hlock : s.curveLock = true) (off : Nat) (t : State) :
    ifUnlocked off t s = raiseBus off .locked s := by rw [ifUnlocked, if_pos hlock]

theorem ifUnlocked_open {s : State} (hlock : s.curveLock = false) (off : Nat) (t : State) :
    ifUnlocked off t s = t := by simp [ifUnlocked, hlock]

theorem storeRegion_big_locked {s : State} {i : Reg} (hlock : s.curveLock = true) (hi : i.val ≤ 6) (off : Nat)
    (j : Fin 18) (v : Word) : storeRegion off (.big i j) v s = raiseBus off .locked s := by
  simp only [storeRegion, (isCurveReg_iff i).2 hi, if_true]
  exact ifUnlocked_locked hlock off _

theorem storeRegion_big {s : State} {i : Reg} (hw : Writable s i) (off : Nat) (j : Fin 18) (v : Word) :
    storeRegion off (.big i j) v s = s.setBig i (setBigWord (s.big i) j v) := by
  simp only [storeRegion]
  split
  · rename_i hc
    refine ifUnlocked_open (Bool.eq_false_iff.2 fun hlock => ?_) off _
    have := (isCurveReg_iff i).1 hc
    have := hw hlock
    omega
  · rfl

theorem storeRegion_keepsCurve {s : State} (hlock : s.curveLock = true) (off : Nat) (r : Region) (v : Word) :
    KeepsCurve s (storeRegion off r v s) := by
  cases r
  case curveId =>
    rw [storeRegion, ifUnlocked_locked hlock]
    exact keepsCurve_raise _ _ _ s
  case big i j =>
    by_cases hi : i.val ≤ 6
    · rw [storeRegion_big_locked hlock hi]
      exact keepsCurve_raise _ _ _ s
    · rw [storeRegion_big fun _ => by omega]
      refine ⟨rfl, rfl, fun r hr => big_setBig_ne ?_⟩
      rintro rfl
      exact hi hr
  case keybuf =>
    unfold storeRegion State.setKeybufWord
    exact .of_br rfl rfl rfl
  all_goals exact .of_br rfl rfl rfl

theorem hostStore_keepsCurve {s : State} (hlock : s.curveLock = true) (off : Nat) (v : Word) :
    KeepsCurve s (hostStore off v s) := by
  obtain ⟨d, a, b, h⟩ | ⟨-, h⟩ | ⟨-, -, h⟩ := hostStore_cases off v s <;> rw [h]
  · exact .of_br rfl rfl rfl
  · exact keepsCurve_raise _ _ _ s
  · exact storeRegion_keepsCurve hlock off _ v

theorem nonReset_keepsCurve {s t : State} (hlock : s.curveLock = true) (h : NonReset s t) : KeepsCurve s t := by
  cases h with
  | engine h => exact engineStep_keepsCurve hlock h
  | read off =>
    obtain ⟨w, n, h⟩ := hostRead_frame off s
    rw [h]
    exact .of_br rfl rfl rfl
  | port off bs => exact dataPort_keepsCurve off bs s
  | clockc h => exact ctrlClockc_keepsCurve hlock h
  | store off v => exact hostStore_keepsCurve hlock off v
  | misshapenRead off =>
    obtain ⟨hl, hid, hp⟩ := accessError_keepsCurve off s
    exact ⟨hl, hid, hp⟩
  | misshapenWrite off => exact accessError_keepsCurve off s

/-- Settles O10: a step that is no reset goes one of the ways of NonReset, and each of them keeps the locked curve. -/
theorem lockProtectsCurveUntilReset : Obligations.LockProtectsCurveUntilReset := by
  intro s t hlock hreset hstep
  obtain ⟨rest, h⟩ := nonReset_of_step hreset hstep
  obtain ⟨hl, hid, hparams⟩ := nonReset_keepsCurve (s := { s with inputs := rest }) hlock h
  exact ⟨hl.trans hlock, hid, hparams⟩

/-! ## The error state (20 R75, 60 R283, R286) -/

/-- No command is latched while ERR = 1. -/
theorem State.Inv.pending_of_err {s : State} (h : s.Inv) (he : s.err = true) : s.pending = none := by
  cases hp : s.pending with
  | none => rfl
  | some w => simp [h.busyNotErr (by rw [hp]; rfl)] at he

theorem State.Inv.busy_of_err {s : State} (h : s.Inv) (he : s.err = true) : s.busy = false := by
  rw [State.busy, h.pending_of_err he]
  rfl

theorem State.Inv.err_of_busy {s : State} (h : s.Inv) (hb : s.busy = true) : s.err = false := h.busyNotErr hb

/-- A step that is no reset changes no more of the error state than STATUS.DONE, IE and the data of the last read. -/
theorem nonReset_of_err {s t : State} (hp : s.pending = none) (he : s.err = true) (h : NonReset s t) :
    ∃ d a b w, t = { s with done := d, doneIe := a, errIe := b, rdata := w } := by
  have hb : s.busy = false := by rw [State.busy, hp]; rfl
  cases h with
  | engine h =>
    obtain ⟨-, rfl⟩ | ⟨w, hw, -⟩ := engineStep_cases h
    · exact ⟨t.done, t.doneIe, t.errIe, t.rdata, rfl⟩
    · rw [hp] at hw; cases hw
  | read off => exact ⟨s.done, s.doneIe, s.errIe, _, hostRead_idle hb off⟩
  | port off bs => exact ⟨s.done, s.doneIe, s.errIe, s.rdata, dataPort_err hb he off bs⟩
  | clockc h =>
    rw [exec_ctrlClockc_of_err he] at h
    cases h
    exact ⟨s.done, s.doneIe, s.errIe, s.rdata, rfl⟩
  | store off v =>
    obtain ⟨d, a, b, h⟩ | ⟨hbusy, -⟩ | ⟨-, herr, -⟩ := hostStore_cases off v s
    · exact ⟨d, a, b, s.rdata, h⟩
    · simp [hb] at hbusy
    · simp [he] at herr
  | misshapenRead off => exact ⟨s.done, s.doneIe, s.errIe, 0, by rw [accessError_of_err he]⟩
  | misshapenWrite off => exact ⟨s.done, s.doneIe, s.errIe, s.rdata, accessError_of_err he off⟩

/-- Settles O11: no command is latched in the error state, so a step that is no reset is a host access, and each of them
leaves all but DONE, IE and the read data. -/
theorem errorStateIsLeftOnlyByReset : Obligations.ErrorStateIsLeftOnlyByReset := by
  intro s t hinv he hreset hstep
  obtain ⟨rest, h⟩ := nonReset_of_step hreset hstep
  obtain ⟨d, a, b, w, rfl⟩ := nonReset_of_err (s := { s with inputs := rest }) (hinv.pending_of_err he) he h
  rfl

/-! ## Where a step stops (20 R60; log entry 6) -/

/-- The byte offset of an access from CORE_BASE. -/
def accessOffset : Access → Nat
  | .read off _ => off
  | .write off _ _ => off

theorem hostAccess_inside {a : Access} (h : accessOffset a < 0x2000) (s : State) :
    ∃ t, hostAccess a s = .next t := by
  cases a with
  | read off n => exact ⟨_, hostAccess_read_window h n s⟩
  | write off n v =>
    rw [hostAccess_write_window (off := off) h]
    split
    · exact hostWrite_next off v s
    · exact ⟨_, rfl⟩

theorem hostAccess_outside {a : Access} (h : 0x2000 ≤ accessOffset a) (s : State) :
    hostAccess a s = .fault (.outsideWindow (accessOffset a)) := by
  cases a <;> exact if_pos h

/-- A step gives a next state, unless its event is a host access outside the window: then it stops with the fault. -/
theorem step_outcome (s : State) :
    ((∃ t, step s = .next t) ∧ ∀ a rest, s.inputs = .host a :: rest → accessOffset a < 0x2000) ∨
      ∃ a rest, s.inputs = .host a :: rest ∧ 0x2000 ≤ accessOffset a ∧
        step s = .fault (.outsideWindow (accessOffset a)) := by
  rcases hin : s.inputs with _ | ⟨e, rest⟩
  · exact .inl ⟨by rw [step_of_inputs_nil hin]; exact engineStep_next s, nofun⟩
  · rw [step_of_inputs_cons hin]
    cases e with
    | engine => exact .inl ⟨engineStep_next _, nofun⟩
    | reset => exact .inl ⟨⟨_, rfl⟩, nofun⟩
    | host a =>
      rcases Nat.lt_or_ge (accessOffset a) 0x2000 with h | h
      · refine .inl ⟨hostAccess_inside h _, fun a' rest' heq => ?_⟩
        cases heq
        exact h
      · exact .inr ⟨a, rest, rfl, h, hostAccess_outside h _⟩

theorem exists_host_iff (s : State) (off : Nat) :
    (∃ a rest, s.inputs = .host a :: rest ∧ accessOffset a = off) ↔
      ∃ rest n v, s.inputs = .host (.read off n) :: rest ∨ s.inputs = .host (.write off n v) :: rest := by
  constructor
  · rintro ⟨a, rest, hin, rfl⟩
    cases a with
    | read off n => exact ⟨rest, n, 0, .inl hin⟩
    | write off n v => exact ⟨rest, n, v, .inr hin⟩
  · rintro ⟨rest, n, v, hin | hin⟩
    · exact ⟨_, rest, hin, rfl⟩
    · exact ⟨_, rest, hin, rfl⟩

/-- Settles O6: the two outcomes of a step exclude each other, and the access at the head of the list names the fault. -/
theorem stepStopsOnlyOutsideWindow : Obligations.StepStopsOnlyOutsideWindow := by
  intro s
  obtain ⟨⟨t, ht⟩, hin⟩ | ⟨a, rest, hin, ha, hfault⟩ := step_outcome s
  · refine ⟨.inl ⟨t, ht⟩, fun off => ⟨fun h => ?_, fun ⟨ho, h⟩ => ?_⟩⟩
    · rw [ht] at h; cases h
    · obtain ⟨a, rest, heq, rfl⟩ := (exists_host_iff s off).2 h
      exact absurd (hin a rest heq) (Nat.not_lt.2 ho)
  · refine ⟨.inr ⟨_, hfault⟩, fun off => ?_⟩
    rw [hfault]
    refine ⟨fun h => ?_, fun ⟨_, h⟩ => ?_⟩
    · cases h
      exact ⟨ha, (exists_host_iff s _).1 ⟨a, rest, hin, rfl⟩⟩
    · obtain ⟨a', rest', heq, rfl⟩ := (exists_host_iff s off).2 h
      rw [hin] at heq
      cases heq
      rfl

/-! ## How a command ends (20 R70, 60 R283) -/

/-- Settles O16: a command answers a next state, and command_next reads off it which of the two ways it took. -/
theorem commandCompletesOrOnlyRaises : Obligations.CommandCompletesOrOnlyRaises := by
  intro i op s ho
  obtain ⟨t, ht⟩ := exec_next i s
  obtain ⟨e, rfl⟩ | ⟨hp, hd, he, hc⟩ := command_next ho ht
  · exact .inl ⟨e, ht⟩
  · exact .inr ⟨t, ht, by rw [State.busy, hp]; rfl, hp, hd, he, hc⟩

/-! ## While BUSY = 1 (20 R71, R72) -/

theorem hostRead_defined {off : Nat} (h : readableWhileBusy (regionOf off) = true) (s : State) :
    hostRead off s = { s with rdata := regionValue (regionOf off) s } := by simp [hostRead, h]

theorem hostRead_unspecified {off : Nat} {s : State} (hb : s.busy = true)
    (h : readableWhileBusy (regionOf off) = false) (hr : regionOf off ≠ .errcode) :
    hostRead off s = { s with rdata := Config.unspecifiedRead s.drawn, drawn := s.drawn + 1 } := by
  simp [hostRead, hb, h, hr]

theorem hostRead_errcode_busy {s : State} (hb : s.busy = true) : hostRead 0x010 s = { s with rdata := 0 } := by
  simp [hostRead, hb, regionOf, readableWhileBusy]

theorem eq_ofNat_of_toNat {w : Word} {n : Nat} (h : w.toNat = n) : w = BitVec.ofNat 32 n := by
  rw [← h, BitVec.ofNat_toNat, BitVec.setWidth_eq]

/-- Settles O21: the six registers that stay readable, ERRCODE, and every other offset. -/
theorem busyReads : Obligations.BusyReads := by
  intro s off hb ho ha
  rw [hostAccess_read ho ha]
  refine ⟨?idReg, ?version, ?ctrl, ?status, ?ie, ?zero, fun h => ?unspecified⟩
  case idReg => rintro rfl; exact congrArg _ (hostRead_defined rfl s)
  case version => rintro rfl; exact congrArg _ (hostRead_defined rfl s)
  case ctrl =>
    rintro rfl
    rw [hostRead_defined rfl, ← eq_ofNat_of_toNat (toNat_ctrlWord s)]
    rfl
  case status =>
    rintro rfl
    have h := toNat_statusWord s
    rw [hb, Bool.toNat_true] at h
    rw [hostRead_defined rfl, ← eq_ofNat_of_toNat h]
    rfl
  case ie =>
    rintro rfl
    rw [hostRead_defined rfl, ← eq_ofNat_of_toNat (toNat_ieWord s)]
    rfl
  case zero =>
    rintro (rfl | rfl)
    · exact congrArg _ (hostRead_defined rfl s)
    · rw [hostRead_errcode_busy hb]
  case unspecified =>
    obtain ⟨hread, hcode⟩ := unspecified_while_busy ha h
    rw [hostRead_unspecified hb hread hcode]

/-- A write that would store, latch or absorb raises E_BUSY. -/
theorem hostAccess_write_busy {off : Nat} {s : State} (hb : s.busy = true) (ho : off < 0x2000) (ha : off % 4 = 0)
    (h : WritableOffset off) (v : Word) : hostAccess (.write off 4 v) s = .next (raiseBus off .busy s) := by
  obtain rfl | rfl | hst := storesOnWrite_of_writable ha h
  · rw [hostAccess_write ho ha, hostWrite_hashDin]
    exact congrArg _ (dataPort_busy hb _ _)
  · rw [hostAccess_write ho ha, hostWrite_hashDinb]
    exact congrArg _ (dataPort_busy hb _ _)
  · rw [hostAccess_write_plain ho ha, hostStore_busy hst hb]
    all_goals
      rintro rfl
      cases hst

/-- Settles O22: one clause for each class of offsets. -/
theorem busyWrites : Obligations.BusyWrites := by
  intro s off v hinv hb ho ha
  have he := hinv.err_of_busy hb
  refine ⟨fun h => hostAccess_write_busy hb ho ha h v, ?reset, ?clockc, ?ctrlIgnored, ?status, ?ie,
    fun h => hostAccess_write_ignored ha h v s⟩
  case reset => rintro rfl h0; exact hostAccess_write_srst h0 s
  case clockc => rintro rfl h0 h1; exact (hostAccess_write_clockc h0 h1 s).trans (exec_ctrlClockc_of_busy he hb)
  case ctrlIgnored => rintro rfl h0 h1; exact hostAccess_write_ctrl_ignored h0 h1 s
  case status => rintro rfl; exact hostAccess_write_status v s
  case ie => rintro rfl; exact hostAccess_write_ie v s

/-! ## While ERR = 1 (20 R75) -/

/-- A write to an offset other than CTRL, STATUS and IE is ignored. -/
theorem hostAccess_write_err {off : Nat} {s : State} (hb : s.busy = false) (he : s.err = true) (ho : off < 0x2000)
    (ha : off % 4 = 0) (hctrl : off ≠ 0x008) (hstatus : off ≠ 0x00C) (hie : off ≠ 0x018) (v : Word) :
    hostAccess (.write off 4 v) s = .next s := by
  by_cases hdin : off = 0x040
  · subst hdin
    rw [hostAccess_write ho ha, hostWrite_hashDin]
    exact congrArg _ (dataPort_err hb he _ _)
  by_cases hdinb : off = 0x044
  · subst hdinb
    rw [hostAccess_write ho ha, hostWrite_hashDinb]
    exact congrArg _ (dataPort_err hb he _ _)
  rw [hostAccess_write_plain ho ha hdin hdinb hctrl,
    hostStore_err (mt (regionOf_status_iff off).1 hstatus) (mt (regionOf_ie_iff off).1 hie) hb he]

/-- STATUS alone shows ERR. -/
theorem regionValue_err {r : Region} (h : r ≠ .status) (s : State) (b : Bool) :
    regionValue r { s with err := b } = regionValue r s := by
  cases r
  case status => exact absurd rfl h
  all_goals rfl

/-- Settles O23: the ignored writes, the two kinds of CTRL write, and the reads of every region but STATUS. -/
theorem errorIgnoresWrites : Obligations.ErrorIgnoresWrites := by
  intro s off v hinv he ho ha
  have hb := hinv.busy_of_err he
  refine ⟨fun h1 h2 h3 => hostAccess_write_err hb he ho ha h1 h2 h3 v, ?reset, ?ctrlIgnored, fun h => ?read⟩
  case reset => rintro rfl h0; exact hostAccess_write_srst h0 s
  case ctrlIgnored =>
    rintro rfl h0
    cases h1 : v.getLsbD 1 with
    | true => exact (hostAccess_write_clockc h0 h1 s).trans (exec_ctrlClockc_of_err he)
    | false => exact hostAccess_write_ctrl_ignored h0 h1 s
  case read =>
    have hb' : { s with err := false }.busy = false := hb
    refine ⟨regionValue (regionOf off) s, ?_, ?_⟩
    · rw [hostAccess_read ho ha, hostRead_idle hb]
    · rw [hostAccess_read ho ha, hostRead_idle hb', regionValue_err (mt (regionOf_status_iff off).1 h)]

/-! ## Misshapen accesses (20 R65, 60 R283) -/

/-- Settles O24: the shape alone sends the access to accessError, which looks at ERR. -/
theorem misshapenAccessRaisesAccess : Obligations.MisshapenAccessRaisesAccess := by
  intro s off bytes v ho hshape
  rw [hostAccess_write_window ho, hostAccess_read_window ho, wellShaped_false hshape]
  refine ⟨fun he => ?_, fun he => ?_⟩
  · rw [accessError_of_not_err he]
    exact ⟨rfl, rfl⟩
  · rw [accessError_of_err he]
    exact ⟨rfl, rfl⟩

/-! ## Reserved and read-only offsets (20 R66) -/

/-- Settles O25: no such offset stores, and a reserved region has the value 0. -/
theorem reservedAndReadOnlyOffsets : Obligations.ReservedAndReadOnlyOffsets := by
  intro s off v ha
  refine ⟨fun h => ⟨hostAccess_write_ignored ha (.inr h) v s, fun hb => ?_⟩,
    fun h => hostAccess_write_ignored ha (.inl h) v s⟩
  have ho : off < 0x2000 := by
    unfold ReservedOffset at h
    omega
  rw [hostAccess_read ho ha, hostRead_idle hb, regionOf_reserved h]
  rfl

/-! ## Words of the big registers (20 R62) and accepted writes (20 R69, R74) -/

theorem word_setBigWord_same (x : Big) (j : Fin 18) (v : Word) :
    (setBigWord x j v).toNat / 2 ^ (32 * j.val) % 2 ^ 32 = v.toNat := by
  rw [← toNat_bigWord, bigWord_setBigWord, if_pos rfl]

theorem word_setBigWord_ne (x : Big) (j : Fin 18) (v : Word) {k : Nat} (hk : k < 18) (hkj : k ≠ j.val) :
    (setBigWord x j v).toNat / 2 ^ (32 * k) % 2 ^ 32 = x.toNat / 2 ^ (32 * k) % 2 ^ 32 := by
  have h := congrArg BitVec.toNat (bigWord_setBigWord x j v ⟨k, hk⟩)
  rwa [if_neg fun heq => hkj (congrArg Fin.val heq), toNat_bigWord, toNat_bigWord] at h

/-- A write to a word of a big register while BUSY = 0 and ERR = 0. -/
theorem hostAccess_write_big {s : State} (hb : s.busy = false) (he : s.err = false) (i : Reg) (j : Fin 18)
    (v : Word) : hostAccess (.write (0x1000 + 0x80 * i.val + 4 * j.val) 4 v) s =
      .next (storeRegion (0x1000 + 0x80 * i.val + 4 * j.val) (.big i j) v s) :=
  hostAccess_write_region (regionOf_big i j) rfl (by omega) (by omega) hb he v

/-- Settles O26: the region is word j of BR[i], and a write puts setBigWord's value there. -/
theorem bigRegisterWords : Obligations.BigRegisterWords := by
  intro s i j off v hj hoff hb
  subst hoff
  have hregion := regionOf_big i ⟨j, hj⟩
  refine ⟨⟨bigWord (s.big i) ⟨j, hj⟩, ?_, toNat_bigWord _ _⟩, fun he hw => ?_⟩
  · rw [hostAccess_read (by omega) (by omega), hostRead_idle hb, hregion]
    rfl
  · refine ⟨setBigWord (s.big i) ⟨j, hj⟩ v, ?_, word_setBigWord_same _ ⟨j, hj⟩ v,
      fun k hk hkj => word_setBigWord_ne _ ⟨j, hj⟩ v hk hkj, big_setBig_same s i _, fun r hr => big_setBig_ne hr⟩
    rw [hostAccess_write_big hb he i ⟨j, hj⟩, storeRegion_big hw]

/-- Settles O28: the offsets are CURVE_ID and the words of BR0 to BR6, the regions whose store looks at the lock. -/
theorem lockedHostWrites : Obligations.LockedHostWrites := by
  intro s off v hb he ha hoff
  rcases hoff with rfl | ⟨hlo, hhi, hw⟩
  · have hwrite : hostAccess (.write 0x020 4 v) s = .next (ifUnlocked 0x020 { s with curveId := v.setWidth 8 } s) :=
      hostAccess_write_region (r := .curveId) rfl rfl (by decide) rfl hb he v
    rw [hwrite]
    refine ⟨fun hlock => by rw [ifUnlocked_locked hlock]; rfl, fun hlock => ⟨fun _ => ?_, fun h => absurd rfl h⟩⟩
    rw [ifUnlocked_open hlock]
  · obtain ⟨i, j, rfl⟩ := exists_bigOffset ha hlo (by omega) hw
    have hi : i.val ≤ 6 := by omega
    rw [hostAccess_write_big hb he]
    refine ⟨fun hlock => by rw [storeRegion_big_locked hlock hi]; rfl, fun hlock => ⟨fun h => by omega, fun _ => ?_⟩⟩
    have hopen : Writable s i := fun h => by simp [hlock] at h
    exact ⟨i, j.val, setBigWord (s.big i) j v, hi, j.isLt, rfl, congrArg _ (storeRegion_big hopen _ j v),
      word_setBigWord_same _ j v, fun k hk hkj => word_setBigWord_ne _ j v hk hkj⟩

/-- Settles O27: CMD is a storing region, and its store latches the word. -/
theorem cmdWriteLatches : Obligations.CmdWriteLatches := fun s w he hb =>
  ⟨latch w s, hostAccess_write_region (r := .cmd) rfl rfl (by decide) rfl hb he w, rfl, rfl⟩

end Sys2Proof.Machine

/-! PROOFS. 30_encoding.md: a command word decodes to an instruction exactly when it is the instruction's encoding. Each
side is a conjunction of equations between the word's fields and the instruction's operands. -/

namespace Sys2Proof

section FieldEquations

variable {w : Word} {i : Instr} {op : Nat}

/-! ## Decoding as equations of fields -/

/-- A word decodes to a command iff it has the command's opcode and operands, and its reserved fields are 0. -/
theorem decodeCmd_eq_ok_iff {j : Instr} {ranges : List (Nat × Nat)} (hi : i.opcode = some op)
    (hd : bits w 7 0 = op → decodeCmd w = checkReserved w ranges j) :
    decodeCmd w = .ok i ↔ bits w 7 0 = op ∧ j = i ∧ ∀ r ∈ ranges, bits w r.1 r.2 = 0 := by
  constructor
  · intro h
    have ho : bits w 7 0 = op := Option.some.inj ((decodeCmd_is_command h).symm.trans hi)
    obtain ⟨hr, hj⟩ := checkReserved_ok ((hd ho).symm.trans h)
    exact ⟨ho, hj, hr⟩
  · rintro ⟨ho, rfl, hr⟩
    rw [hd ho, checkReserved_of_zero hr]

/-- No command word decodes to a bus row. -/
theorem decodeCmd_ne_ok_of_bus (hi : i.opcode = none) : decodeCmd w ≠ .ok i := fun h =>
  Option.some_ne_none _ ((decodeCmd_is_command h).symm.trans hi)

theorem fieldRd_eq_zero : fieldRd w = 0 ↔ bits w 12 8 = 0 := by rw [← fieldRd_val]; exact Fin.ext_iff
theorem fieldRa_eq_zero : fieldRa w = 0 ↔ bits w 17 13 = 0 := by rw [← fieldRa_val]; exact Fin.ext_iff
theorem fieldRb_eq_zero : fieldRb w = 0 ↔ bits w 22 18 = 0 := by rw [← fieldRb_val]; exact Fin.ext_iff
theorem fieldRm_eq_zero : fieldRm w = 0 ↔ bits w 27 23 = 0 := by rw [← fieldRm_val]; exact Fin.ext_iff

theorem fieldOlen_toNat : (fieldOlen w).toNat = bits w 19 13 := by simp [fieldOlen, bits]

theorem fieldOlen_eq_zero : fieldOlen w = 0#7 ↔ bits w 19 13 = 0 := by rw [← fieldOlen_toNat]; exact BitVec.toNat_eq

/-- The modifier field holds NEG in its lowest bit, and the three bits above it are reserved. -/
theorem modifier_eq_neg (neg : Bool) : bits w 31 28 = neg.toNat ↔ fieldNeg w = neg ∧ bits w 31 29 = 0 := by
  have hsplit : bits w 31 28 = bits w 28 28 + 2 * bits w 31 29 := by simp only [bits]; omega
  have hbit : bits w 28 28 < 2 := Nat.mod_lt _ (by decide)
  cases neg <;> simp only [fieldNeg, beq_iff_eq, beq_eq_false_iff_ne, Bool.toNat_false, Bool.toNat_true] <;> omega

/-! ## Encoding as equations of fields -/

theorem encode_formatR_iff {x : Nat} (rd ra rb rm : Reg) (he : encode i = .cmd (formatR op rd ra rb rm x))
    (hx : x < 16 := by decide) (hop : op < 256 := by decide) :
    encode i = .cmd w ↔ bits w 7 0 = op ∧ fieldRd w = rd ∧ fieldRa w = ra ∧ fieldRb w = rb ∧ fieldRm w = rm ∧
      bits w 31 28 = x := by
  rw [he, Carrier.cmd.injEq]
  constructor
  · rintro rfl
    exact ⟨formatR_opcode hop hx .., formatR_rd hop hx .., formatR_ra hop hx .., formatR_rb hop hx ..,
      formatR_rm hop hx .., formatR_bits_x hop hx ..⟩
  · rintro ⟨rfl, rfl, rfl, rfl, rfl, rfl⟩
    rw [fieldRd_val, fieldRa_val, fieldRb_val, fieldRm_val, formatR_of_fields]

theorem encode_formatL_iff (rd : Reg) (imm : BitVec 16) (he : encode i = .cmd (formatL op rd imm.toNat))
    (hop : op < 256 := by decide) :
    encode i = .cmd w ↔ bits w 7 0 = op ∧ fieldRd w = rd ∧ fieldImm w = imm ∧ bits w 15 13 = 0 := by
  rw [he, Carrier.cmd.injEq]
  constructor
  · rintro rfl
    exact formatL_fields hop rd imm
  · rintro ⟨rfl, rfl, rfl, h⟩
    rw [fieldRd_val, formatL_of_fields h]

theorem encode_formatH_iff (alg : BitVec 5) (olen : BitVec 7)
    (he : encode i = .cmd (formatH op alg.toNat olen.toNat)) (hop : op < 256 := by decide) :
    encode i = .cmd w ↔ bits w 7 0 = op ∧ fieldAlg w = alg ∧ fieldOlen w = olen ∧ bits w 31 20 = 0 := by
  rw [he, Carrier.cmd.injEq]
  constructor
  · rintro rfl
    obtain ⟨ho, ha, hl, hhigh, -⟩ := formatH_fields hop alg olen
    exact ⟨ho, ha, hl, hhigh⟩
  · rintro ⟨rfl, rfl, rfl, h⟩
    rw [fieldOlen_toNat, formatH_of_fields h]

theorem encode_formatN_iff (he : encode i = .cmd (formatN op)) (hop : op < 256 := by decide) :
    encode i = .cmd w ↔ bits w 7 0 = op ∧ bits w 31 8 = 0 := by
  rw [he, Carrier.cmd.injEq]
  constructor
  · rintro rfl
    exact formatN_fields hop
  · rintro ⟨rfl, h⟩
    exact formatN_of_fields h

end FieldEquations

/-- A command word decodes to an instruction exactly when it is the instruction's encoding. In each case the two sides
are the same equations of fields: a field the command does not use is reserved, and the encoder puts 0 there. -/
theorem decodeCmd_iff_encode (w : Word) (i : Instr) : decodeCmd w = .ok i ↔ encode i = .cmd w := by
  cases i
  case' nop => rw [decodeCmd_eq_ok_iff rfl decodeCmd_nop, encode_formatN_iff rfl]
  case' mov rd ra => rw [decodeCmd_eq_ok_iff rfl decodeCmd_mov, encode_formatR_iff rd ra 0 0 rfl]
  case' ldi rd imm => rw [decodeCmd_eq_ok_iff rfl decodeCmd_ldi, encode_formatL_iff rd imm rfl]
  case' cmp ra rb => rw [decodeCmd_eq_ok_iff rfl decodeCmd_cmp, encode_formatR_iff 0 ra rb 0 rfl]
  case' modadd rd ra rb rm => rw [decodeCmd_eq_ok_iff rfl decodeCmd_modadd, encode_formatR_iff rd ra rb rm rfl]
  case' modsub rd ra rb rm => rw [decodeCmd_eq_ok_iff rfl decodeCmd_modsub, encode_formatR_iff rd ra rb rm rfl]
  case' modred rd ra rm => rw [decodeCmd_eq_ok_iff rfl decodeCmd_modred, encode_formatR_iff rd ra 0 rm rfl]
  case' modmul rd ra rb rm => rw [decodeCmd_eq_ok_iff rfl decodeCmd_modmul, encode_formatR_iff rd ra rb rm rfl]
  case' montmul rd ra rb rm => rw [decodeCmd_eq_ok_iff rfl decodeCmd_montmul, encode_formatR_iff rd ra rb rm rfl]
  case' montrr rd rm => rw [decodeCmd_eq_ok_iff rfl decodeCmd_montrr, encode_formatR_iff rd 0 0 rm rfl]
  case' modinv rd ra rm => rw [decodeCmd_eq_ok_iff rfl decodeCmd_modinv, encode_formatR_iff rd ra 0 rm rfl]
  case' tojac rd ra => rw [decodeCmd_eq_ok_iff rfl decodeCmd_tojac, encode_formatR_iff rd ra 0 0 rfl]
  case' fromjac rd ra => rw [decodeCmd_eq_ok_iff rfl decodeCmd_fromjac, encode_formatR_iff rd ra 0 0 rfl]
  case' pdbl rd ra => rw [decodeCmd_eq_ok_iff rfl decodeCmd_pdbl, encode_formatR_iff rd ra 0 0 rfl]
  case' padd rd ra rb => rw [decodeCmd_eq_ok_iff rfl decodeCmd_padd, encode_formatR_iff rd ra rb 0 rfl]
  case' smul neg rd ra rb => rw [decodeCmd_eq_ok_iff rfl decodeCmd_smul, encode_formatR_iff rd ra rb 0 rfl
    (neg.toNat_lt.trans (by decide))]
  case' oncurve ra => rw [decodeCmd_eq_ok_iff rfl decodeCmd_oncurve, encode_formatR_iff 0 ra 0 0 rfl]
  case' isinf ra => rw [decodeCmd_eq_ok_iff rfl decodeCmd_isinf, encode_formatR_iff 0 ra 0 0 rfl]
  case' keygen => rw [decodeCmd_eq_ok_iff rfl decodeCmd_keygen, encode_formatN_iff rfl]
  case' qcheck => rw [decodeCmd_eq_ok_iff rfl decodeCmd_qcheck, encode_formatN_iff rfl]
  case' sign => rw [decodeCmd_eq_ok_iff rfl decodeCmd_sign, encode_formatN_iff rfl]
  case' verify => rw [decodeCmd_eq_ok_iff rfl decodeCmd_verify, encode_formatN_iff rfl]
  case' hinit alg olen => rw [decodeCmd_eq_ok_iff rfl decodeCmd_hinit, encode_formatH_iff alg olen rfl]
  case' hfinal => rw [decodeCmd_eq_ok_iff rfl decodeCmd_hfinal, encode_formatN_iff rfl]
  case' hmkey alg => rw [decodeCmd_eq_ok_iff rfl decodeCmd_hmkey, encode_formatH_iff alg 0 rfl]
  case' hmstart => rw [decodeCmd_eq_ok_iff rfl decodeCmd_hmstart, encode_formatN_iff rfl]
  case' hmfinal => rw [decodeCmd_eq_ok_iff rfl decodeCmd_hmfinal, encode_formatN_iff rfl]
  case hashDin v => exact iff_of_false (decodeCmd_ne_ok_of_bus rfl) Carrier.noConfusion
  case hashDinb b => exact iff_of_false (decodeCmd_ne_ok_of_bus rfl) Carrier.noConfusion
  case ctrlClockc => exact iff_of_false (decodeCmd_ne_ok_of_bus rfl) Carrier.noConfusion
  case ctrlSrst => exact iff_of_false (decodeCmd_ne_ok_of_bus rfl) Carrier.noConfusion
  -- what is left compares the two lists of equations, each without the opcode
  all_goals
    simp [fieldRd_eq_zero, fieldRa_eq_zero, fieldRb_eq_zero, fieldRm_eq_zero, fieldOlen_eq_zero, modifier_eq_neg,
      and_assoc, and_comm, and_left_comm]

/-! ## The four statements -/

/-- HASH_DINB takes the byte back from the low byte of the word written. -/
theorem lowByte_setWidth (b : Byte) : BitVec.ofNat 8 (bits (b.setWidth 32) 7 0) = b := by
  apply BitVec.eq_of_toNat_eq
  have := b.isLt
  simp only [bits, BitVec.toNat_ofNat, BitVec.toNat_setWidth]
  omega

theorem decodeWrite_of_encode {off : Nat} {v : Word} {i : Instr} (h : encode i = .write off v) :
    decodeWrite off v = .ok i := by
  cases i <;> cases h
  case hashDin => rfl
  case hashDinb b => exact congrArg (fun b : Byte => Except.ok (Instr.hashDinb b)) (lowByte_setWidth b)
  case ctrlClockc => rfl
  case ctrlSrst => rfl

/-- Settles O1: a command by decodeCmd_iff_encode, a bus row by its offset. -/
theorem decodeOfEncode : Obligations.DecodeOfEncode := by
  intro i
  cases he : encode i with
  | cmd w => exact (decodeCmd_iff_encode w i).2 he
  | write off v => exact decodeWrite_of_encode he

/-- Settles O2: the other direction of decodeCmd_iff_encode. -/
theorem encodeOfDecodedCommand : Obligations.EncodeOfDecodedCommand := fun w i =>
  (decodeCmd_iff_encode w i).1

/-- A word whose low byte is no opcode of the table encodes no command. -/
theorem encode_ne_of_undefined_opcode {w : Word} (h : bits w 7 0 ∉ opcodes) (i : Instr) : encode i ≠ .cmd w :=
  fun he => h (decodeCmd_opcode ((decodeCmd_iff_encode w i).2 he))

end Sys2Proof

namespace Sys2Proof.Machine

/-- The engine raises E_ILLEGAL for a latched word that encodes no command. -/
theorem engineStep_of_unencoded {s : State} {w : Word} (hp : s.pending = some w)
    (h : ∀ i : Instr, encode i ≠ .cmd w) : engineStep s = .next (raiseCmd (bits w 7 0) .illegal s) := by
  obtain ⟨t, ht⟩ := engineStep_next s
  obtain ⟨hnone, -⟩ | ⟨w', hw', ⟨i, hi, -⟩ | rfl⟩ := engineStep_cases ht
  · cases hp.symm.trans hnone
  · cases hp.symm.trans hw'
    exact absurd ((decodeCmd_iff_encode w i).1 hi) (h i)
  · cases hp.symm.trans hw'
    exact ht

/-- ERRCODE of an illegal command word: CODE 0x01, EOP the word's low byte, EOFF 0. -/
theorem errWord_illegal (n : Nat) :
    errWord .illegal (BitVec.ofNat 8 n) 0 = BitVec.ofNat 32 (0x01 + n % 256 * 2 ^ 8) := by
  apply BitVec.eq_of_toNat_eq
  rw [errWord_toNat, BitVec.toNat_ofNat, BitVec.toNat_ofNat]
  change 1 + n % 2 ^ 8 * 2 ^ 8 + 0 * 2 ^ 16 = _
  omega

theorem bits_low_byte (w : Word) : bits w 7 0 = w.toNat % 256 := by simp [bits]

/-- Settles O3: such a word does not decode, so the engine raises E_ILLEGAL; and a word that decodes has an opcode of
the table. -/
theorem unencodedWordIsIllegal : Obligations.UnencodedWordIsIllegal := by
  intro s w hp
  rw [← bits_low_byte]
  refine ⟨fun h => ?_, encode_ne_of_undefined_opcode⟩
  rw [engineStep_of_unencoded hp h, raiseCmd, raise, errWord_illegal, bits_low_byte, Nat.mod_mod]

/-- Settles O4: each word of the two rules is decoded. -/
theorem exampleWordsDecode : Obligations.ExampleWordsDecode := by
  unfold Obligations.ExampleWordsDecode
  decide

end Sys2Proof.Machine

/-! PROOFS. 40_support.md: the results of NOP, MOV, LDI and CMP. -/

namespace Sys2Proof.Machine

/-! ## Each support command completes with its rule's state, once its checks pass -/

theorem exec_nop (s : State) : exec .nop s = .next (complete s) := perform_ok (commonChecks_empty s)

theorem exec_mov {s : State} {rd : Reg} (ra : Reg) (hw : Writable s rd) :
    exec (.mov rd ra) s = .next (complete (writeResult rd (s.val ra) s)) := perform_ok (checks_dest hw)

theorem exec_ldi {s : State} {rd : Reg} (imm : BitVec 16) (hw : Writable s rd) :
    exec (.ldi rd imm) s = .next (complete (writeResult rd imm.toNat s)) := perform_ok (checks_dest hw)

theorem exec_cmp (s : State) (ra rb : Reg) :
    exec (.cmp ra rb) s = .next (complete (s.setCompare (s.val ra) (s.val rb))) :=
  perform_ok (commonChecks_empty s)

/-! ## The statements -/

/-- MOV writes back the register it read, because its value lies below 2^576 (ofNat_val). -/
theorem complete_writeResult_val (s : State) (rd ra : Reg) :
    complete (writeResult rd (s.val ra) s) = { s.setBig rd (s.big ra) with
      flags := { s.flags with zero := decide (s.val ra = 0) }, pending := none, done := true } := by
  rw [← ofNat_val s ra]
  rfl

/-- A 16-bit immediate fits in a big register, and ZERO, computed from its value, tells whether its bits are all 0. -/
theorem complete_writeResult_imm (s : State) (rd : Reg) (imm : BitVec 16) :
    complete (writeResult rd imm.toNat s) = { s.setBig rd (imm.setWidth 576) with
      flags := { s.flags with zero := decide (imm = 0) }, pending := none, done := true } := by
  have hzero : imm = 0 ↔ imm.toNat = 0 := BitVec.toNat_eq
  simp only [← BitVec.ofNat_toNat, hzero]
  rfl

/-- Settles O34: NOP passes the empty checks, MOV and LDI those of one writable destination, and each writes what its
rule does. -/
theorem supportCommands : Obligations.SupportCommands := by
  intro s rd ra imm
  refine ⟨exec_nop s, fun hw => ⟨?_, imm.setWidth 576, ?_, ?_⟩⟩
  · rw [exec_mov ra hw, complete_writeResult_val]
  · exact BitVec.toNat_setWidth_of_le (by decide)
  · rw [exec_ldi imm hw, complete_writeResult_imm]

/-- The order of the unsigned values is total, so exactly one of the three comparisons holds. -/
theorem compare_flags_sum (a b : Nat) :
    (decide (a = b)).toNat + (decide (a < b)).toNat + (decide (b < a)).toNat = 1 := by
  obtain h | rfl | h := Nat.lt_trichotomy a b
  · simp [h, h.ne, h.not_gt]
  · simp
  · simp [h, h.ne', h.not_gt]

/-- Settles O35: CMP has no destination, so its checks always pass, and its three flags are those of one compare. -/
theorem cmpWritesOneOfThreeFlags : Obligations.CmpWritesOneOfThreeFlags := by
  intro s ra rb
  exact ⟨_, _, _, exec_cmp s ra rb, decide_eq_true_iff, decide_eq_true_iff, decide_eq_true_iff,
    compare_flags_sum (s.val ra) (s.val rb)⟩

end Sys2Proof.Machine

/-! PROOFS. 41_montgomery.md: the results of MODMUL, MONTMUL and MONTRR, and the modulus errors of every modular
command. -/

namespace Sys2Proof.Machine

/-! ## The modular commands, once the destination is found writable -/

/-- The result of a modular command, as the big register that holds it: `modular_form` with its value named. -/
theorem modular_result (op : Nat) {s : State} {rd rm : Reg} {v : Nat} (hw : Writable s rd) (hm : s.val rm ≠ 0)
    (hv : v < s.val rm) : ∃ b : Big, b.toNat = v ∧
      perform op { dests := [rd] } s (modularRule rd rm v s) = .next { s.setBig rd b with
        flags := { s.flags with zero := decide (b = 0) }, pending := none, done := true } :=
  ⟨BitVec.ofNat 576 v, toNat_ofNat_big (hv.trans (val_lt s rm)), modular_form hw hm hv⟩

theorem modular_divZero {op : Nat} {s : State} {rd rm : Reg} {v : Nat} (hw : Writable s rd) (hm : s.val rm = 0) :
    perform op { dests := [rd] } s (modularRule rd rm v s) = .next (raiseCmd op .divZero s) := by
  rw [modularRule, if_pos hm, perform_error (checks_dest hw)]

/-- On an odd modulus, which is neither 0 nor even, MONTMUL follows the rule the other modular commands share. -/
theorem exec_montmul_odd {s : State} (rd ra rb : Reg) {rm : Reg} (hm : s.val rm % 2 = 1) :
    exec (.montmul rd ra rb rm) s = perform Opcode.montmul { dests := [rd] } s
      (modularRule rd rm (montgomery (2 ^ 576) (s.val ra) (s.val rb) (s.val rm)) s) := by
  have hne : ¬ s.val rm % 2 = 0 := by omega
  rw [exec, execMontmul, if_neg hne]
  rfl

theorem exec_montmul_divZero {s : State} {rd rm : Reg} (ra rb : Reg) (hw : Writable s rd) (hm : s.val rm = 0) :
    exec (.montmul rd ra rb rm) s = .next (raiseCmd Opcode.montmul .divZero s) := by
  rw [exec, execMontmul, if_pos hm, perform_error (checks_dest hw)]

theorem exec_montmul_evenMod {s : State} {rd rm : Reg} (ra rb : Reg) (hw : Writable s rd) (hm : s.val rm ≠ 0)
    (heven : s.val rm % 2 = 0) :
    exec (.montmul rd ra rb rm) s = .next (raiseCmd Opcode.montmul .evenMod s) := by
  rw [exec, execMontmul, if_neg hm, if_pos heven, perform_error (checks_dest hw)]

theorem exec_modinv_divZero {s : State} {rd rm : Reg} (ra : Reg) (hw : Writable s rd) (hm : s.val rm = 0) :
    exec (.modinv rd ra rm) s = .next (raiseCmd Opcode.modinv .divZero s) := by
  rw [exec, execModinv, if_pos hm, perform_error (checks_dest hw)]

/-! ## The radix 2^576 -/

/-- R², which MONTRR reduces. -/
theorem montR_mul_montR : Config.montR * Config.montR = 2 ^ 1152 := by rw [Config.montR, ← pow_add]

/-- Modulo an odd number a power of two can be cancelled, so two residues that agree after scaling by it are equal. -/
theorem eq_of_mul_two_pow_mod_eq {k m u v : Nat} (hm : m % 2 = 1) (hu : u < m) (hv : v < m)
    (h : u * 2 ^ k % m = v * 2 ^ k % m) : u = v := by
  have hcop : Nat.Coprime m (2 ^ k) := (Nat.coprime_two_right.2 (Nat.odd_iff.2 hm)).pow_right k
  exact (Nat.ModEq.cancel_right_of_coprime hcop h).eq_of_lt_of_lt hu hv

/-! ## The statements -/

/-- Settles O38: on an odd modulus MONTMUL follows the shared rule with the Montgomery product, whose congruence is
`montgomery_spec`; the radix 2^576 cancels, so no other residue satisfies it. -/
theorem montgomeryProductResult : Obligations.MontgomeryProductResult := by
  intro s rd ra rb rm hw hodd
  obtain ⟨hlt, hcong⟩ := montgomery_spec (k := 576) (a := s.val ra) (b := s.val rb) hodd
  obtain ⟨b, hb, hexec⟩ := modular_result Opcode.montmul hw (by omega) hlt
  rw [← exec_montmul_odd rd ra rb hodd] at hexec
  rw [← hb] at hlt hcong
  exact ⟨b, hlt, hcong, fun u hu h => eq_of_mul_two_pow_mod_eq hodd hu hlt (h.trans hcong.symm), hexec⟩

/-- Settles O18: five of the commands share one rule, MONTMUL and MODINV have their own, and each looks at the modulus
before it computes. -/
theorem modularModulusErrors : Obligations.ModularModulusErrors := fun _ _ ra rb _ hw =>
  ⟨fun hm => ⟨modular_divZero hw hm, modular_divZero hw hm, modular_divZero hw hm, modular_divZero hw hm,
      exec_montmul_divZero ra rb hw hm, modular_divZero hw hm, exec_modinv_divZero ra hw hm⟩,
    exec_montmul_evenMod ra rb hw⟩

/-- Settles O37: both commands follow the shared rule with a remainder, which lies below the modulus; the square of the
radix is 2^1152. -/
theorem modularMultiplierResults : Obligations.ModularMultiplierResults := by
  intro s rd ra rb rm hw hm
  have hpos : 0 < s.val rm := Nat.pos_of_ne_zero hm
  refine ⟨modular_result Opcode.modmul hw hm (Nat.mod_lt _ hpos), ?_⟩
  rw [← montR_mul_montR]
  exact modular_result Opcode.montrr hw hm (Nat.mod_lt _ hpos)

end Sys2Proof.Machine

/-! PROOFS. 42_modadd.md: the results of MODADD, MODSUB and MODRED. -/

namespace Sys2Proof.Machine

/-- Settles O36: each of the three follows the shared rule with a residue, which lies below the modulus; the residue of
MODSUB is the floored remainder of the signed difference (`imod_cast`). -/
theorem modularAdderResults : Obligations.ModularAdderResults := by
  intro s rd ra rb rm hw hm
  have hpos : 0 < s.val rm := Nat.pos_of_ne_zero hm
  refine ⟨modular_result Opcode.modadd hw hm (Nat.mod_lt _ hpos), ?_,
    modular_result Opcode.modred hw hm (Nat.mod_lt _ hpos)⟩
  obtain ⟨v, hv, hexec⟩ := modular_result Opcode.modsub hw hm (imod_lt (s.val ra - s.val rb) hpos)
  exact ⟨v, by rw [hv, imod_cast _ hpos], hexec⟩

end Sys2Proof.Machine

/-! PROOFS. 43_modinv.md: the inverse function and the result of MODINV. -/

namespace Sys2Proof.Machine

/-! ## The inverse function (43 R150) -/

/-- Modulo 1 every value is 0. -/
theorem one_lt_of_mod_ne_zero {x n : Nat} (hn : 0 < n) (h : x % n ≠ 0) : 1 < n := by
  have := Nat.mod_lt x hn
  omega

/-- In both cases where there is no inverse to return, the value is 0. -/
theorem inv_eq_zero_of_no_inverse {x n : Nat} (h : x % n = 0 ∨ Nat.gcd x n ≠ 1) : (inv x n).1 = 0 := by
  by_cases hx : x % n = 0
  · rw [inv_of_zero hx]
  · rw [inv_of_gcd hx ((Nat.mod_modEq x n).gcd_eq.trans_ne (h.resolve_left hx))]

/-- A value with an inverse can be cancelled, so two residues that multiply it to 1 are equal. -/
theorem eq_of_mul_mod_eq_one {x n u v : Nat} (hn : 1 < n) (hu : u < n) (hv : v < n) (hux : u * x % n = 1)
    (hvx : v * x % n = 1) : u = v := by
  have hcop : Nat.Coprime x n := Nat.coprime_of_mul_modEq_one v (by
    rw [Nat.ModEq, Nat.mul_comm, hvx, Nat.mod_eq_of_lt hn])
  exact (Nat.ModEq.cancel_right_of_coprime hcop.symm (hux.trans hvx.symm)).eq_of_lt_of_lt hu hv

/-- Settles O39: the first two cases by definition; a coprime value has the inverse that the Euclidean loop ends with,
which is not 0 because its product with the value is 1, and no other residue has that product. -/
theorem inverseFunction : Obligations.InverseFunction := by
  intro x n hn
  refine ⟨inv_of_zero, inv_of_gcd, fun h hg => ?_⟩
  have h1 : 1 < n := one_lt_of_mod_ne_zero hn h
  obtain ⟨v, hv, hlt, -⟩ := inv_of_coprime hn h hg
  have hmul : v * x % n = 1 := by simpa only [hv] using inv_mul_mod h1 ((Nat.mod_modEq x n).gcd_eq.symm.trans hg)
  have hpos : 1 ≤ v := Nat.one_le_iff_ne_zero.2 fun h0 => by simp [h0] at hmul
  exact ⟨v, hv, hpos, hlt, hmul, fun u _ hu hux => eq_of_mul_mod_eq_one h1 hu hlt hux hmul⟩

/-! ## MODINV (43 R151) -/

/-- One register, ZERO and NONINV: `complete_writeResult`, with the one more flag that MODINV writes. -/
theorem complete_setNoninv_writeResult {s : State} {rd : Reg} {v : Nat} (ni : Bool) (h : v < 2 ^ 576) :
    complete ((writeResult rd v s).setNoninv ni) = { s.setBig rd (BitVec.ofNat 576 v) with
      flags := { s.flags with zero := decide (BitVec.ofNat 576 v = 0), noninv := ni }
      pending := none, done := true } := by
  have hcomm : complete ((writeResult rd v s).setNoninv ni) = (complete (writeResult rd v s)).setNoninv ni := rfl
  rw [hcomm, complete_writeResult h]
  rfl

/-- On a modulus that is not 0 MODINV writes the value of `inv`, and NONINV tells whether it is missing. -/
theorem exec_modinv {s : State} {rd rm : Reg} (ra : Reg) (hw : Writable s rd) (hm : s.val rm ≠ 0) :
    ∃ b : Big, b.toNat = (inv (s.val ra) (s.val rm)).1 ∧
      exec (.modinv rd ra rm) s = .next { s.setBig rd b with
        flags := { s.flags with zero := decide (b = 0), noninv := (inv (s.val ra) (s.val rm)).2 }
        pending := none, done := true } := by
  have hlt : (inv (s.val ra) (s.val rm)).1 < 2 ^ 576 :=
    (inv_lt (s.val ra) (Nat.pos_of_ne_zero hm)).trans (val_lt s rm)
  refine ⟨_, toNat_ofNat_big hlt, ?_⟩
  rw [exec, execModinv, if_neg hm, perform_ok (checks_dest hw), complete_setNoninv_writeResult _ hlt]

/-- Settles O40: what `exec_modinv` writes is what the lemmas about `inv` say of its two parts. -/
theorem modinvResult : Obligations.ModinvResult := by
  intro s rd ra rm hw hm
  have hpos : 0 < s.val rm := Nat.pos_of_ne_zero hm
  obtain ⟨b, hb, hexec⟩ := exec_modinv ra hw hm
  refine ⟨b, _, hexec, inv_missing_iff _ hpos, fun h => ?_, fun h hg => ?_⟩
  · simp [BitVec.toNat_eq, hb, inv_eq_zero_of_no_inverse h]
  · rw [hb]
    exact ⟨inv_lt _ hpos, inv_mul_mod (one_lt_of_mod_ne_zero hpos h) hg⟩

end Sys2Proof.Machine

/-! PROOFS. 44_point.md: the results of TOJAC, ISINF, ONCURVE, FROMJAC, PDBL and PADD, and the laws of the point
functions. -/

namespace Sys2Proof.Machine

/-! ## What a point command that passes its checks leaves -/

/-- The result of a command that writes a pair, as the big registers that hold it: `complete_writeAff` with its values
named. -/
theorem pair_result (op : Nat) {s : State} {c : Checks} {rd rd1 : Reg} {q : Nat × Nat} (hc : commonChecks c s = none)
    (h1 : rd1.val = rd.val + 1) (hx : q.1 < 2 ^ 576) (hy : q.2 < 2 ^ 576) :
    ∃ x y : Big, x.toNat = q.1 ∧ y.toNat = q.2 ∧
      perform op c s (.ok (writeAff rd q s)) = .next { (s.setBig rd x).setBig rd1 y with
        flags := { s.flags with inf := decide (y = 0) }, pending := none, done := true } :=
  ⟨_, _, toNat_ofNat_big hx, toNat_ofNat_big hy, by rw [perform_ok hc, complete_writeAff h1 hy]⟩

/-- The result of a command that writes a triple, as the big registers that hold it: `complete_writePt` with its values
named. -/
theorem triple_result (op : Nat) {s : State} {c : Checks} {rd rd1 rd2 : Reg} {q : Jac}
    (hc : commonChecks c s = none) (h1 : rd1.val = rd.val + 1) (h2 : rd2.val = rd.val + 2) (hq : q.Below (2 ^ 576)) :
    ∃ x y z : Big, (⟨x.toNat, y.toNat, z.toNat⟩ : Jac) = q ∧
      perform op c s (.ok (writePt rd q s)) = .next { ((s.setBig rd x).setBig rd1 y).setBig rd2 z with
        flags := { s.flags with inf := decide (y = 0) }, pending := none, done := true } := by
  obtain ⟨hx, hy, hz⟩ := hq
  refine ⟨BitVec.ofNat 576 q.x, BitVec.ofNat 576 q.y, BitVec.ofNat 576 q.z, ?_, ?_⟩
  · rw [toNat_ofNat_big hx, toNat_ofNat_big hy, toNat_ofNat_big hz]
  · rw [perform_ok hc, complete_writePt h1 h2 hy]

/-- A triple of big registers is determined by the triple of their values. -/
theorem toNat_triple_inj {x y z x' y' z' : Big}
    (h : (⟨x.toNat, y.toNat, z.toNat⟩ : Jac) = ⟨x'.toNat, y'.toNat, z'.toNat⟩) : x = x' ∧ y = y' ∧ z = z' := by
  obtain ⟨hx, hy, hz⟩ := Jac.mk.inj h
  exact ⟨BitVec.eq_of_toNat_eq hx, BitVec.eq_of_toNat_eq hy, BitVec.eq_of_toNat_eq hz⟩

theorem toNat_triple_eq_inf {x y z : Big} (h : (⟨x.toNat, y.toNat, z.toNat⟩ : Jac) = Jac.inf) :
    x = 0 ∧ y = 0 ∧ z = 0 := by
  have hzero : Jac.inf = ⟨(0 : Big).toNat, (0 : Big).toNat, (0 : Big).toNat⟩ := by
    simp only [Jac.inf, BitVec.ofNat_eq_ofNat, BitVec.toNat_zero]
  exact toNat_triple_inj (h.trans hzero)

theorem groupsOk_intro {c : Checks} (hp : ∀ r ∈ c.pairs, r.val ≤ 30) (ht : ∀ r ∈ c.triples, r.val ≤ 29) :
    groupsOk c = true := (groupsOk_iff c).2 ⟨hp, ht⟩

/-- The checks of a command that writes no register. -/
theorem checks_no_dest {s : State} {c : Checks} (hg : groupsOk c = true) (hd : c.dests = [])
    (hc : c.curve = true → CurveReady s) (ho : c.order = true → s.val regN ≠ 0) : commonChecks c s = none :=
  (commonChecks_none_iff c s).2 ⟨hg, by simp [destLocked, hd], hc, ho⟩

/-! ## TOJAC, ISINF and ONCURVE (44 R162, R166, R167) -/

/-- TOJAC writes back the registers it read, because their values lie below 2^576 (ofNat_val). -/
theorem complete_writePt_tojac {s : State} {rd rd1 rd2 : Reg} (ra ra1 : Reg) (h1 : rd1.val = rd.val + 1)
    (h2 : rd2.val = rd.val + 2) :
    complete (writePt rd (tojac (s.val ra, s.val ra1)) s) =
      { ((s.setBig rd (s.big ra)).setBig rd1 (s.big ra1)).setBig rd2 1 with
        flags := { s.flags with inf := decide (s.val ra1 = 0) }, pending := none, done := true } := by
  rw [complete_writePt h1 h2 (q := tojac (s.val ra, s.val ra1)) (val_lt s ra1)]
  simp only [tojac, ofNat_val, val_eq_zero_iff]
  rfl

theorem exec_tojac {s : State} {rd rd1 rd2 ra ra1 : Reg} (ha1 : ra1.val = ra.val + 1) (h1 : rd1.val = rd.val + 1)
    (h2 : rd2.val = rd.val + 2) (hw : Writable s rd) :
    exec (.tojac rd ra) s = .next (complete (writePt rd (tojac (s.val ra, s.val ra1)) s)) := by
  rw [exec, execTojac, aff_eq s ha1]
  exact perform_ok (checks_group (groupsOk_intro (by simp; omega) (by simp; omega)) hw (tripleRegs_ge h1 h2)
    (by simp) (by simp))

theorem exec_isinf {s : State} {ra ra1 : Reg} (ha1 : ra1.val = ra.val + 1) :
    exec (.isinf ra) s = .next (complete (s.setInf (s.val ra1))) := by
  rw [exec, execIsinf, aff_eq s ha1]
  exact perform_ok (checks_no_dest (groupsOk_intro (by simp; omega) (by simp)) rfl (by simp) (by simp))

theorem exec_oncurve {s : State} {ra ra1 : Reg} (ha1 : ra1.val = ra.val + 1) (hc : CurveReady s) :
    exec (.oncurve ra) s = .next (complete (s.setOnc
      (oncurve (s.val regP) (s.val regA) (s.val regB) (s.val ra) (s.val ra1)))) := by
  rw [exec, execOncurve, aff_eq s ha1]
  exact perform_ok (checks_no_dest (groupsOk_intro (by simp; omega) (by simp)) rfl (fun _ => hc) (by simp))

/-- The range checks and the curve equation over the integers (44 R166). -/
theorem oncurve_iff {p : Nat} (hp : 0 < p) (a b x y : Nat) : oncurve p a b x y = true ↔
    x < p ∧ y < p ∧ ((y : Int) ^ 2 - ((x : Int) ^ 3 + a * x + b)) % (p : Int) = 0 := by
  have hcurve : (y : Int) * y - (x * x * x + a * x + b) = (y : Int) ^ 2 - ((x : Int) ^ 3 + a * x + b) := by ring
  have hzero : ∀ v : Int, imod v p = 0 ↔ v % (p : Int) = 0 := fun v => by rw [← imod_cast v hp, Int.natCast_eq_zero]
  unfold oncurve
  split
  · next hout =>
    simp only [Bool.or_eq_true, decide_eq_true_eq] at hout
    exact iff_of_false Bool.false_ne_true (by omega)
  · next hin =>
    simp only [Bool.or_eq_true, decide_eq_true_eq, not_or, not_le] at hin
    simp only [beq_iff_eq, hzero, hcurve, hin, true_and]

/-- Settles O41: each of the three commands passes its checks and completes with its rule's state; what ONCURVE
computes is `oncurve_iff`. -/
theorem liftAndPointTests : Obligations.LiftAndPointTests := by
  intro s rd rd1 rd2 ra ra1 ha1
  refine ⟨fun h1 h2 hw => ?_, exec_isinf ha1, fun hc => ?_⟩
  · rw [exec_tojac ha1 h1 h2 hw, complete_writePt_tojac ra ra1 h1 h2]
  · exact ⟨_, oncurve_iff (Nat.pos_of_ne_zero hc.2) .., exec_oncurve ha1 hc⟩

/-! ## FROMJAC (44 R163) -/

/-- Settles O42: the pair FROMJAC writes is `fromjac`, whose products are those powers of the inverse. -/
theorem fromjacResult : Obligations.FromjacResult := by
  intro s rd rd1 ra ra1 ra2 h1 ha1 ha2 hc hw zi
  have hpos : 0 < s.val regP := Nat.pos_of_ne_zero hc.2
  obtain ⟨hltx, hlty⟩ := fromjac_lt hpos (s.pt ra)
  have hchecks : commonChecks { pairs := [rd], triples := [ra], dests := pairRegs rd, curve := true } s = none :=
    checks_group (groupsOk_intro (by simp; omega) (by simp; omega)) hw (pairRegs_ge h1) (fun _ => hc) (by simp)
  obtain ⟨x, y, hx, hy, hexec⟩ := pair_result Opcode.fromjac hchecks h1 (hltx.trans (val_lt s regP))
    (hlty.trans (val_lt s regP))
  rw [pt_eq s ha1 ha2] at hx hy
  refine ⟨x, y, ?_, ?_, hexec⟩
  · rw [hx, fromjac, pow_two, ← Nat.mul_assoc]
  · rw [hy, fromjac, pow_succ, pow_two, ← Nat.mul_assoc, ← Nat.mul_assoc]

/-! ## PDBL (44 R164) -/

theorem jdbl_of_y_zero {p a : Nat} {q : Jac} (hy : q.y = 0) : jdbl p a q = Jac.inf := if_pos hy

/-- The doubling formulas over the integers. -/
theorem jdbl_formulas {p : Nat} (hp : 0 < p) (a : Nat) {x y z : Nat} (hy : y ≠ 0) :
    let ysq : Int := y * y % p
    let t : Int := 4 * x * ysq % p
    let m : Int := (3 * x * x + a * z ^ 4) % p
    let q := jdbl p a ⟨x, y, z⟩
    (q.x : Int) = (m * m - 2 * t) % p ∧ (q.y : Int) = (m * (t - q.x) - 8 * ysq * ysq) % p ∧
      (q.z : Int) = 2 * y * z % p := by
  simp only [jdbl, if_neg hy, imod_cast _ hp]
  push_cast
  exact ⟨rfl, rfl, rfl⟩

/-- Settles O43: the triple PDBL writes is `jdbl`, which is infinity or what `jdbl_formulas` says. -/
theorem pdblResult : Obligations.PdblResult := by
  intro s rd rd1 rd2 ra ra1 ra2 h1 h2 ha1 ha2 hc hw p x y z ysq t m
  have hpos : 0 < s.val regP := Nat.pos_of_ne_zero hc.2
  have hchecks : commonChecks { triples := [rd, ra], dests := tripleRegs rd, curve := true } s = none :=
    checks_group (groupsOk_intro (by simp) (by simp; omega)) hw (tripleRegs_ge h1 h2) (fun _ => hc) (by simp)
  obtain ⟨x3, y3, z3, hq, hexec⟩ := triple_result Opcode.pdbl hchecks h1 h2
    (jdbl_below hpos (val_lt s regP).le (s.val regA) (s.pt ra))
  rw [pt_eq s ha1 ha2] at hq
  refine ⟨x3, y3, z3, hexec, fun hy => ?_, fun hy => ?_⟩
  · exact toNat_triple_eq_inf (hq.trans (jdbl_of_y_zero (Int.natCast_eq_zero.1 hy)))
  · have hformulas := jdbl_formulas hpos (s.val regA) (x := s.val ra) (z := s.val ra2) (Int.natCast_ne_zero.1 hy)
    rw [← hq] at hformulas
    exact hformulas

/-! ## PADD (44 R165) -/

theorem jadd_inf_left {p a : Nat} {q1 : Jac} (q2 : Jac) (h1 : q1.y = 0) : jadd p a q1 q2 = q2 := if_pos h1

theorem jadd_inf_right {p a : Nat} {q1 q2 : Jac} (h1 : q1.y ≠ 0) (h2 : q2.y = 0) : jadd p a q1 q2 = q1 := by
  rw [jadd, if_neg h1, if_pos h2]

section Finite
/-! Two operands that are not at infinity, by the values of R165: U of each, then S of each. -/

variable {p x1 y1 z1 x2 y2 z2 : Nat} (hy1 : y1 ≠ 0) (hy2 : y2 ≠ 0) (a : Nat)
include hy1 hy2

theorem jadd_same (hu : (x1 * z2 * z2 % p : Int) = x2 * z1 * z1 % p)
    (hs : (y1 * z2 * z2 * z2 % p : Int) = y2 * z1 * z1 * z1 % p) :
    jadd p a ⟨x1, y1, z1⟩ ⟨x2, y2, z2⟩ = jdbl p a ⟨x1, y1, z1⟩ := by
  norm_cast at hu hs
  simp only [jadd, if_neg hy1, if_neg hy2, if_pos hu, if_pos hs]

theorem jadd_opposite (hu : (x1 * z2 * z2 % p : Int) = x2 * z1 * z1 % p)
    (hs : (y1 * z2 * z2 * z2 % p : Int) ≠ y2 * z1 * z1 * z1 % p) :
    jadd p a ⟨x1, y1, z1⟩ ⟨x2, y2, z2⟩ = Jac.inf := by
  norm_cast at hu hs
  simp only [jadd, if_neg hy1, if_neg hy2, if_pos hu, if_neg hs]

/-- The addition formulas over the integers. -/
theorem jadd_formulas (hp : 0 < p) (hu : (x1 * z2 * z2 % p : Int) ≠ x2 * z1 * z1 % p) :
    let u1 : Int := x1 * z2 * z2 % p
    let u2 : Int := x2 * z1 * z1 % p
    let s1 : Int := y1 * z2 * z2 * z2 % p
    let s2 : Int := y2 * z1 * z1 * z1 % p
    let h2 := (u2 - u1) * (u2 - u1) % p
    let h3 := (u2 - u1) * h2 % p
    let u1h2 := u1 * h2 % p
    let q := jadd p a ⟨x1, y1, z1⟩ ⟨x2, y2, z2⟩
    (q.x : Int) = ((s2 - s1) * (s2 - s1) - h3 - 2 * u1h2) % p ∧
      (q.y : Int) = ((s2 - s1) * (u1h2 - q.x) - s1 * h3) % p ∧ (q.z : Int) = (u2 - u1) * z1 * z2 % p := by
  norm_cast at hu
  simp only [jadd, if_neg hy1, if_neg hy2, if_neg hu, imod_cast _ hp]
  push_cast [imod_cast _ hp]
  exact ⟨rfl, rfl, rfl⟩

end Finite

/-- Settles O44: the triple PADD writes is `jadd`, one lemma for each of its five cases. -/
theorem paddResult : Obligations.PaddResult := by
  intro s rd rd1 rd2 ra ra1 ra2 rb rb1 rb2 h1 h2 ha1 ha2 hb1 hb2 hc hw p x1 y1 z1 x2 y2 z2 u1 u2 s1 s2 hh2 hh3 u1h2
  have hpos : 0 < s.val regP := Nat.pos_of_ne_zero hc.2
  have hchecks : commonChecks { triples := [rd, ra, rb], dests := tripleRegs rd, curve := true } s = none :=
    checks_group (groupsOk_intro (by simp) (by simp; omega)) hw (tripleRegs_ge h1 h2) (fun _ => hc) (by simp)
  obtain ⟨x3, y3, z3, hq, hexec⟩ := triple_result Opcode.padd hchecks h1 h2
    (jadd_below hpos (val_lt s regP).le (s.val regA) (pt_below s ra) (pt_below s rb))
  rw [pt_eq s ha1 ha2, pt_eq s hb1 hb2] at hq
  refine ⟨x3, y3, z3, hexec, fun hy1 => ?_, fun hy1 hy2 => ?_, fun hy1 hy2 hu hs => ?_, fun hy1 hy2 hu hs => ?_,
    fun hy1 hy2 hu => ?_⟩
  · exact toNat_triple_inj (hq.trans (jadd_inf_left _ (Int.natCast_eq_zero.1 hy1)))
  · exact toNat_triple_inj (hq.trans (jadd_inf_right (Int.natCast_ne_zero.1 hy1) (Int.natCast_eq_zero.1 hy2)))
  · exact toNat_triple_eq_inf
      (hq.trans (jadd_opposite (Int.natCast_ne_zero.1 hy1) (Int.natCast_ne_zero.1 hy2) _ hu hs))
  · exact hq.trans (jadd_same (Int.natCast_ne_zero.1 hy1) (Int.natCast_ne_zero.1 hy2) _ hu hs)
  · have hformulas := jadd_formulas (Int.natCast_ne_zero.1 hy1) (Int.natCast_ne_zero.1 hy2) (s.val regA) hpos hu
    rw [← hq] at hformulas
    exact hformulas

/-! ## Laws of the point functions (44 R168, 45 R183) -/

/-- The inverse of 1 is 1, but for the modulus 1, where it is 0; there every residue is 0 as well. -/
theorem mul_inv_one_mod (x : Nat) {p : Nat} (hp : 0 < p) : x * (inv 1 p).1 % p = x % p := by
  obtain rfl | h1 : p = 1 ∨ 1 < p := by omega
  · rw [Nat.mod_one, Nat.mod_one]
  · have hinv := inv_mul_mod h1 (Nat.gcd_one_left p)
    rw [Nat.mul_one] at hinv
    rw [Nat.mul_mod, hinv, Nat.mul_one, Nat.mod_mod]

theorem fromjac_tojac {p : Nat} (hp : 0 < p) (x y : Nat) : fromjac p (tojac (x, y)) = (x % p, y % p) := by
  simp only [fromjac, tojac, mul_inv_one_mod _ hp]

theorem jadd_self {p a : Nat} {q : Jac} (hy : q.y ≠ 0) : jadd p a q q = jdbl p a q := jadd_same hy hy a rfl rfl

theorem ladder_zero (p a : Nat) (q : Jac) (fuel : Nat) : ladder p a q (fuel + 1) 0 = Jac.inf := if_pos rfl

theorem ladder_one (p a : Nat) (q : Jac) (fuel : Nat) : ladder p a q (fuel + 1) 1 = q := by simp [ladder]

/-- Away from infinity every scalar takes the halving steps on its residue; only the scalar 1 is answered before it is
reduced, which shows for the order 1 alone. -/
theorem mul_eq_ladder {p a n : Nat} {q : Jac} {k : Int} (hn : 0 < n) (hy : q.y ≠ 0) (hk : n ≠ 1 ∨ k ≠ 1) :
    mul p a n q k = ladder p a q (bitlen (imod k n) + 1) (imod k n) := by
  unfold mul
  split
  · next h0 =>
    obtain rfl := h0.resolve_right hy
    simp [imod, ladder_zero]
  · split
    · next h1 =>
      subst h1
      have hres : imod 1 n = 1 := by
        rw [imod, Int.emod_eq_of_lt (by omega) (by omega)]
        rfl
      rw [hres, ladder_one]
    · have hres : (if k < 0 ∨ (n : Int) ≤ k then imod k n else k.toNat) = imod k n := by
        split
        · rfl
        · next hin => rw [imod, Int.emod_eq_of_lt (by omega) (by omega)]
      simp only [hres]

theorem mul_emod {p a n : Nat} {q : Jac} {k : Int} (hn : 0 < n) (hk : n ≠ 1 ∨ k ≠ 1) :
    mul p a n q k = mul p a n q (k % n) := by
  by_cases hy : q.y = 0
  · simp [mul, hy]
  · have hk' : n ≠ 1 ∨ k % n ≠ 1 := by
      by_cases h1 : n = 1
      · simp [h1]
      · exact .inl h1
    have hres : imod (k % n) n = imod k n := by rw [imod, Int.emod_emod, imod]
    rw [mul_eq_ladder hn hy hk, mul_eq_ladder hn hy hk', hres]

/-- Settles O47: the inverse of Z = 1 changes no residue, the two sums with INF and the sum with itself are cases of
`jadd`, and `mul` sees no more of a scalar than its residue. -/
theorem pointLaws : Obligations.PointLaws := by
  intro p a n q x y k hp hn
  exact ⟨fromjac_tojac hp x y, jadd_inf_left q rfl, fun hy => ⟨jadd_inf_right hy rfl, jadd_self hy⟩, mul_emod hn⟩

end Sys2Proof.Machine

/-! PROOFS. 45_scalar.md: the result of SMUL, and the left-to-right loop as a second reading of mul. -/

namespace Sys2Proof.Machine

/-! ## SMUL (45 R180) -/

/-- Settles O45: the triple SMUL writes is `mul` of the scalar, whose coordinates fit the registers by `mul_below`. -/
theorem smulResult : Obligations.SmulResult := by
  intro s neg rd rd1 rd2 ra ra1 ra2 rb h1 h2 ha1 ha2 ⟨hc, hn⟩ hw k q
  have hpos : 0 < s.val regP := Nat.pos_of_ne_zero hc.2
  have hchecks : commonChecks { triples := [rd, ra], dests := tripleRegs rd, curve := true, order := true } s = none :=
    checks_group (groupsOk_intro (by simp) (by simp; omega)) hw (tripleRegs_ge h1 h2) (fun _ => hc) (fun _ => hn)
  obtain ⟨x, y, z, hq, hexec⟩ := triple_result Opcode.smul hchecks h1 h2
    (mul_below hpos (val_lt s regP).le (s.val regA) (s.val regN) (pt_below s ra) (smulScalar neg (s.val rb)))
  rw [pt_eq s ha1 ha2] at hq
  obtain ⟨hx, hy, hz⟩ := Jac.mk.inj hq
  exact ⟨x, y, z, hx, hy, hz, hexec⟩

/-! ## The left-to-right loop (45 R181) -/

/-- One pass of the loop on the scalar k: the pass of bit i. -/
def loopPass (p a : Nat) (q : Jac) (k : Nat) (t : Jac) (i : Nat) : Jac :=
  if k.testBit i then jadd p a (jdbl p a t) q else jdbl p a t

/-- The passes of the bits m - 1 down to 0. -/
def bitLoop (p a : Nat) (q : Jac) (k m : Nat) : Jac := (List.range m).reverse.foldl (loopPass p a q k) q

theorem bitLoop_zero (p a : Nat) (q : Jac) (k : Nat) : bitLoop p a q k 0 = q := rfl

/-- The last pass is that of bit 0; those before it are the loop on the scalar halved. -/
theorem bitLoop_succ (p a : Nat) (q : Jac) (k m : Nat) :
    bitLoop p a q k (m + 1) = loopPass p a q k (bitLoop p a q (k / 2) m) 0 := by
  have hhalf : ∀ t i, loopPass p a q k t (i + 1) = loopPass p a q (k / 2) t i := fun t i => by
    rw [loopPass, Nat.testBit_succ, loopPass]
  simp only [bitLoop, List.range_succ_eq_map, List.reverse_cons, ← List.map_reverse, List.foldl_append,
    List.foldl_map, Nat.succ_eq_add_one, hhalf, List.foldl_cons, List.foldl_nil]

/-- A halving step does what the pass of bit 0 does. -/
theorem ladder_of_two_le (p a : Nat) (q : Jac) (fuel : Nat) {k : Nat} (hk : 2 ≤ k) :
    ladder p a q (fuel + 1) k = loopPass p a q k (ladder p a q fuel (k / 2)) 0 := by
  rw [ladder, if_neg (by omega), if_neg (by omega), loopPass, Nat.testBit_zero]
  obtain hbit | hbit := Nat.mod_two_eq_zero_or_one k <;> simp [hbit]

/-- The recursion on a scalar whose leading 1 is bit m makes the loop's passes below that bit, in the loop's order. -/
theorem ladder_eq_bitLoop (p a : Nat) (q : Jac) : ∀ m k, 2 ^ m ≤ k → k < 2 ^ (m + 1) →
    ladder p a q (m + 2) k = bitLoop p a q k m
  | 0, k, hlo, hhi => by
    obtain rfl : k = 1 := by omega
    rw [ladder_one, bitLoop_zero]
  | m + 1, k, hlo, hhi => by
    have hpos : 0 < 2 ^ m := Nat.two_pow_pos m
    rw [pow_succ] at hlo hhi
    rw [ladder_of_two_le p a q _ (by omega), bitLoop_succ, ladder_eq_bitLoop p a q m (k / 2) (by omega) (by omega)]

/-- The recursion, with the fuel that mul gives it, is the loop below the leading 1 of a scalar that is not 0. -/
theorem ladder_bitlen_eq_bitLoop (p a : Nat) (q : Jac) {k : Nat} (hk : 0 < k) :
    ladder p a q (bitlen k + 1) k = bitLoop p a q k (Nat.size k - 1) := by
  obtain ⟨m, hm⟩ : ∃ m, Nat.size k = m + 1 := Nat.exists_eq_succ_of_ne_zero (Nat.size_pos.2 hk).ne'
  have hlo : 2 ^ m ≤ k := Nat.lt_size.1 (by omega)
  have hhi : k < 2 ^ (m + 1) := Nat.size_le.1 hm.le
  rw [bitlen_eq_size, hm, ladder_eq_bitLoop p a q m k hlo hhi, Nat.add_sub_cancel]

/-- The loop of R181 with its two early answers, on a scalar already reduced. -/
theorem ladder_bitlen_eq (p a : Nat) (q : Jac) (k : Nat) : ladder p a q (bitlen k + 1) k =
    if k = 0 then Jac.inf else if k = 1 then q else bitLoop p a q k (Nat.size k - 1) := by
  split
  · next h0 => rw [h0, ladder_zero]
  · next h0 =>
    split
    · next h1 => rw [h1, ladder_one]
    · exact ladder_bitlen_eq_bitLoop p a q (Nat.pos_of_ne_zero h0)

/-- Settles O46: both readings answer 0, infinity and 1 alike and reduce the scalar alike, and on the reduced scalar the
recursion makes the loop's passes. -/
theorem scalarMultiplicationLoop : Obligations.ScalarMultiplicationLoop := by
  intro p a n q k _
  simp only [mul, ladder_bitlen_eq]
  rfl

end Sys2Proof.Machine

/-! PROOFS. 46_ecdsa.md: the hash integer, the own checks of KEYGEN, QCHECK, SIGN and VERIFY, and their results. -/

namespace Sys2Proof.Machine

/-! ## The hash integer (46 R192) -/

/-- The bytes of a big-endian integer, the last first, are its digits to the base 256. -/
theorem beInt_eq_ofDigits (bs : List Byte) : beInt bs = Nat.ofDigits 256 (bs.reverse.map BitVec.toNat) := by
  rw [Nat.ofDigits_eq_foldr, List.foldr_map, List.foldr_reverse, beInt]
  simp only [Nat.cast_id, Nat.add_comm, Nat.mul_comm]

theorem beInt_lt (bs : List Byte) : beInt bs < 256 ^ bs.length := by
  have hdigit : ∀ d ∈ bs.reverse.map BitVec.toNat, d < 256 := by
    intro d hd
    obtain ⟨b, -, rfl⟩ := List.mem_map.1 hd
    exact b.isLt
  simpa only [beInt_eq_ofDigits, List.length_map, List.length_reverse] using
    Nat.ofDigits_lt_base_pow_length (by decide) hdigit

theorem bytelen_le {v : Nat} (h : v < 2 ^ 576) : bytelen v ≤ 72 := by
  have hsize : Nat.size v ≤ 576 := by rwa [Nat.size_le]
  rw [bytelen, bitlen_eq_size]
  omega

theorem hashInt_eq (s : State) : s.hashInt = Nat.ofDigits 256
    ((s.digest.toList.take (min s.dlen.toNat ((Nat.size (s.val regN) + 7) / 8))).reverse.map BitVec.toNat) := by
  rw [State.hashInt, beInt_eq_ofDigits, bytelen, bitlen_eq_size]

/-- No more bytes are taken than N has, so the integer fits a register as N does. -/
theorem hashInt_lt (s : State) : s.hashInt < 2 ^ 576 := by
  have hlen : (s.digest.toList.take (min s.dlen.toNat (bytelen (s.val regN)))).length ≤ 72 :=
    (List.length_take_le _ _).trans ((Nat.min_le_right _ _).trans (bytelen_le (val_lt s regN)))
  calc s.hashInt < 256 ^ _ := beInt_lt _
    _ ≤ 256 ^ 72 := Nat.pow_le_pow_right (by decide) hlen
    _ = 2 ^ 576 := (Nat.pow_mul 2 8 72).symm

/-! ## The own checks (46 R190 to R196) -/

theorem not_inRange_iff {n v : Nat} : (!inRange n v) = true ↔ ¬ (1 ≤ v ∧ v ≤ n - 1) := by
  rw [Bool.not_eq_true', ← Bool.not_eq_true, inRange, Bool.and_eq_true, decide_eq_true_iff, decide_eq_true_iff]

theorem not_pubOnCurve_iff {s : State} (hc : CurveReady s) :
    (!s.pubOnCurve) = true ↔ ¬ OnCurve s (s.val regQX) (s.val regQY) := by
  rw [Bool.not_eq_true', ← Bool.not_eq_true]
  exact not_congr (oncurve_iff (Nat.pos_of_ne_zero hc.2) ..)

theorem qcheck_bad_iff {s : State} (hc : CurveReady s) : (s.val regQY == 0 || !s.pubOnCurve) = true ↔
    s.val regQY = 0 ∨ ¬ OnCurve s (s.val regQX) (s.val regQY) := by
  rw [Bool.or_eq_true, beq_iff_eq, not_pubOnCurve_iff hc]

theorem not_digestReady_iff {s : State} : (!s.digestReady) = true ↔ ¬ (s.hstate = .done ∧ s.dkind = .hash) := by
  rw [Bool.not_eq_true', ← Bool.not_eq_true, State.digestReady, Bool.and_eq_true, beq_iff_eq, beq_iff_eq]

/-- The common checks of KEYGEN, SIGN and VERIFY: none of their destinations is a protected register. -/
theorem checks_order {s : State} {dests : List Reg} (ho : OrderReady s) (hd : ∀ r ∈ dests, 7 ≤ r.val) :
    commonChecks { dests := dests, curve := true, order := true } s = none :=
  checks_group (rd := regD) rfl (fun _ => le_rfl) hd (fun _ => ho.1) fun _ => ho.2

/-- The common checks of QCHECK. -/
theorem checks_curve {s : State} (hc : CurveReady s) : commonChecks { curve := true } s = none :=
  checks_no_dest rfl rfl (fun _ => hc) (by simp)

/-- Settles O19: in each clause the checks before the one that fails pass, and that one answers its error. -/
theorem ecdsaOwnErrors : Obligations.EcdsaOwnErrors := by
  intro s hc d k n onCurve digest
  refine ⟨fun ht => ?_, fun ht hq => ?_, fun hn => ?_⟩
  · rw [exec, execQcheck, if_pos ht]
    exact perform_error (checks_curve hc)
  · rw [exec, execQcheck, if_neg (not_not_intro ht), if_pos ((qcheck_bad_iff hc).2 hq)]
    exact perform_error (checks_curve hc)
  have ho : OrderReady s := ⟨hc, hn.ne'⟩
  have hkeygen := checks_order ho (dests := [regQX, regQY]) (by decide)
  have hsign := checks_order ho (dests := [regE, regSR, regSS]) (by decide)
  have hverify := checks_order ho (dests := [regE]) (by decide)
  refine ⟨fun ht => ⟨?_, ?_⟩, fun ht hd => ⟨?_, ?_⟩, fun ht hd hk => ?_, fun ht hd hk hdig => ?_, fun ht => ?_,
    fun ht hq => ?_, fun ht hq hdig => ?_⟩
  · rw [exec, execKeygen, if_pos ht]
    exact perform_error hkeygen
  · rw [exec, execSign, if_pos ht]
    exact perform_error hsign
  · rw [exec, execKeygen, if_neg (not_not_intro ht), if_pos (not_inRange_iff.2 hd)]
    exact perform_error hkeygen
  · rw [exec, execSign, if_neg (not_not_intro ht), if_pos (not_inRange_iff.2 hd)]
    exact perform_error hsign
  · rw [exec, execSign, if_neg (not_not_intro ht), if_neg (not_inRange_iff.not_left.2 hd),
      if_pos (not_inRange_iff.2 hk)]
    exact perform_error hsign
  · rw [exec, execSign, if_neg (not_not_intro ht), if_neg (not_inRange_iff.not_left.2 hd),
      if_neg (not_inRange_iff.not_left.2 hk), if_pos (not_digestReady_iff.2 hdig)]
    exact perform_error hsign
  · rw [exec, execVerify, if_pos ht]
    exact perform_error hverify
  · rw [exec, execVerify, if_neg (not_not_intro ht), if_pos ((not_pubOnCurve_iff hc).2 hq)]
    exact perform_error hverify
  · rw [exec, execVerify, if_neg (not_not_intro ht), if_neg ((not_pubOnCurve_iff hc).not_left.2 hq),
      if_pos (not_digestReady_iff.2 hdig)]
    exact perform_error hverify

/-! ## KEYGEN and QCHECK (46 R193, R194) -/

theorem mulG_lt {s : State} (hc : CurveReady s) (k : Nat) :
    (s.mulG k).1 < 2 ^ 576 ∧ (s.mulG k).2 < 2 ^ 576 := by
  obtain ⟨hx, hy⟩ := fromjac_lt (Nat.pos_of_ne_zero hc.2) (s.mulPt s.basePt k)
  exact ⟨hx.trans (val_lt s regP), hy.trans (val_lt s regP)⟩

/-- KEYGEN leaves a pair and INF as FROMJAC does, and the tag. -/
theorem complete_setPublic {s : State} {q : Nat × Nat} (tag : Byte) (hy : q.2 < 2 ^ 576) :
    complete (setPublic q tag s) =
      { (s.setBig regQX (BitVec.ofNat 576 q.1)).setBig regQY (BitVec.ofNat 576 q.2) with
        qtag := tag, flags := { s.flags with inf := decide (BitVec.ofNat 576 q.2 = 0) }
        pending := none, done := true } := by
  have htag : complete (setPublic q tag s) = { complete (writeAff regQX q s) with qtag := tag } := rfl
  rw [htag, complete_writeAff (rd1 := regQY) rfl hy]

/-- Settles O48: both commands pass their checks, and KEYGEN's pair is `mulG`, whose coordinates fit the registers. -/
theorem keyCommands : Obligations.KeyCommands := by
  intro s
  constructor
  · intro ho ht hd1 hdn q
    obtain ⟨hx, hy⟩ := mulG_lt ho.1 (s.val regD)
    refine ⟨_, _, toNat_ofNat_big hx, toNat_ofNat_big hy, ?_⟩
    rw [exec, execKeygen, if_neg (not_not_intro ht), if_neg (not_inRange_iff.not_left.2 ⟨hd1, hdn⟩),
      perform_ok (checks_order ho (by decide)), complete_setPublic _ hy]
    rfl
  · intro hc ht hy hq
    rw [exec, execQcheck, if_neg (not_not_intro ht),
      if_neg ((qcheck_bad_iff hc).not.2 (not_or.2 ⟨hy, not_not_intro hq⟩))]
    exact perform_ok (checks_curve hc)

/-! ## SIGN (46 R195) -/

/-- A product with the inverse of k, multiplied by k again. -/
theorem inv_mul_mul_mod {k n : Nat} (hn : 1 < n) (hk : Nat.gcd k n = 1) (m : Nat) :
    (inv k n).1 * m % n * k % n = m % n := by
  have hinv : (inv k n).1 * k ≡ 1 [MOD n] := (inv_mul_mod hn hk).trans (Nat.mod_eq_of_lt hn).symm
  calc (inv k n).1 * m % n * k % n = (inv k n).1 * k * m % n := by rw [Nat.mod_mul_mod, Nat.mul_right_comm]
    _ = 1 * m % n := hinv.mul_right m
    _ = m % n := by rw [Nat.one_mul]

theorem signature_lt {s : State} (ho : OrderReady s) (d k e : Nat) :
    (s.signature d k e).1 < 2 ^ 576 ∧ (s.signature d k e).2 < 2 ^ 576 :=
  have hlt (v : Nat) : v % s.val regN < 2 ^ 576 := (Nat.mod_lt v (Nat.pos_of_ne_zero ho.2)).trans (val_lt s regN)
  ⟨hlt _, hlt _⟩

/-- SIGN that passes its checks: the hash integer and the signature fit the registers, so DEGEN can be read off them. -/
theorem exec_sign {s : State} (ho : OrderReady s) (htag : s.dtag = s.curveId)
    (hd : 1 ≤ s.val regD ∧ s.val regD ≤ s.val regN - 1) (hk : 1 ≤ s.val regK ∧ s.val regK ≤ s.val regN - 1)
    (hdig : s.hstate = .done ∧ s.dkind = .hash) :
    ∃ e r t : Big, e.toNat = s.hashInt ∧ (r.toNat, t.toNat) = s.signature (s.val regD) (s.val regK) e.toNat ∧
      exec .sign s = .next { ((s.setBig regE e).setBig regSR r).setBig regSS t with
        flags := { s.flags with degen := decide (r = 0 ∨ t = 0) }, pending := none, done := true } := by
  have he := toNat_ofNat_big (hashInt_lt s)
  obtain ⟨hr, ht⟩ := signature_lt ho (s.val regD) (s.val regK) s.hashInt
  refine ⟨BitVec.ofNat 576 s.hashInt, BitVec.ofNat 576 (s.signature (s.val regD) (s.val regK) s.hashInt).1,
    BitVec.ofNat 576 (s.signature (s.val regD) (s.val regK) s.hashInt).2, he, ?_, ?_⟩
  · rw [toNat_ofNat_big hr, toNat_ofNat_big ht, he]
  · rw [exec, execSign, if_neg (not_not_intro htag), if_neg (not_inRange_iff.not_left.2 hd),
      if_neg (not_inRange_iff.not_left.2 hk), if_neg (not_digestReady_iff.not_left.2 hdig),
      perform_ok (checks_order ho (by decide))]
    simp only [ofNat_eq_zero_iff hr, ofNat_eq_zero_iff ht]
    rfl

/-- Settles O49: SIGN writes the two parts of `signature`, and the second times K is `inv_mul_mul_mod`. -/
theorem signResult : Obligations.SignResult := by
  intro s ho htag hd1 hdn hk1 hkn hh hkind n l g
  obtain ⟨e, r, t, he, hsig, hexec⟩ := exec_sign ho htag ⟨hd1, hdn⟩ ⟨hk1, hkn⟩ ⟨hh, hkind⟩
  obtain ⟨hr, ht⟩ : r.toNat = g.1 % n ∧
      t.toNat = (inv (s.val regK) n).1 * (e.toNat + g.1 % n * s.val regD) % n := Prod.mk.inj hsig
  rw [← hr] at ht
  refine ⟨e, r, t, he.trans (hashInt_eq s), hr, ht, fun hg => ?_, hexec⟩
  rw [ht]
  exact inv_mul_mul_mod (by omega) hg _

/-! ## VERIFY (46 R196) -/

theorem exec_verify {s : State} (ho : OrderReady s) (ht : s.qtag = s.curveId)
    (hq : OnCurve s (s.val regQX) (s.val regQY)) (hdig : s.hstate = .done ∧ s.dkind = .hash) :
    exec .verify s = .next (complete ((s.setVal regE s.hashInt).setValid (s.signatureValid s.hashInt))) := by
  rw [exec, execVerify, if_neg (not_not_intro ht), if_neg ((not_pubOnCurve_iff ho.1).not_left.2 hq),
    if_neg (not_digestReady_iff.not_left.2 hdig)]
  exact perform_ok (checks_order ho (by decide))

theorem signatureValid_iff (s : State) (e : Nat) :
    let n := s.val regN
    let r := s.val regSR
    let t := s.val regSS
    let w := (inv t n).1
    let v := fromjac (s.val regP)
      (jadd (s.val regP) (s.val regA) (s.mulPt s.basePt (e * w % n)) (s.mulPt s.pubPt (r * w % n)))
    s.signatureValid e = true ↔ (1 ≤ r ∧ r ≤ n - 1) ∧ (1 ≤ t ∧ t ≤ n - 1) ∧ v.2 ≠ 0 ∧ v.1 % n = r := by
  intro n r t w v
  rw [State.signatureValid]
  dsimp only
  split
  · next hout =>
    rw [Bool.or_eq_true, not_inRange_iff, not_inRange_iff] at hout
    exact iff_of_false Bool.false_ne_true fun ⟨hr, ht, _⟩ => hout.elim (· hr) (· ht)
  · next hin =>
    rw [Bool.or_eq_true, not_or, not_inRange_iff.not_left, not_inRange_iff.not_left] at hin
    obtain ⟨hr, ht⟩ := hin
    simp only [Bool.and_eq_true, bne_iff_ne, beq_iff_eq]
    exact ⟨fun h => ⟨hr, ht, h⟩, fun h => h.2.2⟩

/-- Settles O50: VERIFY writes `hashInt` and `signatureValid`, whose two answers `signatureValid_iff` tells apart. -/
theorem verifyResult : Obligations.VerifyResult := by
  intro s ho ht hq hh hkind p n r t l w times
  have he := toNat_ofNat_big (hashInt_lt s)
  refine ⟨BitVec.ofNat 576 s.hashInt, s.signatureValid s.hashInt, he.trans (hashInt_eq s), ?_, ?_⟩
  · rw [exec_verify ho ht hq ⟨hh, hkind⟩]
    rfl
  · rw [he]
    exact signatureValid_iff s s.hashInt

end Sys2Proof.Machine

/-! PROOFS. 47_hash.md: the results of HINIT and HFINAL, the data ports, and the digest of a whole message from a
session, however the writes split it. -/

namespace Sys2Proof.Machine

/-! ## HINIT and HFINAL (47 R211, R213, R216) -/

theorem exec_hinit {code : BitVec 5} {olen : BitVec 7} {a : Alg} (ha : Alg.ofCode code = some a)
    (h0 : a.isShake = false → olen = 0) (h64 : a.isShake = true → olen.toNat ≤ 64) (s : State) :
    exec (.hinit code olen) s = .next (complete (startSession a olen s)) := by
  have hillegal : ¬ (!a.isShake && olen != 0) = true := by simpa using h0
  have hlen : ¬ (a.isShake && decide (Config.digestBytes < olen.toNat)) = true := by
    rw [Bool.and_eq_true, decide_eq_true_iff, not_and, Nat.not_lt]
    exact h64
  simp only [exec, execHinit, ha, if_neg hillegal, if_neg hlen]
  exact perform_ok (commonChecks_empty s)

theorem outlen_eq (a : Alg) (olen : BitVec 7) :
    a.outlen olen = if a.isShake = true ∧ olen ≠ 0 then olen else a.digestSize := by
  simp only [Alg.outlen, Bool.and_eq_true, bne_iff_ne]

/-- Settles O51: HINIT passes its checks, and startSession is the state of the rule. -/
theorem hinitResult : Obligations.HinitResult := by
  intro s code olen a ha h0 h64
  rw [exec_hinit ha h0 h64, ← outlen_eq]
  rfl

theorem exec_hfinal {s : State} (hs : s.hstate = .absorb) (hm : s.hmact = false) :
    exec .hfinal s = .next (complete (writeDigest (sessionFinal s) .hash s)) := by
  rw [exec, execHfinal, if_neg (by simp [hs, hm])]
  exact perform_ok (commonChecks_empty s)

theorem sessionFinal_eq {s : State} {a : Alg} (ha : s.alg = some a) :
    sessionFinal s = hashFinal a s.run s.outlen.toNat := by simp [sessionFinal, ha]

theorem digest_get_writeDigest (out : List Byte) (k : DKind) (s : State) (i : Fin 64) :
    (writeDigest out k s).digest.get i = if i.val < s.outlen.toNat then out.getD i.val 0 else 0 :=
  digest_write s.outlen.toNat out i

/-- Settles O53: the digest is the one writeDigest writes. -/
theorem hfinalResult : Obligations.HfinalResult := by
  intro s a hs hm ha
  refine ⟨(writeDigest (hashFinal a s.run s.outlen.toNat) .hash s).digest, ?_, digest_get_writeDigest _ _ s⟩
  rw [exec_hfinal hs hm, sessionFinal_eq ha]
  rfl

/-! ## The own checks of the hash engine and the HMAC sequencer (47 R212, R213, R216, 49 R270 to R272) -/

theorem exec_hinit_badAlg {code : BitVec 5} (ha : Alg.ofCode code = none) (olen : BitVec 7) (s : State) :
    exec (.hinit code olen) s = .next (raiseCmd Opcode.hinit .badAlg s) := by
  simp only [exec, execHinit, ha]
  exact perform_error (commonChecks_empty s)

theorem exec_hinit_illegal {code : BitVec 5} {olen : BitVec 7} {a : Alg} (ha : Alg.ofCode code = some a)
    (hs : a.isShake = false) (h0 : olen ≠ 0) (s : State) :
    exec (.hinit code olen) s = .next (raiseCmd Opcode.hinit .illegal s) := by
  have hillegal : (!a.isShake && olen != 0) = true := by rw [hs, bne_iff_ne.2 h0]; rfl
  simp only [exec, execHinit, ha, if_pos hillegal]
  exact perform_error (commonChecks_empty s)

theorem exec_hinit_badLen {code : BitVec 5} {olen : BitVec 7} {a : Alg} (ha : Alg.ofCode code = some a)
    (hs : a.isShake = true) (h64 : 64 < olen.toNat) (s : State) :
    exec (.hinit code olen) s = .next (raiseCmd Opcode.hinit .badLen s) := by
  have hlegal : ¬ (!a.isShake && olen != 0) = true := by simp [hs]
  have hlen : (a.isShake && decide (Config.digestBytes < olen.toNat)) = true := by
    simp [hs, Config.digestBytes, h64]
  simp only [exec, execHinit, ha, if_neg hlegal, if_pos hlen]
  exact perform_error (commonChecks_empty s)

theorem exec_hmkey_badAlg {code : BitVec 5} (ha : ∀ a, Alg.ofCode code = some a → a.isShake = true) (s : State) :
    exec (.hmkey code) s = .next (raiseCmd Opcode.hmkey .badAlg s) := by
  cases hc : Alg.ofCode code with
  | none =>
    simp only [exec, execHmkey, hc]
    exact perform_error (commonChecks_empty s)
  | some a =>
    simp only [exec, execHmkey, hc, if_pos (ha a hc)]
    exact perform_error (commonChecks_empty s)

theorem exec_hmkey_badLen {code : BitVec 5} {a : Alg} (ha : Alg.ofCode code = some a) (hs : a.isShake = false)
    {s : State} (hk : 256 < s.klen.toNat) : exec (.hmkey code) s = .next (raiseCmd Opcode.hmkey .badLen s) := by
  have hlen : Config.keybufBytes < s.klen.toNat := hk
  simp only [exec, execHmkey, ha, if_neg (Bool.eq_false_iff.1 hs), if_pos hlen]
  exact perform_error (commonChecks_empty s)

theorem exec_hfinal_hseq {s : State} (h : s.hstate ≠ .absorb ∨ s.hmact = true) :
    exec .hfinal s = .next (raiseCmd Opcode.hfinal .hseq s) := by
  rw [exec, execHfinal, if_pos h]
  exact perform_error (commonChecks_empty s)

theorem exec_hmstart_hseq {s : State} (h : s.hkv = false) :
    exec .hmstart s = .next (raiseCmd Opcode.hmstart .hseq s) := by
  rw [exec, execHmstart, if_pos h]
  exact perform_error (commonChecks_empty s)

theorem exec_hmfinal_hseq {s : State} (h : s.hstate ≠ .absorb ∨ s.hmact = false) :
    exec .hmfinal s = .next (raiseCmd Opcode.hmfinal .hseq s) := by
  rw [exec, execHmfinal, if_pos h]
  exact perform_error (commonChecks_empty s)

/-- Settles O20: one clause for each check of each command. -/
theorem hashOwnErrors : Obligations.HashOwnErrors := by
  intro s code olen
  refine ⟨fun ha => ⟨exec_hinit_badAlg ha olen s, exec_hmkey_badAlg (by simp [ha]) s⟩, fun a ha => ?known,
    exec_hfinal_hseq, exec_hmstart_hseq, exec_hmfinal_hseq⟩
  case known =>
    refine ⟨fun hs h0 => exec_hinit_illegal ha hs h0 s, fun hs h64 => exec_hinit_badLen ha hs h64 s,
      fun hs => exec_hmkey_badAlg ?_ s, fun hs hk => exec_hmkey_badLen ha hs hk⟩
    intro b hb
    cases ha.symm.trans hb
    exact hs

/-! ## The data ports (47 R214, R215) -/

/-- The message bytes of a HASH_DIN write, as quotients of the word. -/
theorem wordBytes_eq_ofNat (v : Word) : wordBytes v = [BitVec.ofNat 8 v.toNat, BitVec.ofNat 8 (v.toNat / 2 ^ 8),
    BitVec.ofNat 8 (v.toNat / 2 ^ 16), BitVec.ofNat 8 (v.toNat / 2 ^ 24)] := by
  have hbyte (b : Nat) : wordByte v b = BitVec.ofNat 8 (v.toNat / 2 ^ (8 * b)) := by
    apply BitVec.eq_of_toNat_eq
    rw [toNat_wordByte, BitVec.toNat_ofNat]
  simp only [wordBytes, hbyte, Nat.mul_zero, Nat.pow_zero, Nat.div_one, Nat.reduceMul]

theorem absorbByte_of_lt {a : Alg} {r : HashRun} (h : r.buf.length + 1 < a.block) (b : Byte) :
    absorbByte a r b = { r with buf := r.buf ++ [b], count := r.count + 1 } := if_neg h.ne

theorem absorbByte_of_full {a : Alg} {r : HashRun} (h : r.buf.length + 1 = a.block) (b : Byte) :
    absorbByte a r b = { cv := compress a r.cv (r.buf ++ [b]), buf := [], count := r.count + 1 } := if_pos h

/-- Settles O52: both ports are dataPort, whose four ways the lemmas on dataPort give. -/
theorem dataPortWrites : Obligations.DataPortWrites := by
  refine ⟨fun s v b => ⟨fun a hb he hs ha => ?absorbed,
    fun hb => ⟨congrArg _ (dataPort_busy hb _ _), congrArg _ (dataPort_busy hb _ _)⟩,
    fun hb he => ⟨congrArg _ (dataPort_err hb he _ _), congrArg _ (dataPort_err hb he _ _)⟩,
    fun hb he hs => ⟨congrArg _ (dataPort_idle hb he hs _ _), congrArg _ (dataPort_idle hb he hs _ _)⟩⟩,
    fun a r b => ⟨?counted, fun h => ?appended, fun h => ?compressed⟩⟩
  case absorbed =>
    rw [← wordBytes_eq_ofNat]
    exact ⟨congrArg _ (dataPort_absorb hb he hs ha _ _), congrArg _ (dataPort_absorb hb he hs ha _ _)⟩
  case counted => rw [count_absorbByte, BitVec.toNat_add]; rfl
  case appended => rw [absorbByte_of_lt h]; exact ⟨rfl, rfl⟩
  case compressed => rw [absorbByte_of_full h]; exact ⟨rfl, rfl⟩

/-! ## The digest of a whole message (47 R218) -/

/-- Two blocks are enough for the padded tail, so its blocks may be taken with any larger bound. -/
theorem compressBlocks_padded_tail {a : Alg} {r : HashRun} (h : r.buf.length < a.block) :
    compressBlocks a 2 r.cv (r.buf ++ hashPad a r.buf.length r.count) =
      (chunks a.block (r.buf ++ hashPad a r.buf.length r.count).length
        (r.buf ++ hashPad a r.buf.length r.count)).foldl (compress a) r.cv := by
  have hlen : (r.buf ++ hashPad a r.buf.length r.count).length ≤ 2 * a.block := by
    rw [List.length_append]
    have := length_hashPad a r.count h
    omega
  rw [compressBlocks_chunks, chunks_fuel (block_pos a) 2 _ _ hlen (Nat.le_mul_of_pos_right _ (block_pos a))]

/-- The padding that a streamed message gets is the padding of the whole message. -/
theorem hashPad_absorbBytes (a : Alg) (m : List Byte) :
    hashPad a (absorbBytes a (hashStart a) m).buf.length (absorbBytes a (hashStart a) m).count =
      hashPad a (m.length % a.block) (BitVec.ofNat 64 m.length) := by
  have hcount : (hashStart a).count + BitVec.ofNat 64 m.length = BitVec.ofNat 64 m.length := BitVec.zero_add _
  rw [length_buf_absorbBytes a m _ (partial_hashStart a), count_absorbBytes, hcount, hashStart, List.length_nil,
    Nat.zero_add]

theorem hashFinal_absorbBytes (a : Alg) (m : List Byte) (n : Nat) :
    hashFinal a (absorbBytes a (hashStart a) m) n = messageDigest a m n := by
  have hblocks := chunks_absorbBytes a (hashPad a (m.length % a.block) (BitVec.ofNat 64 m.length)) m (hashStart a)
    (partial_hashStart a)
  rw [hashFinal, compressBlocks_padded_tail (partial_absorbBytes m (partial_hashStart a)).1, hashPad_absorbBytes,
    ← hblocks]
  rfl

theorem length_messageDigest {a : Alg} {n : Nat} (hn : n ≤ a.digestSize.toNat ∨ (a.isShake = true ∧ n ≤ 64))
    (m : List Byte) : (messageDigest a m n).length = n := by
  rw [← hashFinal_absorbBytes]
  exact length_hashFinal (partial_absorbBytes m (partial_hashStart a)).2 hn

/-- Settles O54: the blocks that absorbing compresses one by one are the whole blocks of the padded message. -/
theorem streamingGivesTheMessageDigest : Obligations.StreamingGivesTheMessageDigest := fun a m n =>
  ⟨hashFinal_absorbBytes a m n, fun hn => length_messageDigest hn m⟩

/-! ## A hash session (47 R213 to R218) -/

theorem wordBytes_eq_port_bytes (v : Word) : wordBytes v = (Port.din v).bytes := by
  have hbyte (b : Nat) : wordByte v b = (v >>> (8 * b)).setWidth 8 := rfl
  simp [wordBytes, hbyte, Port.bytes]

/-- In a session a port write absorbs its bytes. -/
theorem exec_port {s : State} {a : Alg} (hb : s.busy = false) (he : s.err = false) (hs : s.hstate = .absorb)
    (ha : s.alg = some a) (p : Port) : exec p.instr s = .next { s with run := absorbBytes a s.run p.bytes } := by
  cases p with
  | din v =>
    rw [← wordBytes_eq_port_bytes]
    exact congrArg _ (dataPort_absorb hb he hs ha _ _)
  | dinb b => exact congrArg _ (dataPort_absorb hb he hs ha _ _)

/-- In a session any sequence of port writes absorbs the bytes of all of them. -/
theorem feed_eq {a : Alg} (ports : List Port) {s : State} (hb : s.busy = false) (he : s.err = false)
    (hs : s.hstate = .absorb) (ha : s.alg = some a) :
    feed ports s = some { s with run := absorbBytes a s.run (ports.flatMap Port.bytes) } := by
  induction ports generalizing s with
  | nil => rfl
  | cons p ports ih =>
    have hrest := ih (s := { s with run := absorbBytes a s.run p.bytes }) hb he hs ha
    rw [feed, exec_port hb he hs ha, List.flatMap_cons, absorbBytes_append]
    exact hrest

/-- The leading bytes of DIGEST are the bytes written to it. -/
theorem take_digest_writeDigest {out : List Byte} {s : State} (hlen : out.length = s.outlen.toNat)
    (h64 : s.outlen.toNat ≤ 64) (k : DKind) :
    (writeDigest out k s).digest.toList.take s.outlen.toNat = out := by
  apply List.ext_getElem
  · simp [hlen, h64]
  · intro i _ hi
    have := digest_get_writeDigest out k s ⟨i, by omega⟩
    rw [Vector.get_eq_getElem] at this
    simpa [hi, ← hlen] using this

/-- OUTLEN of a session that HINIT opens is a length the algorithm can give. -/
theorem outlen_le_digestSize_or_shake {a : Alg} {olen : BitVec 7} (h64 : a.isShake = true → olen.toNat ≤ 64) :
    (a.outlen olen).toNat ≤ a.digestSize.toNat ∨ (a.isShake = true ∧ (a.outlen olen).toNat ≤ 64) := by
  rw [outlen_eq]
  split
  · rename_i h
    exact .inr ⟨h.1, h64 h.1⟩
  · exact .inl le_rfl

theorem outlen_le {a : Alg} {olen : BitVec 7} (h64 : a.isShake = true → olen.toNat ≤ 64) :
    (a.outlen olen).toNat ≤ 64 := by
  obtain h | ⟨-, h⟩ := outlen_le_digestSize_or_shake h64
  · exact h.trans (digestSize_le a)
  · exact h

/-- Settles O55: HINIT opens the session, the writes absorb the message, and HFINAL writes what streaming gives. -/
theorem hashSessionGivesTheDigest : Obligations.HashSessionGivesTheDigest := by
  intro s code olen a ports he ha h0 h64
  have hfeed := feed_eq (a := a) ports (s := complete (startSession a olen s)) rfl he rfl rfl
  refine ⟨_, _, _, exec_hinit ha h0 h64 s, hfeed, exec_hfinal rfl rfl, he, rfl, rfl, rfl, ?_⟩
  have hfinal := hashFinal_absorbBytes a (ports.flatMap Port.bytes) (a.outlen olen).toNat
  rw [sessionFinal_eq (a := a) rfl, ← hfinal]
  refine take_digest_writeDigest ?_ (outlen_le h64) .hash
  exact (congrArg List.length hfinal).trans (length_messageDigest (outlen_le_digestSize_or_shake h64) _)

end Sys2Proof.Machine

/-! PROOFS. 48_hash_functions.md: the compression of the SHA-2 family as the rule indexes it, and a round of
Keccak-f. -/

namespace Sys2Proof.Machine

/-! ## The schedule of SHA-2 (48 R241, R242)

sha2Extend puts the newest word first, so word k of its list stands k places before the last word of the schedule. -/

section Schedule

variable {w : Nat} (am : Sha2Amounts)

/-- The next word of a schedule whose words so far are ws, newest first. -/
def sha2Next (ws : List (BitVec w)) : BitVec w :=
  smallSigma am.smallSigma1 (ws.getD 1 0) + ws.getD 6 0 + smallSigma am.smallSigma0 (ws.getD 14 0) + ws.getD 15 0

/-- The last word a schedule gains is the next word of the schedule before it. -/
theorem sha2Extend_succ (n : Nat) (ws : List (BitVec w)) :
    sha2Extend am (n + 1) ws = sha2Next am (sha2Extend am n ws) :: sha2Extend am n ws := by
  induction n generalizing ws with
  | zero => rfl
  | succ n ih => exact ih (sha2Next am ws :: ws)

theorem length_sha2Extend (n : Nat) (ws : List (BitVec w)) : (sha2Extend am n ws).length = n + ws.length := by
  induction n with
  | zero => rw [Nat.zero_add]; rfl
  | succ n ih => rw [sha2Extend_succ, List.length_cons, ih]; omega

/-- The words a schedule starts from stand after the words it gains. -/
theorem getD_sha2Extend_first (n k : Nat) (ws : List (BitVec w)) :
    (sha2Extend am n ws).getD (n + k) 0 = ws.getD k 0 := by
  induction n with
  | zero => rw [Nat.zero_add]; rfl
  | succ n ih => rw [sha2Extend_succ, Nat.succ_add, List.getD_cons_succ, ih]

/-- Each word a schedule gains follows the rule from the words before it. -/
theorem getD_sha2Extend_gained {n k : Nat} (hk : k < n) (ws : List (BitVec w)) :
    (sha2Extend am n ws).getD k 0 =
      smallSigma am.smallSigma1 ((sha2Extend am n ws).getD (k + 2) 0) + (sha2Extend am n ws).getD (k + 7) 0 +
        smallSigma am.smallSigma0 ((sha2Extend am n ws).getD (k + 15) 0) + (sha2Extend am n ws).getD (k + 16) 0 := by
  induction n generalizing k with
  | zero => omega
  | succ n ih =>
    rw [sha2Extend_succ]
    cases k with
    | zero => rfl
    | succ k => exact ih (Nat.lt_of_succ_lt_succ hk)

end Schedule

/-! ## The rounds of SHA-2 -/

/-- The working variables by number, a first. -/
def Sha2Vars.word {w : Nat} (v : Sha2Vars w) : Nat → BitVec w
  | 0 => v.a
  | 1 => v.b
  | 2 => v.c
  | 3 => v.d
  | 4 => v.e
  | 5 => v.f
  | 6 => v.g
  | _ => v.h

/-- The working variables after t rounds from v0, with the round constants and words kws. -/
def sha2After {w : Nat} (am : Sha2Amounts) (kws : List (BitVec w × BitVec w)) (v0 : Sha2Vars w) (t : Nat) :
    Sha2Vars w :=
  (kws.take t).foldl (sha2Round am) v0

theorem sha2After_succ {w : Nat} (am : Sha2Amounts) {ks ws : List (BitVec w)} {t : Nat} (hk : t < ks.length)
    (hw : t < ws.length) (v0 : Sha2Vars w) : sha2After am (ks.zip ws) v0 (t + 1) =
      sha2Round am (sha2After am (ks.zip ws) v0 t) (ks.getD t 0, ws.getD t 0) := by
  have hlen : t < (ks.zip ws).length := by rw [List.length_zip]; omega
  rw [sha2After, List.take_succ_eq_append_getElem hlen, List.foldl_append, List.getElem_zip,
    List.getD_eq_getElem _ _ hk, List.getD_eq_getElem _ _ hw]
  rfl

theorem sha2After_length {w : Nat} (am : Sha2Amounts) (kws : List (BitVec w × BitVec w)) (v0 : Sha2Vars w) {t : Nat}
    (h : kws.length ≤ t) : sha2After am kws v0 t = kws.foldl (sha2Round am) v0 := by
  rw [sha2After, List.take_of_length_le h]

/-! ## The compression of SHA-2 -/

/-- The block's 16 words. -/
def sha2First {w : Nat} (block : List Byte) : List (BitVec w) :=
  (List.range 16).map fun t => beWord w (byteGroup (w / 8) block t)

/-- The words W[0] to W[rounds - 1], the first word first. -/
def sha2Schedule {w : Nat} (am : Sha2Amounts) (rounds : Nat) (block : List Byte) : List (BitVec w) :=
  (sha2Extend am (rounds - 16) (sha2First block).reverse).reverse

/-- The working variables H0 to H7. -/
def sha2Initial {w : Nat} (hs : List (BitVec w)) : Sha2Vars w :=
  { a := hs.getD 0 0, b := hs.getD 1 0, c := hs.getD 2 0, d := hs.getD 3 0,
    e := hs.getD 4 0, f := hs.getD 5 0, g := hs.getD 6 0, h := hs.getD 7 0 }

section Compress

variable {w : Nat} (am : Sha2Amounts) {rounds t : Nat} (block : List Byte)

theorem length_sha2First : (sha2First (w := w) block).length = 16 := by simp [sha2First]

theorem length_sha2Schedule (h : 16 ≤ rounds) : (sha2Schedule (w := w) am rounds block).length = rounds := by
  rw [sha2Schedule, List.length_reverse, length_sha2Extend, List.length_reverse, length_sha2First]
  omega

/-- W[t] stands rounds - 1 - t places before the last word. -/
theorem getD_sha2Schedule (ht : t < rounds) (h : 16 ≤ rounds) : (sha2Schedule (w := w) am rounds block).getD t 0 =
    (sha2Extend am (rounds - 16) (sha2First block).reverse).getD (rounds - 1 - t) 0 := by
  have hlen := length_sha2Schedule (w := w) am block h
  rw [sha2Schedule, List.length_reverse] at hlen
  rw [sha2Schedule, List.getD_reverse _ (by omega), hlen]

theorem sha2Schedule_first (ht : t < 16) (h : 16 ≤ rounds) :
    (sha2Schedule (w := w) am rounds block).getD t 0 = beWord w (byteGroup (w / 8) block t) := by
  have hk : rounds - 1 - t = rounds - 16 + (15 - t) := by omega
  have hlen := length_sha2First (w := w) block
  have hback : 16 - 1 - (15 - t) = t := by omega
  rw [getD_sha2Schedule am block (by omega) h, hk, getD_sha2Extend_first, List.getD_reverse _ (by omega), hlen, hback,
    List.getD_eq_getElem _ _ (by omega)]
  simp [sha2First]

theorem sha2Schedule_gained (h16 : 16 ≤ t) (ht : t < rounds) :
    (sha2Schedule (w := w) am rounds block).getD t 0 =
      smallSigma am.smallSigma1 ((sha2Schedule am rounds block).getD (t - 2) 0) +
        (sha2Schedule am rounds block).getD (t - 7) 0 +
        smallSigma am.smallSigma0 ((sha2Schedule am rounds block).getD (t - 15) 0) +
        (sha2Schedule am rounds block).getD (t - 16) 0 := by
  have h : 16 ≤ rounds := by omega
  have hback {j : Nat} (hj : j ≤ 16) : rounds - 1 - (t - j) = rounds - 1 - t + j := by omega
  rw [getD_sha2Schedule am block ht h, getD_sha2Schedule am block (by omega) h,
    getD_sha2Schedule am block (by omega) h, getD_sha2Schedule am block (by omega) h,
    getD_sha2Schedule am block (by omega) h, hback (by omega), hback (by omega), hback (by omega), hback (by omega)]
  exact getD_sha2Extend_gained am (by omega) _

end Compress

/-- The compression adds the chaining value to the working variables after every round. -/
theorem sha2Compress_eq {w : Nat} (am : Sha2Amounts) (ks hs : List (BitVec w)) (block : List Byte) :
    sha2Compress am ks hs block = (List.range 8).map fun j =>
      hs.getD j 0 + (sha2After am (ks.zip (sha2Schedule am ks.length block)) (sha2Initial hs) ks.length).word j := by
  have hlen : (ks.zip (sha2Schedule (w := w) am ks.length block)).length ≤ ks.length := by
    rw [List.length_zip]
    omega
  rw [sha2After_length am _ _ hlen]
  rfl

/-- The compression is the rule's, for every word width, amounts, round constants and chaining value. -/
theorem sha2Rule_sha2Compress {w : Nat} (am : Sha2Amounts) {ks : List (BitVec w)} (hk : 16 ≤ ks.length)
    (hs : List (BitVec w)) (block : List Byte) :
    Sha2Rule w ks.length (bigSigma am.bigSigma0) (bigSigma am.bigSigma1) (smallSigma am.smallSigma0)
      (smallSigma am.smallSigma1) (fun t => ks.getD t 0) (fun j => hs.getD j 0) block
      (sha2Compress am ks hs block) := by
  refine ⟨fun t => (sha2Schedule am ks.length block).getD t 0,
    fun t => (sha2After am (ks.zip (sha2Schedule am ks.length block)) (sha2Initial hs) t).word,
    fun t ht => sha2Schedule_first am block ht hk, fun t h16 ht => sha2Schedule_gained am block h16 ht, ?initial,
    fun t ht => ?round, sha2Compress_eq am ks hs block⟩
  case initial =>
    intro j hj
    interval_cases j <;> rfl
  case round =>
    dsimp only
    rw [sha2After_succ am ht (by rw [length_sha2Schedule am block hk]; exact ht)]
    exact ⟨rfl, rfl, rfl, rfl, rfl, rfl, rfl, rfl⟩

/-- Settles O56: both widths are the general rule, with 64 and 80 round constants. -/
theorem sha2CompressionRule : Obligations.Sha2CompressionRule := by
  refine ⟨?_, ?_⟩
  · rintro a hs block (rfl | rfl) <;>
      exact ⟨_, rfl, sha2Rule_sha2Compress sha256Amounts (ks := k256) (by decide) hs block⟩
  · rintro a hs block (rfl | rfl) <;>
      exact ⟨_, rfl, sha2Rule_sha2Compress sha512Amounts (ks := k512) (by decide) hs block⟩

/-! ## A round of Keccak-f (48 R247) -/

theorem laneIndex_lt (x y : Nat) : laneIndex x y < 25 := by unfold laneIndex; omega

/-- Coordinates are taken mod 5. -/
theorem lane_mod (a : List (BitVec 64)) (x y : Nat) : lane a (x % 5) (y % 5) = lane a x y := by
  simp [lane, laneIndex]

theorem lane_lanes (f : Nat → Nat → BitVec 64) (x y : Nat) : lane (lanes f) x y = f (x % 5) (y % 5) := by
  have hx : (x % 5 + 5 * (y % 5)) % 5 = x % 5 := by omega
  have hy : (x % 5 + 5 * (y % 5)) / 5 = y % 5 := by omega
  rw [lane, List.getD_eq_getElem _ _ (by rw [length_lanes]; exact laneIndex_lt x y)]
  simp only [lanes, laneIndex, List.getElem_map, List.getElem_range, hx, hy]

/-- Column x of θ. -/
def keccakColumn (a : List (BitVec 64)) (x : Nat) : BitVec 64 :=
  lane a x 0 ^^^ lane a x 1 ^^^ lane a x 2 ^^^ lane a x 3 ^^^ lane a x 4

theorem getD_map_range {n x : Nat} (f : Nat → BitVec 64) (hx : x < n) : ((List.range n).map f).getD x 0 = f x := by
  simp [List.getD_eq_getElem?_getD, hx]

theorem lane_keccakTheta (a : List (BitVec 64)) {x y : Nat} (hx : x < 5) (hy : y < 5) :
    lane (keccakTheta a) x y =
      lane a x y ^^^ (keccakColumn a ((x + 4) % 5) ^^^ (keccakColumn a ((x + 1) % 5)).rotateLeft 1) := by
  have h4 : (x + 4) % 5 < 5 := Nat.mod_lt _ (by decide)
  have h1 : (x + 1) % 5 < 5 := Nat.mod_lt _ (by decide)
  simp only [keccakTheta, lane_lanes, Nat.mod_eq_of_lt hx, Nat.mod_eq_of_lt hy, getD_map_range _ hx,
    getD_map_range _ h4, getD_map_range _ h1]
  rfl

theorem length_foldl_set {α : Type} (p : Nat → Nat) (g : Nat → α) (l : List Nat) (init : List α) :
    (l.foldl (fun acc j => acc.set (p j) (g j)) init).length = init.length := by
  induction l generalizing init with
  | nil => rfl
  | cons j l ih => rw [List.foldl_cons, ih, List.length_set]

/-- Writing g j at place p j for each j of a list leaves g i at place p i when no other j has that place. -/
theorem getD_foldl_set {α : Type} (p : Nat → Nat) (g : Nat → α) (d : α) {l : List Nat} {i : Nat} (hi : i ∈ l)
    (hp : ∀ j ∈ l, p j = p i → j = i) {init : List α} (hlen : p i < init.length) :
    (l.foldl (fun acc j => acc.set (p j) (g j)) init).getD (p i) d = g i := by
  induction l using List.reverseRecOn with
  | nil => cases hi
  | append_singleton l j ih =>
    rw [List.foldl_append, List.foldl_cons, List.foldl_nil, List.getD_eq_getElem?_getD, List.getElem?_set]
    by_cases hj : p j = p i
    · have hji : j = i := hp j (by simp) hj
      rw [if_pos hj, length_foldl_set, if_pos (hj ▸ hlen), hji]
      rfl
    · have hil : i ∈ l := by
        refine (List.mem_append.1 hi).resolve_right fun h => hj ?_
        rw [List.mem_singleton.1 h]
      rw [if_neg hj, ← List.getD_eq_getElem?_getD]
      exact ih hil fun k hk => hp k (List.mem_append_left _ hk)

/-- The place π gives lane i. -/
def keccakPlace (i : Nat) : Nat := laneIndex (i / 5) (2 * (i % 5) + 3 * (i / 5))

/-- π gives no place twice. -/
theorem keccakPlace_inj {i j : Nat} (hi : i < 25) (hj : j < 25) (h : keccakPlace j = keccakPlace i) : j = i := by
  unfold keccakPlace laneIndex at h
  omega

theorem lane_keccakRhoPi (a : List (BitVec 64)) {x y : Nat} (hx : x < 5) (hy : y < 5) :
    lane (keccakRhoPi a) y (2 * x + 3 * y) = (lane a x y).rotateLeft (keccakOffsets.getD (x + 5 * y) 0) := by
  have hdiv : (x + 5 * y) / 5 = y := by omega
  have hmod : (x + 5 * y) % 5 = x := by omega
  have hi : x + 5 * y ∈ List.range 25 := List.mem_range.2 (by omega)
  have hplace : laneIndex y (2 * x + 3 * y) = keccakPlace (x + 5 * y) := by rw [keccakPlace, hdiv, hmod]
  have hlane : lane a x y = a.getD (x + 5 * y) 0 := by
    rw [lane, laneIndex, Nat.mod_eq_of_lt hx, Nat.mod_eq_of_lt hy]
  rw [lane, hplace, hlane]
  exact getD_foldl_set keccakPlace (fun i => (a.getD i 0).rotateLeft (keccakOffsets.getD i 0)) 0 hi
    (fun j hj => keccakPlace_inj (List.mem_range.1 hi) (List.mem_range.1 hj))
    (by rw [List.length_replicate]; exact laneIndex_lt _ _)

theorem lane_keccakChi (b : List (BitVec 64)) {x y : Nat} (hx : x < 5) (hy : y < 5) : lane (keccakChi b) x y =
    lane b x y ^^^ (~~~(lane b ((x + 1) % 5) y) &&& lane b ((x + 2) % 5) y) := by
  have h1 := lane_mod b (x + 1) y
  have h2 := lane_mod b (x + 2) y
  rw [Nat.mod_eq_of_lt hy] at h1 h2
  rw [keccakChi, lane_lanes, Nat.mod_eq_of_lt hx, Nat.mod_eq_of_lt hy, h1, h2]

theorem lane_keccakIota {b : List (BitVec 64)} (hb : b.length = 25) (rc : BitVec 64) {x y : Nat} (hx : x < 5)
    (hy : y < 5) : lane (keccakIota rc b) x y = lane b x y ^^^ (if x = 0 ∧ y = 0 then rc else 0) := by
  by_cases h : x = 0 ∧ y = 0
  · obtain ⟨rfl, rfl⟩ := h
    simp [keccakIota, lane, laneIndex, List.getD_eq_getElem?_getD, hb]
  · have hne : ¬ 0 = laneIndex x y := by unfold laneIndex; omega
    rw [if_neg h, keccakIota, lane, List.getD_eq_getElem?_getD, List.getElem?_set_ne hne,
      ← List.getD_eq_getElem?_getD]
    exact (BitVec.xor_zero).symm

/-- Settles O57: each of θ, ρ and π, χ and ι by its lanes; the offsets are read off along the path. -/
theorem keccakRoundRule : Obligations.KeccakRoundRule := by
  refine ⟨fun a rc _ => ⟨keccakColumn a, lane (keccakRhoPi (keccakTheta a)), fun x _ => rfl, fun x y hx hy => ?_,
    length_keccakRound a rc, fun x y hx hy => ?_⟩, rfl, by decide⟩
  · have hmod := lane_mod (keccakRhoPi (keccakTheta a)) y (2 * x + 3 * y)
    rw [Nat.mod_eq_of_lt hy] at hmod
    rw [hmod, lane_keccakRhoPi _ hx hy, lane_keccakTheta a hx hy]
  · have hlen : (keccakChi (keccakRhoPi (keccakTheta a))).length = 25 := length_lanes _
    rw [keccakRound, lane_keccakIota hlen rc hx hy, lane_keccakChi _ hx hy]

end Sys2Proof.Machine

/-! PROOFS. 49_hmac.md: the results of HMKEY, HMSTART and HMFINAL, and the tag of a whole message from an HMAC session,
however the writes split it. -/

namespace Sys2Proof.Machine

/-! ## The key block (49 R270) -/

/-- Streaming a whole string gives its digest. -/
theorem hashAll_eq_tableDigest (a : Alg) (m : List Byte) : hashAll a m = tableDigest a m :=
  hashFinal_absorbBytes a m a.digestSize.toNat

theorem hmacK0_eq_blockKey (a : Alg) (key : List Byte) : hmacK0 a key = blockKey a key := by
  unfold hmacK0 blockKey
  by_cases h : a.block < key.length
  · simp only [if_pos h, length_hashAll]
    rw [hashAll_eq_tableDigest]
  · simp only [if_neg h]

/-! ## HMKEY, HMSTART and HMFINAL (49 R270 to R272) -/

theorem exec_hmkey {code : BitVec 5} {a : Alg} (ha : Alg.ofCode code = some a) (hs : a.isShake = false) {s : State}
    (hk : s.klen.toNat ≤ 256) : exec (.hmkey code) s = .next (complete (setHmacKey a s)) := by
  have hlen : ¬ Config.keybufBytes < s.klen.toNat := Nat.not_lt.2 hk
  simp only [exec, execHmkey, ha, if_neg (Bool.eq_false_iff.1 hs), if_neg hlen]
  exact perform_ok (commonChecks_empty s)

/-- Settles O58: HMKEY passes its checks, and its K0 is the rule's. -/
theorem hmkeyResult : Obligations.HmkeyResult := by
  intro s code a ha hs hk key
  rw [exec_hmkey ha hs hk, setHmacKey, hmacK0_eq_blockKey]
  rfl

theorem exec_hmstart {s : State} {a : Alg} (hk : s.hkv = true) (ha : s.halg = some a) :
    exec .hmstart s = .next (complete (startInner a s)) := by
  simp only [exec, execHmstart, ha, hk, Bool.true_eq_false, if_false]
  exact perform_ok (commonChecks_empty s)

theorem exec_hmfinal {s : State} {a : Alg} (hs : s.hstate = .absorb) (hm : s.hmact = true) (ha : s.halg = some a) :
    exec .hmfinal s = .next (complete (finishMac a s)) := by
  rw [exec, execHmfinal, if_neg (by simp [hs, hm])]
  simp only [ha]
  exact perform_ok (commonChecks_empty s)

theorem count_absorbBytes_hashStart (a : Alg) (bs : List Byte) :
    (absorbBytes a (hashStart a) bs).count = BitVec.ofNat 64 bs.length := by
  rw [count_absorbBytes]
  exact BitVec.zero_add _

/-- Settles O59: both commands pass their checks, and the bytes a fresh run absorbs are counted. -/
theorem hmstartAndHmfinalResults : Obligations.HmstartAndHmfinalResults := by
  refine fun s a ha => ⟨fun hk => ?start, fun hs hm halg => ?final⟩
  case start =>
    exact ⟨_, rfl, count_absorbBytes_hashStart a s.ipk, exec_hmstart hk ha⟩
  case final =>
    intro inner
    have hcount := count_absorbBytes_hashStart a (s.opk ++ inner)
    rw [List.length_append] at hcount
    refine ⟨_, (finishMac a s).digest, rfl, hcount, ?_, fun i => ?_⟩
    · rw [exec_hmfinal hs hm ha, finishMac, sessionFinal_eq halg]
      rfl
    · rw [finishMac, sessionFinal_eq halg]
      exact digest_get_writeDigest _ _ _ i

/-! ## An HMAC session (49 R273) -/

/-- What the inner and the outer hash of a session give for the K0 of a key. -/
theorem hashFinal_outer_eq_hmacTag (a : Alg) (key m : List Byte) :
    hashFinal a (absorbBytes a (hashStart a) (xorPad 0x5C (hmacK0 a key) ++
      hashFinal a (absorbBytes a (absorbBytes a (hashStart a) (xorPad 0x36 (hmacK0 a key))) m) a.digestSize.toNat))
      a.digestSize.toNat = hmacTag a key m := by
  rw [← absorbBytes_append, hashFinal_absorbBytes, hashFinal_absorbBytes, hmacK0_eq_blockKey]
  rfl

/-- Settles O60: HMKEY sets IPK and OPK, HMSTART absorbs IPK and the writes the message, and HMFINAL runs the outer
hash. -/
theorem hmacSessionGivesTheTag : Obligations.HmacSessionGivesTheTag := by
  intro s code a ports he ha hs hk
  have hstart := exec_hmstart (s := complete (setHmacKey a s)) (a := a) rfl rfl
  have hfeed := feed_eq (a := a) ports (s := complete (startInner a (complete (setHmacKey a s)))) rfl he rfl rfl
  refine ⟨_, _, _, _, exec_hmkey ha hs hk, hstart, hfeed, exec_hmfinal (a := a) rfl rfl rfl, he, rfl, rfl, rfl, rfl, ?_⟩
  rw [← hashFinal_outer_eq_hmacTag]
  refine take_digest_writeDigest ?_ (digestSize_le a) .mac
  exact length_hashFinal (partial_absorbBytes _ (partial_hashStart a)).2 (.inl le_rfl)

end Sys2Proof.Machine

/-! PROOFS. 60_exceptions.md: raising an error, the common checks of every command in their order, and what a command
leaves alone. -/

namespace Sys2Proof.Machine

/-! ## Raising an error (60 R280, R283) -/

theorem errWord_eq_ofNat (e : Err) (eop : BitVec 8) (eoff : BitVec 16) : errWord e eop eoff =
    BitVec.ofNat 32 ((errNum e).toNat + eop.toNat * 2 ^ 8 + eoff.toNat * 2 ^ 16) :=
  eq_ofNat_of_toNat (errWord_toNat e eop eoff)

/-- Settles O15: the recorded word is the sum of its three fields; the codes are read off the table. -/
theorem raiseRecordsTheFirstError : Obligations.RaiseRecordsTheFirstError :=
  ⟨fun e eop eoff s => by rw [raise, errWord_eq_ofNat], rfl⟩

/-! ## The common checks (60 R285 steps 3 to 6) -/

theorem groupsOk_checksOf_iff (i : Instr) : groupsOk (checksOf i) = true ↔ GroupsInRange i := groupsOk_iff _

theorem destLocked_checksOf_iff (i : Instr) (s : State) : destLocked (checksOf i) s = true ↔ DestProtected i s :=
  destLocked_iff _ _

section Checks

variable {c : Checks} {s : State}

theorem commonChecks_operand (hg : ¬ groupsOk c = true) : commonChecks c s = some .operand := by
  simp [commonChecks, hg]

theorem commonChecks_locked (hg : groupsOk c = true) (hd : destLocked c s = true) :
    commonChecks c s = some .locked := by
  simp [commonChecks, hg, hd]

theorem commonChecks_noCurve (hg : groupsOk c = true) (hd : ¬ destLocked c s = true) (hc : c.curve = true)
    (hl : s.curveLock = false) : commonChecks c s = some .noCurve := by
  simp [commonChecks, hg, hd, hc, hl]

theorem commonChecks_divZero (hg : groupsOk c = true) (hd : ¬ destLocked c s = true) (hc : c.curve = true)
    (hl : s.curveLock = true) (hz : s.val regP = 0 ∨ (c.order = true ∧ s.val regN = 0)) :
    commonChecks c s = some .divZero := by
  by_cases hp : s.val regP = 0
  · simp [commonChecks, hg, hd, hc, hl, hp]
  · obtain ⟨ho, hn⟩ := hz.resolve_left hp
    simp [commonChecks, hg, hd, hc, hl, hp, ho, hn]

end Checks

/-- A command raises what the first check it fails answers. -/
theorem exec_of_commonChecks {i : Instr} {op : Nat} {s : State} {e : Err} (ho : i.opcode = some op)
    (hc : commonChecks (checksOf i) s = some e) : exec i s = .next (raiseCmd op e s) := by
  obtain ⟨rule, hrule⟩ := exec_command ho s
  exact hrule.trans (perform_check hc)

/-- Settles O17: the command's checks are those of the tables of 60 R285, and each clause names the first that fails. -/
theorem commonChecksInOrder : Obligations.CommonChecksInOrder := by
  intro i op s ho
  rw [← groupsOk_checksOf_iff, ← destLocked_checksOf_iff]
  exact ⟨fun hg => exec_of_commonChecks ho (commonChecks_operand hg),
    fun hg hd => exec_of_commonChecks ho (commonChecks_locked hg hd),
    fun hg hd hc hl => exec_of_commonChecks ho (commonChecks_noCurve hg hd hc hl),
    fun hg hd hc hl hz => exec_of_commonChecks ho (commonChecks_divZero hg hd hc hl hz)⟩

/-! ## What a command leaves alone (60 R285 step 4, 10 R25, R33) -/

theorem qtag_modularRule {rd rm : Reg} {v : Nat} {s t : State} (h : modularRule rd rm v s = .ok t) :
    t.qtag = s.qtag := by
  unfold modularRule at h
  split at h
  · cases h
  · cases h; rfl

/-- KEYGEN alone of the commands outside the hash engine writes QTAG. -/
theorem plain_command_keeps_qtag {i : Instr} {op : Nat} {s u : State} (h : i.opcode = some op)
    (hi : isHashCommand i = false) (hk : i ≠ .keygen) (hu : exec i s = .next u) : u.qtag = s.qtag := by
  cases i <;>
    simp only [Instr.opcode, Option.some.injEq, reduceCtorEq, isHashCommand, Bool.true_eq_false] at h hi <;>
    subst h <;>
    simp only [exec, execNop, execMov, execLdi, execCmp, execModadd, execModsub, execModred, execModmul, execMontmul,
      execMontrr, execModinv, execTojac, execFromjac, execPdbl, execPadd, execSmul, execOncurve, execIsinf,
      execKeygen, execQcheck, execSign, execVerify] at hu <;>
    obtain ⟨e, rfl⟩ | ⟨t, ht, -, rfl⟩ := perform_next hu
  all_goals try exact raise_qtag ..
  all_goals rw [complete_qtag]
  case keygen => exact absurd rfl hk
  case modadd | modsub | modred | modmul | montrr => exact qtag_modularRule ht
  case nop | mov | ldi | cmp | tojac | fromjac | pdbl | padd | smul | oncurve | isinf => cases ht; rfl
  case montmul | modinv | qcheck | sign | verify =>
    repeat' split at ht
    all_goals cases ht
    rfl

theorem command_keeps_qtag {i : Instr} {op : Nat} {s u : State} (h : i.opcode = some op) (hk : i ≠ .keygen)
    (hu : exec i s = .next u) : u.qtag = s.qtag := by
  cases hi : isHashCommand i with
  | false => exact plain_command_keeps_qtag h hi hk hu
  | true =>
    obtain ⟨e, rfl⟩ | ⟨hframe, -, -⟩ := hash_command_next h hi hu
    · rfl
    · rw [← hframe]

/-- Settles O13: the registers, then QTAG, then the frames of the two kinds of command. -/
theorem commandsChangeOnlyTheirDestinations : Obligations.CommandsChangeOnlyTheirDestinations := by
  intro i op s t ho ht
  refine ⟨fun r hr => command_keeps_registers ho ht hr, fun hk => command_keeps_qtag ho hk ht, fun hi => ?plain,
    fun hi => ?hash⟩
  case plain =>
    obtain ⟨e, rfl⟩ | ⟨hframe, -, -⟩ := plain_command_next ho hi ht
    · rfl
    · rw [← hframe]
  case hash =>
    obtain ⟨e, rfl⟩ | ⟨hframe, -, -⟩ := hash_command_next ho hi ht
    · rfl
    · rw [← hframe]

end Sys2Proof.Machine

/-! PROOFS. 70_reset_and_hazards.md: a latched command ends, and both resets leave the reset state. -/

namespace Sys2Proof.Machine

/-! ## A latched command ends (70 R332) -/

theorem engineStep_ends {s : State} (hp : s.pending.isSome = true) :
    ∃ t, engineStep s = .next t ∧ t.pending = none ∧ (t.done = true ∨ t.err = true) := by
  obtain ⟨t, ht⟩ := engineStep_next s
  refine ⟨t, ht, ?_⟩
  obtain ⟨hnone, -⟩ | ⟨w, -, ⟨i, hd, hx⟩ | rfl⟩ := engineStep_cases ht
  · rw [hnone] at hp
    cases hp
  · obtain ⟨e, rfl⟩ | ⟨hpending, hdone, -, -⟩ := command_next (decodeCmd_is_command hd) hx
    · exact ⟨rfl, .inr rfl⟩
    · exact ⟨hpending, .inl hdone⟩
  · exact ⟨rfl, .inr rfl⟩

/-- Settles O7: in both cases the step is the engine's. -/
theorem latchedCommandEnds : Obligations.LatchedCommandEnds := by
  rintro s rest hp (hin | hin)
  · rw [step_of_inputs_nil hin]
    exact engineStep_ends hp
  · rw [step_of_inputs_cons hin]
    exact engineStep_ends (s := { s with inputs := rest }) hp

/-! ## Both resets (70 R310, R311) -/

/-- Settles O32: the soft reset, the CTRL write that carries it, and the reset input are all coreReset. -/
theorem resetsLeaveTheResetState : Obligations.ResetsLeaveTheResetState := fun s _ _ =>
  ⟨rfl, fun h0 => hostAccess_write_srst h0 s, step_of_inputs_cons⟩

end Sys2Proof.Machine
